-- ==== Sys2Proof/Word.lean ====
section
/-! DEFINITION. Word.lean: the widths of the values the engine moves (00_scope.md rules R5, R6). -/

namespace Sys2Proof

/-- One bit or one line level (R6): `true` is 1, high, released; `false` is 0, low, driven low. -/
abbrev Bit := Bool

/-- A byte on the wire, a register address, the registers `SHIFT` and `HOLD` (R5: 8 bits). -/
abbrev Byte := BitVec 8

/-- A sensor register's value and the register `RESULT` (R5: 16 bits). -/
abbrev Half := BitVec 16

/-- A command word and a host register as the host reads it (R51: 32 bits). -/
abbrev CmdWord := BitVec 32

/-- A sensor register address (R32: 8 bits). -/
abbrev RegAddr := BitVec 8

/-- A 7-bit bus address (R31). -/
abbrev BusAddr := BitVec 7

end Sys2Proof
end

