-- ==== Sys2Proof/Config.lean ====
section
/-! DEFINITION. Config.lean: the parameters of 00_scope.md rule R5, and the values the spec leaves open as opaque
constants (no body, so that no proof can see them). -/

namespace Sys2Proof

/-- A delay value: each `T_*` is 1 or 2 microseconds (R5, D12). -/
inductive Micros where
  | one
  | two
deriving DecidableEq, Repr, Inhabited

/-- The number of microseconds. -/
def Micros.toNat : Micros → Nat
  | .one => 1
  | .two => 2

/-- The acknowledge poll bound is at least 1 (R77 (e)); a bound of 0 is a configuration that is refused (U11), here by
the type. -/
abbrev PollBound := { n : Nat // 1 ≤ n }

/-- The implementation parameters of R5.  None changes while the engine runs. -/
structure Config where
  /-- `SLAVE_ADDR`. -/
  slaveAddr : BusAddr
  /-- `ACK_POLL_BOUND`. -/
  ackPollBound : PollBound
  /-- `T_START`. -/
  tStart : Micros
  /-- `T_STOP`. -/
  tStop : Micros
  /-- `T_SU`. -/
  tSu : Micros
  /-- `T_HIGH`. -/
  tHigh : Micros
  /-- `T_POLL`. -/
  tPoll : Micros
  /-- `WRITE_BIT`. -/
  writeBit : Bit
  /-- `READ_BIT`. -/
  readBit : Bit
deriving DecidableEq, Repr

namespace Config

/-- `SLAVE_ADDR` of the deployment: OPEN in the spec (R5, D10, N3). -/
opaque deployedSlaveAddr : BusAddr

/-- `T_START` of the implementation: OPEN in 1..2 (R5, D12). -/
opaque calibratedStart : Micros

/-- `T_STOP` of the implementation: OPEN in 1..2 (R5, D12). -/
opaque calibratedStop : Micros

/-- `T_SU` of the implementation: OPEN in 1..2 (R5, D12). -/
opaque calibratedSu : Micros

/-- `T_HIGH` of the implementation: OPEN in 1..2 (R5, D12). -/
opaque calibratedHigh : Micros

/-- `T_POLL` of the implementation: OPEN in 1..2 (R5, D12). -/
opaque calibratedPoll : Micros

/-- The level the slave contributes to the data line at its `n`-th free draw: a free bit (R15, R64, R114, U12). -/
opaque slaveLevel : Nat → Bit

/-- The configuration the engine has after reset: the open parameters are the opaque constants above,
`ACK_POLL_BOUND` is 250 (R5, D11), and the direction bits are 0 for a write and 1 for a read (R5, D18, G1). -/
def deployed : Config where
  slaveAddr := deployedSlaveAddr
  ackPollBound := ⟨250, by decide⟩
  tStart := calibratedStart
  tStop := calibratedStop
  tSu := calibratedSu
  tHigh := calibratedHigh
  tPoll := calibratedPoll
  writeBit := false
  readBit := true

end Config

end Sys2Proof
end

