-- ==== Sys2Proof/Syntax.lean ====
section
/-! DEFINITION. Syntax.lean: the eight commands of 30_encoding.md rule R45, one constructor per row of the opcode table,
and the two pseudo-commands and the written form of rule R56. -/

namespace Sys2Proof

/-- A command of the engine (R45); the operands have the widths of R52 and R53. -/
inductive Instr where
  /-- `START` (R70). -/
  | start
  /-- `STOP` (R72). -/
  | stop
  /-- `SENDBYTE value` (R74). -/
  | sendbyte (value : Byte)
  /-- `WAITACK` (R76). -/
  | waitack
  /-- `SENDACK ack` (R78); `true` is acknowledge (R53, D9). -/
  | sendack (ack : Bit)
  /-- `RECVBYTE ack` (R80); `true` is acknowledge (R53, D9). -/
  | recvbyte (ack : Bit)
  /-- `WRREG reg, value` (R87). -/
  | wrreg (reg : RegAddr) (value : Half)
  /-- `RDREG reg` (R88). -/
  | rdreg (reg : RegAddr)
deriving DecidableEq, Repr

/-- The mnemonic of R45. -/
def Instr.mnemonic : Instr → String
  | .start => "START"
  | .stop => "STOP"
  | .sendbyte _ => "SENDBYTE"
  | .waitack => "WAITACK"
  | .sendack _ => "SENDACK"
  | .recvbyte _ => "RECVBYTE"
  | .wrreg _ _ => "WRREG"
  | .rdreg _ => "RDREG"

/-- An acknowledge operand as it is written. -/
def ackText (ack : Bit) : String := if ack then "1" else "0"

/-- The assembler line of R56, operands in decimal. -/
def Instr.assembly : Instr → String
  | .sendbyte v => "SENDBYTE " ++ toString v.toNat
  | .sendack k => "SENDACK " ++ ackText k
  | .recvbyte k => "RECVBYTE " ++ ackText k
  | .wrreg r v => "WRREG " ++ toString r.toNat ++ ", " ++ toString v.toNat
  | .rdreg r => "RDREG " ++ toString r.toNat
  | i => i.mnemonic

/-- The two pseudo-commands of R56. -/
inductive Pseudo where
  | write16 (reg : RegAddr) (value : Half)
  | read16 (reg : RegAddr)
deriving DecidableEq, Repr

end Sys2Proof
end

