-- ==== Sys2Proof/WellFormed.lean ====
section
/-! DEFINITION. WellFormed.lean: which commands and which host sequences are well formed.  Every operand has the width of
its field by its type (R53), so every single command is well formed; what can be ill formed is a SEQUENCE of commands a
host builds by hand (70_reset_and_hazards.md rules R125 to R128). -/

namespace Sys2Proof

/-- Every command of the type is well formed: each operand is exactly as wide as its field (R52, R53). -/
def Instr.wellFormed : Instr → Bool
  | .start | .stop | .sendbyte _ | .waitack | .sendack _ | .recvbyte _ | .wrreg _ _ | .rdreg _ => true

/-- Where a host that builds a frame by hand stands (R127). -/
inductive FramePhase where
  /-- No frame open: the bus is idle. -/
  | idle
  /-- `START` was just issued: the address byte comes next. -/
  | started
  /-- A byte was sent and its acknowledge is due; `reading`: the address byte carried `READ_BIT`. -/
  | sent (reading : Bit)
  /-- The last byte sent was acknowledged. -/
  | acked (reading : Bit)
  /-- A byte was received and answered with `ack`. -/
  | received (reading ack : Bit)
deriving DecidableEq, Repr

/-- The next phase, or none where the command does not belong there (R125 to R127). -/
def FramePhase.next (cfg : Config) : FramePhase → Instr → Option FramePhase
  | .idle, .start => some .started
  | .idle, .wrreg _ _ => some .idle
  | .idle, .rdreg _ => some .idle
  | .started, .sendbyte v => some (.sent (v.getLsbD 0 == cfg.readBit))
  | .sent rd, .waitack => some (.acked rd)
  | .acked rd, .sendbyte _ => some (.sent rd)
  | .acked rd, .recvbyte k => if rd then some (.received rd k) else none
  | .acked _, .start => some .started
  | .acked _, .stop => some .idle
  | .received rd _, .recvbyte k => some (.received rd k)
  | .received _ k, .start => if k then none else some .started
  | .received _ k, .stop => if k then none else some .idle
  | _, _ => none

/-- The phase after a sequence, or none. -/
def FramePhase.after (cfg : Config) : FramePhase → List Instr → Option FramePhase
  | ph, [] => some ph
  | ph, i :: is =>
    match ph.next cfg i with
    | some ph' => FramePhase.after cfg ph' is
    | none => none

/-- A host's sequence, issued from `Idle`, is well formed (R127): after `START` the address byte and groups of
(`SENDBYTE` then `WAITACK`) or (`RECVBYTE`), closed by `STOP`; `RECVBYTE` only after an acknowledged address byte with
`READ_BIT`; the last `RECVBYTE` of a read with `ack = 0`; transactions only with no frame open. -/
def wellFormedSequence (cfg : Config) (is : List Instr) : Bool :=
  FramePhase.after cfg .idle is == some .idle

end Sys2Proof
end

