-- ==== Sys2Proof/Decode.lean ====
section
/-! DEFINITION. Decode.lean: the command word (30_encoding.md rules R51 to R55): the table of match and mask, the decoder,
total on every 32-bit word and rejecting by name, and the encoder. -/

namespace Sys2Proof

/-- `op`, bits 31:24 (R51). -/
def opField (w : CmdWord) : Byte := w.extractLsb' 24 8

/-- `a`, bits 23:16 (R51). -/
def aField (w : CmdWord) : Byte := w.extractLsb' 16 8

/-- `d`, bits 15:0 (R51). -/
def dField (w : CmdWord) : Half := w.extractLsb' 0 16

/-- The word with the fields `op`, `a`, `d` (R51). -/
def cmdWord (op a : Byte) (d : Half) : CmdWord := op ++ a ++ d

/-- Why a word is illegal (R54). -/
inductive DecodeError where
  /-- `op` is none of the eight codes. -/
  | reservedOp (op : Byte)
  /-- A listed `op` with a must-be-zero field that is not zero. -/
  | operandNotZero (op : Byte)
deriving DecidableEq, Repr

/-- One row of the table of R52. -/
structure Row where
  mnemonic : String
  pattern : CmdWord
  mask : CmdWord
deriving DecidableEq, Repr

/-- `w and mask = match` (R52). -/
def Row.selects (r : Row) (w : CmdWord) : Bool := (w &&& r.mask) == r.pattern

/-- The table of R52. -/
def opcodeTable : List Row :=
  [ ⟨"START", 0x01000000, 0xFFFFFFFF⟩, ⟨"STOP", 0x02000000, 0xFFFFFFFF⟩,
    ⟨"SENDBYTE", 0x03000000, 0xFF00FFFF⟩, ⟨"WAITACK", 0x04000000, 0xFFFFFFFF⟩,
    ⟨"SENDACK", 0x05000000, 0xFFFEFFFF⟩, ⟨"RECVBYTE", 0x06000000, 0xFFFEFFFF⟩,
    ⟨"WRREG", 0x10000000, 0xFF000000⟩, ⟨"RDREG", 0x11000000, 0xFF00FFFF⟩ ]

/-- Is `a` an acknowledge operand: `a[7:1] = 0` (R52)? -/
def ackOnly (a : Byte) : Bool := a &&& 0xFE == 0

/-- The decoder: the fields of R51, the codes and must-be-zero fields of R52, the operands of R53, everything else
illegal (R54). -/
def decode (w : CmdWord) : Except DecodeError Instr :=
  let op := opField w
  let a := aField w
  let d := dField w
  match op.toNat with
  | 0x01 => if a == 0 && d == 0 then .ok .start else .error (.operandNotZero op)
  | 0x02 => if a == 0 && d == 0 then .ok .stop else .error (.operandNotZero op)
  | 0x03 => if d == 0 then .ok (.sendbyte a) else .error (.operandNotZero op)
  | 0x04 => if a == 0 && d == 0 then .ok .waitack else .error (.operandNotZero op)
  | 0x05 => if ackOnly a && d == 0 then .ok (.sendack (a.getLsbD 0)) else .error (.operandNotZero op)
  | 0x06 => if ackOnly a && d == 0 then .ok (.recvbyte (a.getLsbD 0)) else .error (.operandNotZero op)
  | 0x10 => .ok (.wrreg a d)
  | 0x11 => if d == 0 then .ok (.rdreg a) else .error (.operandNotZero op)
  | _ => .error (.reservedOp op)

/-- The acknowledge operand in the field `a`: `a[0] = ack`, `a[7:1] = 0` (R52). -/
def ackByte (ack : Bit) : Byte := if ack then 1 else 0

/-- The encoder, from the same table (R52). -/
def encode : Instr → CmdWord
  | .start => cmdWord 0x01 0 0
  | .stop => cmdWord 0x02 0 0
  | .sendbyte v => cmdWord 0x03 v 0
  | .waitack => cmdWord 0x04 0 0
  | .sendack k => cmdWord 0x05 (ackByte k) 0
  | .recvbyte k => cmdWord 0x06 (ackByte k) 0
  | .wrreg r v => cmdWord 0x10 r v
  | .rdreg r => cmdWord 0x11 r 0

/-- The row of the table a command belongs to (R52). -/
def rowOf : Instr → Row
  | .start => ⟨"START", 0x01000000, 0xFFFFFFFF⟩
  | .stop => ⟨"STOP", 0x02000000, 0xFFFFFFFF⟩
  | .sendbyte _ => ⟨"SENDBYTE", 0x03000000, 0xFF00FFFF⟩
  | .waitack => ⟨"WAITACK", 0x04000000, 0xFFFFFFFF⟩
  | .sendack _ => ⟨"SENDACK", 0x05000000, 0xFFFEFFFF⟩
  | .recvbyte _ => ⟨"RECVBYTE", 0x06000000, 0xFFFEFFFF⟩
  | .wrreg _ _ => ⟨"WRREG", 0x10000000, 0xFF000000⟩
  | .rdreg _ => ⟨"RDREG", 0x11000000, 0xFF00FFFF⟩

/-- The command word of a table row's word: its low `nbits` bits, where they fit a word (R55). -/
def tableWord (nbits w : Nat) : Option CmdWord :=
  let v := w % 2 ^ nbits
  if v < 2 ^ 32 then some (BitVec.ofNat 32 v) else none

/-- What the decoder reads from the word whose bits are `w`, numbered as the opcode table numbers them; none where the
decoder refuses it. -/
def decodeTableWord (nbits w : Nat) : Option Instr :=
  match tableWord nbits w with
  | some v =>
    match decode v with
    | .ok i => some i
    | .error _ => none
  | none => none

end Sys2Proof
end

