-- ==== Sys2Proof/Machine/State.lean ====
section
/-! DEFINITION. Machine/State.lean: the state of 10_state.md rule R10, the environment it is stepped with (the slave, the
host's accesses), the trace of 00_scope.md rule R8, and the state after reset (R26). -/

namespace Sys2Proof.Machine

/-! ### The pins -/

/-- The direction of the data line (R13). -/
inductive Dir where
  /-- `IN`: the engine does not drive the line. -/
  | input
  /-- `OUT`: the engine drives `sda_out`. -/
  | output
deriving DecidableEq, Repr

/-- The pin state (R11 to R13). -/
structure Pins where
  /-- `scl_out` (R11). -/
  sclOut : Bit
  /-- `sda_out`, the output latch (R12). -/
  sdaOut : Bit
  /-- `sda_dir` (R13). -/
  sdaDir : Dir
deriving DecidableEq, Repr

/-- The two wire levels, `(SCL_wire, SDA_wire)` (R14). -/
structure Wire where
  scl : Bit
  sda : Bit
deriving DecidableEq, Repr

/-! ### Micro-operations and the trace -/

/-- Which delay parameter a `W(n)` names (R65, R137). -/
inductive Delay where
  | tStart
  | tStop
  | tSu
  | tHigh
  | tPoll
deriving DecidableEq, Repr

/-- A micro-operation (R60): `DO`/`DI`, `C0`/`C1`, `D0`/`D1`, `R`, `W(n)`. -/
inductive MicroOp where
  /-- `DO` (R61). -/
  | dirOut
  /-- `DI` (R61). -/
  | dirIn
  /-- `C0`, `C1` (R62). -/
  | clk (b : Bit)
  /-- `D0`, `D1` (R63). -/
  | dat (b : Bit)
  /-- `R` (R64). -/
  | read
  /-- `W(n)` (R65). -/
  | wait (d : Delay)
deriving DecidableEq, Repr

/-- A trace entry's micro-operation: as `MicroOp`, a read with its answer (R8, R61 to R65). -/
inductive Event where
  /-- `DO`. -/
  | dirOut
  /-- `DI`. -/
  | dirIn
  /-- `C0`, `C1`. -/
  | clk (b : Bit)
  /-- `D0`, `D1`. -/
  | dat (b : Bit)
  /-- `R(b)`. -/
  | read (b : Bit)
  /-- `W(n)`, by the parameter's name. -/
  | wait (d : Delay)
deriving DecidableEq, Repr

/-- One entry of the trace and of the wire trace (R8): what was performed, and the wire levels after it. -/
structure Entry where
  event : Event
  wire : Wire
deriving DecidableEq, Repr

/-! ### The sequencer position -/

/-- `SEQ` when a command is in progress (R19): the command with its operands, the index of the primitive within it, the
index of the next micro-operation within the primitive's pseudocode. -/
structure Seq where
  cmd : Instr
  prim : Nat
  uop : Nat
deriving DecidableEq, Repr

/-! ### The slave (environment, R15, R24 (d), R114) -/

/-- The slave as an oracle: `level` is its present contribution `s_sda` (R15); its contribution at each micro-operation
to come is the next bit of `script`, and when that is used up the free bit `Config.slaveLevel drawn`. -/
structure Oracle where
  level : Bit
  script : List Bit
  drawn : Nat
deriving DecidableEq, Repr

/-- The phases of the reference slave (95_test_vectors.md section 2). -/
inductive SensorPhase where
  | idle
  | rxAddr
  | rxPtr
  | rxHi
  | rxLo
  | tx
deriving DecidableEq, Repr

/-- The sensor register space of R32: register number and 16-bit value.  Canonical form: numbers strictly rising and
below 256, no value equal to 0, which is what an unlisted register holds (`Regs.wf`, `Regs.read`). -/
abbrev Regs := List (Nat × Half)

/-- The reference slave (95_test_vectors.md section 2), with its parameters and its state. -/
structure Sensor where
  /-- `A`: the address it answers to. -/
  addr : BusAddr
  /-- `present`. -/
  present : Bool
  /-- `refuse`: the acknowledge after the last `S` that it withholds. -/
  refuse : Option Nat
  /-- `regs`. -/
  regs : Regs
  /-- `phase`. -/
  phase : SensorPhase
  /-- `n`, 0..9: clock pulses of the current byte. -/
  n : Nat
  /-- `sh`. -/
  sh : Byte
  /-- `ptr`: "the sensor's internal register pointer". -/
  ptr : RegAddr
  /-- `hi`. -/
  hi : Byte
  /-- `cur`. -/
  cur : Byte
  /-- `queue`. -/
  queue : List Byte
  /-- `given`. -/
  given : Nat
  /-- `acked`: the master's ninth bit was low. -/
  acked : Bool
  /-- An `S` was seen and no `P` since: the next start condition is an `Sr` (R46). -/
  inFrame : Bool
  /-- `s_sda`. -/
  level : Bit
deriving DecidableEq, Repr

/-- The slave: any slave at all (R114), or the reference slave. -/
inductive Slave where
  | oracle (o : Oracle)
  | sensor (r : Sensor)
deriving DecidableEq, Repr

/-! ### The host (environment, R106) -/

/-- The host-visible registers (R20 to R23). -/
inductive HostReg where
  /-- Register number 0, write-only. -/
  | cmd
  /-- Register number 1, read-only. -/
  | result
  /-- Register number 2, read-only. -/
  | status
deriving DecidableEq, Repr

/-- What the outside world does to the engine, one at a time (R106, R115). -/
inductive HostOp where
  /-- A blocking register write.  A write of `CMD` is complete when its command has run to its end (R20): one step. -/
  | write (r : HostReg) (w : CmdWord)
  /-- The same write of `CMD`, seen from the bus: the command begins, and each later step is one micro-operation (R60). -/
  | issue (w : CmdWord)
  /-- A register read. -/
  | read (r : HostReg)
  /-- The hardware reset (R115 to R117). -/
  | reset
deriving DecidableEq, Repr

/-- What a host read gives back (R106). -/
inductive HostAnswer where
  /-- The register's value as a host word. -/
  | word (v : CmdWord)
  /-- The fault of a read of `RESULT` before it is written (R21, U1): no value.  A fault in the sense of
  93_implementation_defined.md part 1, "a recorded error that is never final": it stands here, and the engine goes on
  (log entry 10). -/
  | unwrittenResult
deriving DecidableEq, Repr

/-! ### The state -/

/-- The state: R10's tuple, then the model's own fields. -/
structure State where
  /-- `scl_out`, `sda_out`, `sda_dir` (R11 to R13). -/
  pins : Pins
  /-- `SHIFT` (R16). -/
  shift : Byte
  /-- `BITCNT`, 0..8 (R17). -/
  bitcnt : Nat
  /-- `POLLCNT`, 0..`ACK_POLL_BOUND` (R18). -/
  pollcnt : Nat
  /-- `SEQ`, or none (R19). -/
  seq : Option Seq
  /-- `HOLD` (R28). -/
  hold : Byte
  /-- `RESULT`: 16 bits, or none: *unwritten*, a value the spec itself gives this register (R10, R21, R26). -/
  result : Option Half
  /-- `STATUS.ERR` (R22). -/
  err : Bit
  /-- `STATUS.CAUSE` (R23). -/
  cause : BitVec 2
  /-- MODEL'S OWN: the parameters (R5). -/
  cfg : Config
  /-- MODEL'S OWN: the last answer of `R`, the variable `b` of the pseudocode of R76 and R80. -/
  sample : Bit
  /-- MODEL'S OWN (environment): the slave (R15). -/
  slave : Slave
  /-- MODEL'S OWN (environment): the outside world's accesses to come, the next one first (R106). -/
  pending : List HostOp
  /-- MODEL'S OWN (environment): what the host's reads returned, the latest first (R106). -/
  returned : List HostAnswer
  /-- MODEL'S OWN: the trace and the wire trace, the latest entry first (R8). -/
  trace : List Entry
deriving DecidableEq, Repr

/-- Why a step stops with a fault. -/
inductive Fault where
  /-- Raised by the sequencer when `SEQ` is no position of the pseudocode (R19); no state that meets the invariant
  `Safe` of Safety.lean raises it.  Safe. -/
  | sequencerLost
deriving DecidableEq, Repr

/-- Why a step is refused. -/
inductive Refusal where
  /-- No meaning for the instruction yet; no arm of `exec` uses it.  Safe. -/
  | notModelled (mnemonic : String)
  /-- Raised by a host read of `CMD`, a write-only register (R20, U2: "refuse").  Safe. -/
  | readOfCmd
  /-- Raised by a host write of `RESULT` or `STATUS`, read-only registers (R21 to R23).  Safe. -/
  | writeOfReadOnly
  /-- Raised by the sequencer for `D0`/`D1` while the direction is `IN` (R67, U3: "refuse").  Safe. -/
  | driveWhileInput
  /-- Raised by the sequencer for `R` while the direction is `OUT` (R67, U3: "refuse").  Safe. -/
  | readWhileOutput
deriving DecidableEq, Repr

namespace State

/-! ### One setter a group of fields -/

/-- The pins, the slave, the sample and the trace after a micro-operation. -/
def setLine (s : State) (p : Pins) (v : Slave) (b : Bit) (e : Entry) : State :=
  { s with pins := p, slave := v, sample := b, trace := e :: s.trace }

def setShift (s : State) (v : Byte) : State := { s with shift := v }

def setBitcnt (s : State) (n : Nat) : State := { s with bitcnt := n }

def setPollcnt (s : State) (n : Nat) : State := { s with pollcnt := n }

def setSeq (s : State) (q : Option Seq) : State := { s with seq := q }

def setHold (s : State) (v : Byte) : State := { s with hold := v }

def setResult (s : State) (v : Half) : State := { s with result := some v }

/-- `ERR` and `CAUSE`. -/
def setStatus (s : State) (e : Bit) (c : BitVec 2) : State := { s with err := e, cause := c }

def setPending (s : State) (l : List HostOp) : State := { s with pending := l }

/-- What a host read gave back. -/
def addReturned (s : State) (v : HostAnswer) : State := { s with returned := v :: s.returned }

/-! ### Views of the trace -/

/-- The trace of R8, oldest first. -/
def events (s : State) : List Event := (s.trace.map Entry.event).reverse

/-- The wire trace of R8, oldest first. -/
def wires (s : State) : List Wire := (s.trace.map Entry.wire).reverse

/-! ### Reset -/

/-- The state after reset (R26, R115, R116).  The spec gives every field of R10 but `SHIFT` and `HOLD` ("unspecified",
zero here: log entry 1).  The trace starts empty (R116), the slave is any slave with the line released (R120 (d)), and
no host access is pending. -/
def reset : State where
  pins := ⟨true, true, .output⟩
  shift := 0
  bitcnt := 0
  pollcnt := 0
  seq := none
  hold := 0
  result := none
  err := false
  cause := 0
  cfg := Config.deployed
  sample := false
  slave := .oracle ⟨true, [], 0⟩
  pending := []
  returned := []
  trace := []

end State

end Sys2Proof.Machine
end

