-- ==== Sys2Proof/Machine/Memory.lean ====
section
/-! DEFINITION. Machine/Memory.lean: the sensor register space (20_memory.md rules R32 to R34): 256 numbers, each one
16-bit register; the engine has no memory of its own (R30). -/

namespace Sys2Proof.Machine

namespace Regs

/-- What an unlisted register of the reference slave holds (program P1: "`regs` all zero"; log entry 6). -/
def unlisted : Half := 0

/-- The register at an address (R32). -/
def valueAt : Regs → Nat → Half
  | [], _ => unlisted
  | (k, v) :: m, a => if k = a then v else valueAt m a

/-- The list without an address. -/
def without : Regs → Nat → Regs
  | [], _ => []
  | (k, v) :: m, a => if k = a then without m a else (k, v) :: without m a

/-- The list with a listed value at its place. -/
def place (a : Nat) (v : Half) : Regs → Regs
  | [] => [(a, v)]
  | (k, u) :: m => if a < k then (a, v) :: (k, u) :: m else (k, u) :: place a v m

/-- Read a register: the whole 16 bits (R32). -/
def read (m : Regs) (a : RegAddr) : Half := m.valueAt a.toNat

/-- Write a register; writing what an unlisted register holds removes the entry. -/
def write (m : Regs) (a : RegAddr) (v : Half) : Regs :=
  if v = unlisted then m.without a.toNat else place a.toNat v (m.without a.toNat)

/-- Every address of the list is above `a`. -/
def above (a : Nat) (m : Regs) : Bool := m.all fun e => a < e.1

/-- The canonical form: strictly rising addresses below 256, no entry equal to an unlisted register. -/
def wf : Regs → Bool
  | [] => true
  | (k, v) :: m => decide (k < 256) && !(v == unlisted) && above k m && wf m

end Regs

/-- The named registers of the map (R33). -/
inductive SensorReg where
  | result
  | configuration
  | limitA
  | limitB
  | manufacturerId
  | deviceId
deriving DecidableEq, Repr

/-- Their addresses (R33).  Which of `0x02` and `0x03` is the low limit is not stated (N13). -/
def SensorReg.address : SensorReg → RegAddr
  | .result => 0x00
  | .configuration => 0x01
  | .limitA => 0x02
  | .limitB => 0x03
  | .manufacturerId => 0x7E
  | .deviceId => 0x7F

/-- `exponent = v[15:12]` of a value of the result register (R34). -/
def resultExponent (v : Half) : BitVec 4 := v.extractLsb' 12 4

/-- `mantissa = v[11:0]` (R34). -/
def resultMantissa (v : Half) : BitVec 12 := v.extractLsb' 0 12

end Sys2Proof.Machine
end

