-- ==== Sys2Proof/Machine/Operands.lean ====
section
/-! DEFINITION. Machine/Operands.lean: the bytes and words the engine assembles: the address bytes (30_encoding.md rule
R47), the shift register's two moves (R74, R80), byte order (R35), `RESULT`'s two forms, and the expansion of the
pseudo-commands (R56). -/

namespace Sys2Proof.Machine

/-- `SLAVE_ADDR ## bit` (R47). -/
def addressByte (cfg : Config) (direction : Bit) : Byte := cfg.slaveAddr ++ BitVec.ofBool direction

/-- `AW` (R47). -/
def writeAddress (cfg : Config) : Byte := addressByte cfg cfg.writeBit

/-- `AR` (R47). -/
def readAddress (cfg : Config) : Byte := addressByte cfg cfg.readBit

/-- `value[15:8]`, the first data byte on the wire (R35). -/
def highByte (v : Half) : Byte := v.extractLsb' 8 8

/-- `value[7:0]`, the second (R35). -/
def lowByte (v : Half) : Byte := v.extractLsb' 0 8

/-- `hi ## lo` (R35, R88). -/
def joinBytes (hi lo : Byte) : Half := hi ++ lo

/-- `zext_16(byte)` (R80). -/
def zextByte (b : Byte) : Half := b.setWidth 16

/-- The sentinel of a failed read (R88, R89). -/
def sentinel : Half := 0xFFFF

/-- `SHIFT[7]`, the bit sent next (R74). -/
def topBit (v : Byte) : Bit := v.getLsbD 7

/-- `(SHIFT << 1)[7:0]` (R74). -/
def shiftOut (v : Byte) : Byte := v <<< 1

/-- `((SHIFT << 1)[7:0]) | b` (R80). -/
def shiftIn (v : Byte) (b : Bit) : Byte := (v <<< 1) ||| (BitVec.ofBool b).setWidth 8

/-- The length of a delay (R5). -/
def delayMicros (cfg : Config) : Delay → Nat
  | .tStart => cfg.tStart.toNat
  | .tStop => cfg.tStop.toNat
  | .tSu => cfg.tSu.toNat
  | .tHigh => cfg.tHigh.toNat
  | .tPoll => cfg.tPoll.toNat

/-- The expansion of a pseudo-command into primitives (R56). -/
def expand (cfg : Config) : Pseudo → List Instr
  | .write16 reg value =>
    [ .start, .sendbyte (writeAddress cfg), .waitack, .sendbyte reg, .waitack, .sendbyte (highByte value), .waitack,
      .sendbyte (lowByte value), .waitack, .stop ]
  | .read16 reg =>
    [ .start, .sendbyte (writeAddress cfg), .waitack, .sendbyte reg, .waitack, .start, .sendbyte (readAddress cfg),
      .waitack, .recvbyte true, .recvbyte false, .stop ]

/-- The transaction a pseudo-command equals (R56). -/
def transactionOf : Pseudo → Instr
  | .write16 reg value => .wrreg reg value
  | .read16 reg => .rdreg reg

end Sys2Proof.Machine
end

