-- ==== Sys2Proof/Machine/Flags.lean ====
section
/-! DEFINITION. Machine/Flags.lean: `STATUS`: what the end of a command writes into `ERR` and `CAUSE` (60_exceptions.md
rule R98) and the word the host reads (10_state.md rules R22, R23). -/

namespace Sys2Proof.Machine

/-- The two faults a command can end with (R95, R96). -/
inductive FaultCause where
  | busAcknowledgeTimeout
  | illegalCommand
deriving DecidableEq, Repr

/-- `CAUSE` for a fault (R23, R98). -/
def FaultCause.code : FaultCause → BitVec 2
  | .busAcknowledgeTimeout => 1
  | .illegalCommand => 2

/-- `CAUSE` for no fault (R23, R98). -/
def noFault : BitVec 2 := 0

/-- The register numbers (R20 to R22). -/
def HostReg.number : HostReg → Nat
  | .cmd => 0
  | .result => 1
  | .status => 2

/-- The `STATUS` word: bit 0 `ERR`, bits 2:1 `CAUSE`, bits 31:3 zero (R22, R23). -/
def statusWord (err : Bit) (cause : BitVec 2) : CmdWord := (0 : BitVec 29) ++ cause ++ BitVec.ofBool err

/-- The `RESULT` register as a host word: its 16 bits, zero above (R21; log entry 9). -/
def resultWord (v : Half) : CmdWord := v.setWidth 32

end Sys2Proof.Machine
end

