-- ==== Sys2Proof/Machine/Slave.lean ====
section
/-! DEFINITION. Machine/Slave.lean: the wire (10_state.md rule R14) and the slave, which moves once at every
micro-operation of the engine (40_pin_microops.md rule R60): the oracle of R15 and R114, and the reference slave of
95_test_vectors.md section 2. -/

namespace Sys2Proof.Machine

/-- `m_sda`, the master's contribution: 1 when `sda_dir = IN`, else `sda_out` (R14). -/
def Pins.master (p : Pins) : Bit :=
  match p.sdaDir with
  | .input => true
  | .output => p.sdaOut

/-- The wire levels: `SCL_wire = scl_out`, `SDA_wire = m_sda and s_sda` (R14). -/
def Pins.wire (p : Pins) (slaveLevel : Bit) : Wire := ⟨p.sclOut, p.master && slaveLevel⟩

/-- The pin state the source calls idle, with the direction clause of R25. -/
def Pins.idle : Pins := ⟨true, true, .output⟩

/-! ### The oracle -/

/-- The oracle after one micro-operation: its next contribution is drawn (R15, R114). -/
def Oracle.draw (o : Oracle) : Oracle :=
  match o.script with
  | b :: bs => ⟨b, bs, o.drawn⟩
  | [] => ⟨Config.slaveLevel o.drawn, [], o.drawn + 1⟩

/-- The contribution the oracle will make at the `k`-th micro-operation from now, counting from 0. -/
def Oracle.upcoming (o : Oracle) (k : Nat) : Bit :=
  match o.script[k]? with
  | some b => b
  | none => Config.slaveLevel (o.drawn + (k - o.script.length))

/-! ### The reference slave -/

namespace Sensor

/-- On a start condition; on `S`, not on `Sr`, the count of acknowledges starts again. -/
def onStart (r : Sensor) : Sensor :=
  { r with phase := .rxAddr, n := 0, sh := 0, level := true, inFrame := true,
           given := if r.inFrame then r.given else 0 }

/-- On a stop condition. -/
def onStop (r : Sensor) : Sensor := { r with phase := .idle, level := true, inFrame := false }

/-- Is the slave receiving? -/
def receiving (r : Sensor) : Bool :=
  match r.phase with
  | .rxAddr | .rxPtr | .rxHi | .rxLo => true
  | .idle | .tx => false

/-- Rising clock edge while receiving: a data bit, or the acknowledge pulse. -/
def riseReceiving (r : Sensor) (sda : Bit) : Sensor :=
  if r.n < 8 then { r with sh := shiftIn r.sh sda, n := r.n + 1 }
  else if r.n = 8 then { r with n := 9 }
  else r

/-- Rising clock edge while sending: a data bit, or the master's ninth bit. -/
def riseSending (r : Sensor) (sda : Bit) : Sensor :=
  if r.n < 8 then { r with n := r.n + 1 }
  else if r.n = 8 then { r with acked := !sda, n := 9 }
  else r

/-- On a rising clock edge. -/
def onRise (r : Sensor) (sda : Bit) : Sensor :=
  if !r.present then r
  else if r.receiving then r.riseReceiving sda
  else if r.phase = .tx then r.riseSending sda
  else r

/-- The acknowledge decision after the eighth data bit. -/
def decideAck (r : Sensor) : Sensor :=
  let given := r.given + 1
  let ok := (r.phase != .rxAddr || r.sh.extractLsb' 1 7 == r.addr) && r.refuse != some given
  if ok then { r with given := given, level := false } else { r with given := given, phase := .idle }

/-- Enter the read phase: fetch the register at the pointer, high byte first, and put its top bit on the line. -/
def beginSending (r : Sensor) : Sensor :=
  let v := r.regs.read r.ptr
  { r with phase := .tx, n := 0, cur := highByte v, queue := [lowByte v], level := topBit (highByte v) }

/-- The received byte is consumed at the end of its acknowledge pulse. -/
def consume (r : Sensor) : Sensor :=
  let r := { r with level := true, n := 0 }
  match r.phase with
  | .rxAddr => if r.sh.getLsbD 0 then r.beginSending else { r with phase := .rxPtr }
  | .rxPtr => { r with ptr := r.sh, phase := .rxHi }
  | .rxHi => { r with hi := r.sh, phase := .rxLo }
  | .rxLo => { r with regs := r.regs.write r.ptr (joinBytes r.hi r.sh), phase := .idle }
  | .idle | .tx => r

/-- Falling clock edge while receiving.  The "not yet decided" of the source's listing needs no field: a second falling
edge with `n = 8` cannot come before the rising edge that makes it 9. -/
def fallReceiving (r : Sensor) : Sensor :=
  if r.n = 8 then r.decideAck else if r.n = 9 then r.consume else r

/-- The master's ninth bit is over: the next byte, or the end of the read. -/
def nextByte (r : Sensor) : Sensor :=
  match r.acked, r.queue with
  | true, b :: q => { r with cur := b, queue := q, n := 0, level := topBit b }
  | _, _ => { r with phase := .idle, level := true }

/-- Falling clock edge while sending. -/
def fallSending (r : Sensor) : Sensor :=
  if 0 < r.n ∧ r.n < 8 then { r with level := r.cur.getLsbD (7 - r.n) }
  else if r.n = 8 then { r with level := true }
  else if r.n = 9 then r.nextByte
  else r

/-- On a falling clock edge. -/
def onFall (r : Sensor) : Sensor :=
  if !r.present then r
  else if r.receiving then r.fallReceiving
  else if r.phase = .tx then r.fallSending
  else r

/-- What the slave does when the wire goes from `before` to `after`: it moves only at a start or stop condition or at a
clock edge. -/
def watch (r : Sensor) (before after : Wire) : Sensor :=
  match before.scl, after.scl with
  | true, true =>
    match before.sda, after.sda with
    | true, false => r.onStart
    | false, true => r.onStop
    | _, _ => r
  | false, true => r.onRise after.sda
  | true, false => r.onFall
  | false, false => r

end Sensor

/-! ### Any slave -/

/-- `s_sda`, the slave's contribution to the data line (R15). -/
def Slave.level : Slave → Bit
  | .oracle o => o.level
  | .sensor r => r.level

/-- The slave after a micro-operation that took the pins from `p` to `p'`. -/
def Slave.next (v : Slave) (p p' : Pins) : Slave :=
  match v with
  | .oracle o => .oracle o.draw
  | .sensor r => .sensor (r.watch (p.wire r.level) (p'.wire r.level))

end Sys2Proof.Machine
end

