-- ==== Sys2Proof/Machine/Ops.lean ====
section
/-! DEFINITION. Machine/Ops.lean: the micro-operations (40_pin_microops.md rules R60 to R65), the end of a command and the
taking of a fault (60_exceptions.md rules R98, R101), and the idle predicate (10_state.md rule R25). -/

namespace Sys2Proof.Machine

/-- The effect of a micro-operation on the pins (R61 to R65). -/
def MicroOp.drive (op : MicroOp) (p : Pins) : Pins :=
  match op with
  | .dirOut => { p with sdaDir := .output }
  | .dirIn => { p with sdaDir := .input }
  | .clk b => { p with sclOut := b }
  | .dat b => { p with sdaOut := b }
  | .read | .wait _ => p

/-- The trace entry of a micro-operation, `answer` being what a read would return (R61 to R65). -/
def MicroOp.event (op : MicroOp) (answer : Bit) : Event :=
  match op with
  | .dirOut => .dirOut
  | .dirIn => .dirIn
  | .clk b => .clk b
  | .dat b => .dat b
  | .read => .read answer
  | .wait d => .wait d

/-- The latch behind the pseudocode's variable `b`: a read loads it (R76, R80). -/
def MicroOp.latch (op : MicroOp) (answer old : Bit) : Bit :=
  match op with
  | .read => answer
  | .dirOut | .dirIn | .clk _ | .dat _ | .wait _ => old

/-- `emit(op)` (R7, R60): the pins change as the micro-operation says, the slave moves, and the micro-operation is
appended to the trace with the wire levels after it; a read's answer is `SDA_wire` (R64). -/
def emit (op : MicroOp) (s : State) : State :=
  let pins := op.drive s.pins
  let slave := s.slave.next s.pins pins
  let wire := pins.wire slave.level
  s.setLine pins slave (op.latch wire.sda s.sample) ⟨op.event wire.sda, wire⟩

/-- Several micro-operations in order. -/
def emits : List MicroOp → State → State
  | [], s => s
  | op :: ops, s => emits ops (emit op s)

/-- A micro-operation as the sequencer performs it: a data-line drive while the direction is `IN` and a read while it is
`OUT` are refused (R67, U3). -/
def perform (op : MicroOp) (s : State) : Host.Outcome State Fault Refusal :=
  match op, s.pins.sdaDir with
  | .dat _, .input => .refused .driveWhileInput
  | .read, .output => .refused .readWhileOutput
  | _, _ => .next (emit op s)

/-- The normal end of a command: `ERR <- 0`, `CAUSE <- 0`, `SEQ <- none` (R22, R23, R98). -/
def complete (s : State) : State := (s.setStatus false noFault).setSeq none

/-- Taking a fault, steps (4) and (5) of R101: `ERR <- 1`, `CAUSE <- code`, `SEQ <- none`; nothing is saved, no mode
changes, control goes nowhere, and there is nothing to return from (R103).  Step (1), the `STOP`, is `WAITACK`'s own,
and step (3), `RESULT <- 0xFFFF`, is `RDREG`'s. -/
def takeFault (c : FaultCause) (s : State) : State := (s.setStatus true c.code).setSeq none

/-- `Idle(State)` (R25). -/
abbrev State.Idle (s : State) : Prop := s.pins = Pins.idle ∧ s.seq = none

end Sys2Proof.Machine
end

