-- ==== Sys2Proof/Machine/Primitives.lean ====
section
/-! DEFINITION. Machine/Primitives.lean: the six bus primitives (41_bus_primitives.md), each first as it is performed by
`call` from a transaction, which touches neither `STATUS` nor `RESULT`, then as the host's command. -/

namespace Sys2Proof.Machine

/-- `START` (R70). -/
def startOps : List MicroOp := [.dirOut, .dat true, .clk true, .wait .tStart, .dat false, .clk false]

/-- `STOP` (R72). -/
def stopOps : List MicroOp := [.clk false, .dirOut, .dat false, .clk true, .wait .tStop, .dat true]

/-- The five micro-operations of one sent bit (R74). -/
def sendBitOps (b : Bit) : List MicroOp := [.dat b, .wait .tSu, .clk true, .wait .tHigh, .clk false]

/-- The five micro-operations of one received bit (R80). -/
def recvBitOps : List MicroOp := [.wait .tSu, .clk true, .read, .wait .tHigh, .clk false]

/-- `SENDACK ack`: `ack = 1` drives the line low (R78, D9). -/
def sendAckOps (ack : Bit) : List MicroOp :=
  [.dirOut, .dat (!ack), .wait .tSu, .clk true, .wait .tHigh, .clk false, .dat true]

/-- `call START`. -/
def start (s : State) : State := emits startOps s

/-- `call STOP`. -/
def stop (s : State) : State := emits stopOps s

/-- One turn of `SENDBYTE`'s loop (R74). -/
def sendBit (s : State) : State :=
  let t := emits (sendBitOps (topBit s.shift)) s
  (t.setShift (shiftOut t.shift)).setBitcnt (t.bitcnt - 1)

/-- `n` turns of it. -/
def sendBits : Nat → State → State
  | 0, s => s
  | n + 1, s => sendBits n (sendBit s)

/-- `call SENDBYTE(value)`. -/
def sendByte (value : Byte) (s : State) : State :=
  sendBits 8 (((emit .dirOut s).setShift value).setBitcnt 8)

/-- `WAITACK`'s loop with `left` samples still allowed (R76): the second component is the returned boolean, `true` = no
acknowledge.  At most `ACK_POLL_BOUND` samples are taken, and the last high one is the timeout (D11). -/
def pollAck : Nat → State → State × Bit
  | 0, s => (stop s, true)
  | left + 1, s =>
    let t := emit .read s
    match t.sample with
    | false => (emit (.clk false) t, false)
    | true =>
      let u := emit (.wait .tPoll) t
      pollAck left (u.setPollcnt (u.pollcnt + 1))

/-- `call WAITACK`. -/
def waitAck (s : State) : State × Bit :=
  pollAck s.cfg.ackPollBound.val ((emits [.dirIn, .clk true] s).setPollcnt 0)

/-- `call SENDACK(ack)`. -/
def sendAck (ack : Bit) (s : State) : State := emits (sendAckOps ack) s

/-- One turn of `RECVBYTE`'s loop (R80). -/
def recvBit (s : State) : State :=
  let t := emits recvBitOps s
  (t.setShift (shiftIn t.shift t.sample)).setBitcnt (t.bitcnt - 1)

/-- `n` turns of it. -/
def recvBits : Nat → State → State
  | 0, s => s
  | n + 1, s => recvBits n (recvBit s)

/-- `call RECVBYTE(ack)`; the byte is in `SHIFT`. -/
def recvByte (ack : Bit) (s : State) : State :=
  sendAck ack (recvBits 8 (((emit .dirIn s).setShift 0).setBitcnt 8))

/-! ### As commands of the host -/

/-- `START` (R70). -/
def execStart (s : State) : Host.Outcome State Fault Refusal := .next (complete (start s))

/-- `STOP` (R72). -/
def execStop (s : State) : Host.Outcome State Fault Refusal := .next (complete (stop s))

/-- `SENDBYTE value` (R74). -/
def execSendbyte (value : Byte) (s : State) : Host.Outcome State Fault Refusal := .next (complete (sendByte value s))

/-- The end of `WAITACK` as a command (R76): `ERR <- 0`, or the fault BusAcknowledgeTimeout (R95). -/
def endWaitAck : State × Bit → State
  | (s, false) => complete s
  | (s, true) => takeFault .busAcknowledgeTimeout s

/-- `WAITACK` (R76). -/
def execWaitack (s : State) : Host.Outcome State Fault Refusal := .next (endWaitAck (waitAck s))

/-- `SENDACK ack` (R78). -/
def execSendack (ack : Bit) (s : State) : Host.Outcome State Fault Refusal := .next (complete (sendAck ack s))

/-- The end of `RECVBYTE` as a command: `RESULT <- zext_16(byte)` (R80). -/
def endRecvByte (s : State) : State := complete (s.setResult (zextByte s.shift))

/-- `RECVBYTE ack` (R80). -/
def execRecvbyte (ack : Bit) (s : State) : Host.Outcome State Fault Refusal := .next (endRecvByte (recvByte ack s))

end Sys2Proof.Machine
end

