-- ==== Sys2Proof/Machine/Framer.lean ====
section
/-! DEFINITION. Machine/Framer.lean: the two transactions (42_register_protocol.md).  Every micro-operation belongs to a
primitive they call (R85); `STATUS` and `RESULT` are written once, at the end (R90). -/

namespace Sys2Proof.Machine

/-- Send bytes, each followed by `ACKCHECK` (R86).  The second component is `true` when an acknowledge was missed: the
rest is not sent, and the `STOP` inside that `WAITACK` is the only one (R89). -/
def sendAcked : List Byte → State → State × Bit
  | [], s => (s, false)
  | b :: bs, s =>
    match waitAck (sendByte b s) with
    | (t, true) => (t, true)
    | (t, false) => sendAcked bs t

/-- The end of `WRREG` (R87, R89): `STOP` and success, or the fault with no second `STOP`. -/
def endWrite : State × Bit → State
  | (s, false) => complete (stop s)
  | (s, true) => takeFault .busAcknowledgeTimeout s

/-- The bytes of the write frame (R49, R87). -/
def writeBytes (cfg : Config) (reg : RegAddr) (value : Half) : List Byte :=
  [writeAddress cfg, reg, highByte value, lowByte value]

/-- `WRREG reg, value` (R87). -/
def execWrreg (reg : RegAddr) (value : Half) (s : State) : Host.Outcome State Fault Refusal :=
  .next (endWrite (sendAcked (writeBytes s.cfg reg value) (start s)))

/-- The failed end of `RDREG` (R88, R89): `RESULT <- 0xFFFF`, then the fault. -/
def abortRead (s : State) : State := takeFault .busAcknowledgeTimeout (s.setResult sentinel)

/-- The data phase of `RDREG` (R88): the high byte acknowledged and kept in `HOLD` (R28), the low byte not acknowledged,
`STOP`, `RESULT <- HOLD ## SHIFT`. -/
def readData (s : State) : State :=
  let t := recvByte true s
  let u := stop (recvByte false (t.setHold t.shift))
  complete (u.setResult (joinBytes u.hold u.shift))

/-- The read phase of `RDREG` (R88): the repeated start, `AR`, its acknowledge, the data. -/
def readPhase (s : State) : State :=
  match sendAcked [readAddress s.cfg] (start s) with
  | (t, true) => abortRead t
  | (t, false) => readData t

/-- `RDREG` after its pointer phase (R88). -/
def endPointer : State × Bit → State
  | (s, true) => abortRead s
  | (s, false) => readPhase s

/-- `RDREG reg` (R88). -/
def execRdreg (reg : RegAddr) (s : State) : Host.Outcome State Fault Refusal :=
  .next (endPointer (sendAcked [writeAddress s.cfg, reg] (start s)))

end Sys2Proof.Machine
end

