-- ==== Sys2Proof/Machine/Dispatch.lean ====
section
/-! DEFINITION. Machine/Dispatch.lean: one arm per command. -/

namespace Sys2Proof.Machine

def exec (i : Instr) (s : State) : Host.Outcome State Fault Refusal :=
  match i with
  -- the bus engine (41_bus_primitives.md)
  | .start => Sys2Proof.Machine.execStart s
  | .stop => Sys2Proof.Machine.execStop s
  | .sendbyte value => Sys2Proof.Machine.execSendbyte value s
  | .waitack => Sys2Proof.Machine.execWaitack s
  | .sendack ack => Sys2Proof.Machine.execSendack ack s
  | .recvbyte ack => Sys2Proof.Machine.execRecvbyte ack s
  -- the framer (42_register_protocol.md)
  | .wrreg reg value => Sys2Proof.Machine.execWrreg reg value s
  | .rdreg reg => Sys2Proof.Machine.execRdreg reg s

end Sys2Proof.Machine
end

