-- ==== Sys2Proof/Machine/Sequencer.lean ====
section
/-! DEFINITION. Machine/Sequencer.lean: the engine one micro-operation at a time (40_pin_microops.md rule R60): `SEQ` as a
position in the pseudocode (10_state.md rule R19), with its three branches: the bit loops, the poll loop, the abort. -/

namespace Sys2Proof.Machine

/-- A primitive as a transaction calls it. -/
inductive Prim where
  | start
  | stop
  | sendByte (value : Byte)
  | waitAck
  | sendAck (ack : Bit)
  | recvByte (ack : Bit)
deriving DecidableEq, Repr

/-- The primitives a command calls, in order (R87, R88; a primitive command is itself). -/
def primitives (cfg : Config) : Instr → List Prim
  | .start => [.start]
  | .stop => [.stop]
  | .sendbyte v => [.sendByte v]
  | .waitack => [.waitAck]
  | .sendack k => [.sendAck k]
  | .recvbyte k => [.recvByte k]
  | .wrreg reg value =>
    [ .start, .sendByte (writeAddress cfg), .waitAck, .sendByte reg, .waitAck, .sendByte (highByte value), .waitAck,
      .sendByte (lowByte value), .waitAck, .stop ]
  | .rdreg reg =>
    [ .start, .sendByte (writeAddress cfg), .waitAck, .sendByte reg, .waitAck, .start, .sendByte (readAddress cfg),
      .waitAck, .recvByte true, .recvByte false, .stop ]

/-- The index in `RDREG` of its first `RECVBYTE`, whose byte goes to `HOLD` (R28, R88). -/
def highByteIndex : Nat := 8

/-- The micro-operations of a primitive's pseudocode, line by line; `shift` is `SHIFT` when the line is performed.
`SENDBYTE`: line 0, then the loop body, lines 1 to 5.  `WAITACK`: lines 0 and 1, the sample 2, the acknowledged end 3, the
delay 4, the `STOP` 5 to 10.  `RECVBYTE`: line 0, the loop body 1 to 5, the `SENDACK` 6 to 12. -/
def Prim.lines (p : Prim) (shift : Byte) : List MicroOp :=
  match p with
  | .start => startOps
  | .stop => stopOps
  | .sendByte _ => .dirOut :: sendBitOps (topBit shift)
  | .waitAck => [.dirIn, .clk true, .read, .clk false, .wait .tPoll] ++ stopOps
  | .sendAck k => sendAckOps k
  | .recvByte k => .dirIn :: (recvBitOps ++ sendAckOps k)

/-- Where the sequencer goes after a line. -/
inductive Goto where
  /-- To a line of the same primitive. -/
  | line (n : Nat)
  /-- The primitive is over. -/
  | done
  /-- `WAITACK` is over with no acknowledge. -/
  | missed
deriving DecidableEq, Repr

/-- The next line of a primitive that runs straight through `count` lines. -/
def straight (count uop : Nat) : Goto := if uop + 1 < count then .line (uop + 1) else .done

/-- What the pseudocode does between line `uop` and the next micro-operation, and where it goes. -/
def Prim.after (p : Prim) (uop : Nat) (s : State) : State × Goto :=
  match p with
  | .start => (s, straight 6 uop)
  | .stop => (s, straight 6 uop)
  | .sendAck _ => (s, straight 7 uop)
  | .sendByte v =>
    match uop with
    | 0 => ((s.setShift v).setBitcnt 8, .line 1)
    | 5 => ((s.setShift (shiftOut s.shift)).setBitcnt (s.bitcnt - 1), if s.bitcnt - 1 = 0 then .done else .line 1)
    | n => (s, .line (n + 1))
  | .waitAck =>
    match uop with
    | 1 => (s.setPollcnt 0, .line 2)
    | 2 => (s, if s.sample then .line 4 else .line 3)
    | 3 => (s, .done)
    | 4 => (s.setPollcnt (s.pollcnt + 1), if s.pollcnt + 1 = s.cfg.ackPollBound.val then .line 5 else .line 2)
    | 10 => (s, .missed)
    | n => (s, .line (n + 1))
  | .recvByte _ =>
    match uop with
    | 0 => ((s.setShift 0).setBitcnt 8, .line 1)
    | 5 =>
      ((s.setShift (shiftIn s.shift s.sample)).setBitcnt (s.bitcnt - 1), if s.bitcnt - 1 = 0 then .line 6 else .line 1)
    | n => (s, straight 13 n)

/-- The end of a command: `RESULT` by R21, then `STATUS` and `SEQ` by R98 and R101. -/
def finish (i : Instr) (missed : Bit) (s : State) : State :=
  match i, missed with
  | .recvbyte _, false => complete (s.setResult (zextByte s.shift))
  | .rdreg _, false => complete (s.setResult (joinBytes s.hold s.shift))
  | .rdreg _, true => takeFault .busAcknowledgeTimeout (s.setResult sentinel)
  | _, false => complete s
  | _, true => takeFault .busAcknowledgeTimeout s

/-- `RDREG` keeps its first received byte (R28, R88). -/
def keepHighByte (q : Seq) (s : State) : State :=
  match q.cmd with
  | .rdreg _ => if q.prim = highByteIndex then s.setHold s.shift else s
  | .start | .stop | .sendbyte _ | .waitack | .sendack _ | .recvbyte _ | .wrreg _ _ => s

/-- The primitive at `q` is over: the next one, or the end of the command. -/
def nextPrimitive (q : Seq) (s : State) : State :=
  let t := keepHighByte q s
  if q.prim + 1 < (primitives s.cfg q.cmd).length then t.setSeq (some ⟨q.cmd, q.prim + 1, 0⟩)
  else finish q.cmd false t

/-- Advance `SEQ` after the micro-operation at `q` (R19, R60). -/
def advance (q : Seq) (p : Prim) (s : State) : State :=
  match p.after q.uop s with
  | (t, .line n) => t.setSeq (some { q with uop := n })
  | (t, .done) => nextPrimitive q t
  | (t, .missed) => finish q.cmd true t

/-- The micro-operation at `q`, then the advance. -/
def performAt (q : Seq) (p : Prim) (s : State) : Host.Outcome State Fault Refusal :=
  match (p.lines s.shift)[q.uop]? with
  | none => .fault .sequencerLost
  | some op =>
    match perform op s with
    | .next t => .next (advance q p t)
    | .fault f => .fault f
    | .refused r => .refused r

/-- One engine step (R60): exactly one micro-operation of the command in progress; with none, nothing. -/
def engineStep (s : State) : Host.Outcome State Fault Refusal :=
  match s.seq with
  | none => .next s
  | some q =>
    match (primitives s.cfg q.cmd)[q.prim]? with
    | none => .fault .sequencerLost
    | some p => performAt q p s

/-- The command begins (R19, R20): `SEQ` at its first micro-operation. -/
def begin (i : Instr) (s : State) : State := s.setSeq (some ⟨i, 0, 0⟩)

/-- `n` engine steps. -/
def engineSteps : Nat → State → Host.Outcome State Fault Refusal
  | 0, s => .next s
  | n + 1, s =>
    match engineStep s with
    | .next t => engineSteps n t
    | .fault f => .fault f
    | .refused r => .refused r

end Sys2Proof.Machine
end

