-- ==== Sys2Proof/Machine/HostInterface.lean ====
section
/-! DEFINITION. Machine/HostInterface.lean: what the outside world can do (60_exceptions.md rules R96, R106; 10_state.md
rules R20 to R23; 70_reset_and_hazards.md rules R115 to R117), and the host programs of R56 and R121. -/

namespace Sys2Proof.Machine

/-- An illegal command word: no micro-operation, everything but `ERR` and `CAUSE` as before (R54, R96, R102). -/
def illegalCommand (s : State) : State := takeFault .illegalCommand s

/-- A blocking write of `CMD`: decode, then the whole command (R20, R100). -/
def runCommand (w : CmdWord) (s : State) : Host.Outcome State Fault Refusal :=
  match decode w with
  | .ok i => exec i s
  | .error _ => .next (illegalCommand s)

/-- The same write seen from the bus: the command begins (R19, R60). -/
def issueCommand (w : CmdWord) (s : State) : State :=
  match decode w with
  | .ok i => begin i s
  | .error _ => illegalCommand s

/-- A host read: `STATUS` and `RESULT` without side effect (R106); of an unwritten `RESULT` the recorded fault, with no
value, after which the engine goes on (R21, U1; log entry 10); of `CMD` refused (R20, U2). -/
def readRegister (r : HostReg) (s : State) : Host.Outcome State Fault Refusal :=
  match r with
  | .cmd => .refused .readOfCmd
  | .result =>
    match s.result with
    | some v => .next (s.addReturned (.word (resultWord v)))
    | none => .next (s.addReturned .unwrittenResult)
  | .status => .next (s.addReturned (.word (statusWord s.err s.cause)))

/-- A host write: only `CMD` can be written (R20 to R23). -/
def writeRegister (r : HostReg) (w : CmdWord) (s : State) : Host.Outcome State Fault Refusal :=
  match r with
  | .cmd => runCommand w s
  | .result | .status => .refused .writeOfReadOnly

/-- The hardware reset (R115, R116): every element of R10 takes its reset value, the trace starts empty; the slave is not
reset and the configuration stands, and so do the host's accesses. -/
def hardReset (s : State) : State :=
  { State.reset with cfg := s.cfg, slave := s.slave, pending := s.pending, returned := s.returned }

/-- One host access, taken when no command is in progress. -/
def serve (o : HostOp) (s : State) : Host.Outcome State Fault Refusal :=
  match o with
  | .write r w => writeRegister r w s
  | .issue w => .next (issueCommand w s)
  | .read r => readRegister r s
  | .reset => .next (hardReset s)

/-- The machine moves: a reset at once, even in mid-command (R116); else the command in progress by one micro-operation,
the host being blocked (R20, R133); else the host's next access; else nothing (R115).

MODEL'S CHOICE (log entry 11): the spec does not say when a reset strikes.  Here it strikes in the first step at which it
is the first of the accesses to come, so a reset listed right behind an `issue` strikes before that command's first
micro-operation; one that strikes after `k` of them is the same move from the state after `k` steps with the reset put
first in `pending` then. -/
def move (s : State) : Host.Outcome State Fault Refusal :=
  match s.pending, s.seq with
  | .reset :: rest, _ => .next (hardReset (s.setPending rest))
  | _, some _ => engineStep s
  | [], none => .next s
  | o :: rest, none => serve o (s.setPending rest)

/-- Issue commands one after another, as a host that stops at the first command that ends with `ERR = 1` (R56, R128). -/
def issueAll : List Instr → State → Host.Outcome State Fault Refusal
  | [], s => .next s
  | i :: is, s =>
    match exec i s with
    | .next t => if t.err then .next t else issueAll is t
    | .fault f => .fault f
    | .refused r => .refused r

/-- `MemWrite(reg, 2, value)`: the store view of `WRREG` (R7, R94). -/
def memWrite (reg : RegAddr) (value : Half) (s : State) : Host.Outcome State Fault Refusal := exec (.wrreg reg value) s

/-- `MemRead(reg, 2)`: the load view of `RDREG` (R7, R94); the value is in `RESULT`. -/
def memRead (reg : RegAddr) (s : State) : Host.Outcome State Fault Refusal := exec (.rdreg reg) s

/-- The boot sequence of R121 with the configuration word `word`: write it to register 0x01, read it back, compare; the
second component is success. -/
def bootSensor (word : Half) (s : State) : Host.Outcome (State × Bool) Fault Refusal :=
  match exec (.wrreg SensorReg.configuration.address word) s with
  | .next t =>
    if t.err then .next (t, false)
    else
      match exec (.rdreg SensorReg.configuration.address) t with
      | .next u => .next (u, u.result == some word)
      | .fault f => .fault f
      | .refused r => .refused r
  | .fault f => .fault f
  | .refused r => .refused r

/-- What must hold before the first command (R120 (d)): the pins as after reset, the slave not driving the line. -/
abbrev bootReady (s : State) : Prop := s.Idle ∧ s.slave.level = true

end Sys2Proof.Machine
end

