-- ==== Sys2Proof/Machine/Step.lean ====
section
/-! DEFINITION. Machine/Step.lean: the step, and placing a command word where it is fetched. -/

namespace Sys2Proof.Machine

/-- One step: from the host's side one access, a blocking command included (R20, R39); after `issue`, one micro-operation
(R60). -/
def step (s : State) : Host.Outcome State Fault Refusal := move s

/-- The state whose very next step takes the command word `w` as the host's next access: the blocking write of `CMD`
stands first among the accesses to come and no command is in progress.  The engine fetches nothing and keeps no program
(R43): the host supplies each word, and this stands for it. -/
def State.withFetchWord (s : State) (nbits w : Nat) : State :=
  (s.setPending (.write .cmd (BitVec.ofNat 32 (w % 2 ^ nbits)) :: s.pending)).setSeq none

end Sys2Proof.Machine
end

