-- ==== Sys2Proof/Machine/Wire.lean ====
section
/-! DEFINITION. Machine/Wire.lean: reading a trace: the pin state as a function of it (40_pin_microops.md rule R69), the two
disciplines (R67), the start and stop conditions the master makes (R68), the reader of the wire trace (30_encoding.md rule
R57), and the frames it should read (R49, R50, R58). -/

namespace Sys2Proof.Machine

/-- The micro-operation of a trace entry. -/
def Event.op : Event → MicroOp
  | .dirOut => .dirOut
  | .dirIn => .dirIn
  | .clk b => .clk b
  | .dat b => .dat b
  | .read _ => .read
  | .wait d => .wait d

/-! ### The pins from the trace (R69) -/

/-- The level of the last `C0`/`C1` of a trace, oldest first, or the level before it (R69). -/
def lastClock : Bit → List Event → Bit
  | b, [] => b
  | b, e :: es => lastClock (match e with | .clk c => c | .dirOut | .dirIn | .dat _ | .read _ | .wait _ => b) es

/-- The level of the last `D0`/`D1`, or the level before (R69). -/
def lastData : Bit → List Event → Bit
  | b, [] => b
  | b, e :: es => lastData (match e with | .dat c => c | .dirOut | .dirIn | .clk _ | .read _ | .wait _ => b) es

/-- The direction of the last `DI`/`DO`, or the direction before (R69). -/
def lastDir : Dir → List Event → Dir
  | d, [] => d
  | d, e :: es =>
    lastDir (match e with | .dirOut => .output | .dirIn => .input | .clk _ | .dat _ | .read _ | .wait _ => d) es

/-- The pin state after a trace entered with the pins `p` (R69). -/
def pinsAfter (p : Pins) (es : List Event) : Pins :=
  ⟨lastClock p.sclOut es, lastData p.sdaOut es, lastDir p.sdaDir es⟩

/-! ### The disciplines (R67) -/

/-- May the micro-operation be performed with the data line in this direction (R67)? -/
def Event.allowed (d : Dir) : Event → Bool
  | .dat _ => d == .output
  | .read _ => d == .input
  | .dirOut | .dirIn | .clk _ | .wait _ => true

/-- No `D0`/`D1` while the direction is `IN` and no `R` while it is `OUT`, in a trace entered with direction `d` (R67). -/
def disciplined : Dir → List Event → Bool
  | _, [] => true
  | d, e :: es => e.allowed d && disciplined (lastDir d [e]) es

/-! ### The conditions the master makes (R68) -/

/-- A start or stop condition. -/
inductive Condition where
  | start
  | stop
deriving DecidableEq, Repr

/-- The condition a micro-operation of the master makes: a change of `m_sda` while `scl_out = 1` (R68). -/
def Event.condition (p : Pins) (e : Event) : Option Condition :=
  if p.sclOut then
    match p.master, (e.op.drive p).master with
    | true, false => some .start
    | false, true => some .stop
    | _, _ => none
  else none

/-- The conditions of a trace entered with the pins `p`, each with its place in the trace, counted from `n`. -/
def conditions (p : Pins) (n : Nat) : List Event → List (Nat × Condition)
  | [] => []
  | e :: es =>
    match e.condition p with
    | some c => (n, c) :: conditions (e.op.drive p) (n + 1) es
    | none => conditions (e.op.drive p) (n + 1) es

/-- The conditions of a wire trace that follows the pair `prev`: a change of `SDA_wire` while `SCL_wire = 1` (R46),
that is in a pair with the clock high on both sides; a change at a clock edge is none (MODEL'S CHOICE, log entry 18). -/
def wireConditions (prev : Wire) (n : Nat) : List Wire → List (Nat × Condition)
  | [] => []
  | w :: ws =>
    match prev.scl && w.scl, prev.sda, w.sda with
    | true, true, false => (n, .start) :: wireConditions w (n + 1) ws
    | true, false, true => (n, .stop) :: wireConditions w (n + 1) ws
    | _, _, _ => wireConditions w (n + 1) ws

/-- The slave, whose contribution was `level` with the clock at `scl`, changes it only while `SCL_wire = 0` along a wire
trace whose first pair is the `k`-th from now (R83's premise): never where the clock is high both before and after.  It may
change it in the very pair in which the clock rises or falls (MODEL'S CHOICE, log entry 18). -/
def Oracle.quiet (o : Oracle) (scl level : Bit) (k : Nat) : List Wire → Prop
  | [] => True
  | w :: ws => (scl = true → w.scl = true → o.upcoming k = level) ∧ o.quiet w.scl (o.upcoming k) (k + 1) ws

/-! ### Delays (R138) -/

/-- The sum of the delays of a trace, in microseconds (R138). -/
def duration (cfg : Config) : List Event → Nat
  | [] => 0
  | e :: es =>
    (match e with | .wait d => delayMicros cfg d | .dirOut | .dirIn | .clk _ | .dat _ | .read _ => 0) + duration cfg es

/-! ### Reading the wire trace (R57) -/

/-- The symbols of R46. -/
inductive Symbol where
  /-- `S`. -/
  | start
  /-- `Sr`. -/
  | repeatedStart
  /-- `P`. -/
  | stop
  /-- A data bit. -/
  | bit (b : Bit)
  /-- `A`. -/
  | ack
  /-- `N`. -/
  | nack
deriving DecidableEq, Repr

/-- The reader's position in a wire trace. -/
structure Reader where
  /-- The pair before, if any. -/
  prev : Option Wire
  /-- `SDA_wire` changed in the present clock-high period. -/
  moved : Bool
  /-- An `S` came since the last `P`. -/
  inFrame : Bool
  /-- Data bits read since the last `S`, `Sr` or ninth bit. -/
  bits : Nat
  /-- The symbols read, the latest first. -/
  symbols : List Symbol
deriving DecidableEq, Repr

namespace Reader

/-- Before the first pair. -/
def fresh : Reader := ⟨none, false, false, 0, []⟩

/-- A bit: within a frame the ninth after eight data bits is `A` or `N`.  R57 groups bits only after an `S` or `Sr` and
does not say what a bit outside a frame (before any `S`, or after a `P`) reads as; MODEL'S CHOICE (log entry 17): it
reads as a plain bit and belongs to no group of nine. -/
def onBit (r : Reader) (b : Bit) : Reader :=
  if !r.inFrame then { r with symbols := .bit b :: r.symbols }
  else if r.bits = 8 then { r with bits := 0, symbols := (if b then .nack else .ack) :: r.symbols }
  else { r with bits := r.bits + 1, symbols := .bit b :: r.symbols }

/-- The data wire changed to `sda` while the clock is high. -/
def onMove (r : Reader) (sda : Bit) : Reader :=
  if sda then { r with moved := true, inFrame := false, bits := 0, symbols := .stop :: r.symbols }
  else { r with moved := true, inFrame := true, bits := 0, symbols := (if r.inFrame then .repeatedStart else .start) :: r.symbols }

/-- One pair compared with the one before it.  MODEL'S CHOICE (log entry 18): where `SDA_wire` changes in the very pair in
which the clock rises or falls, the change lies outside the clock-high period, so the bit is the level of the period
itself; R46 wants a data bit stable from before the rise until after the fall, and R57 counts only changes within the
period and does not say which such a pair is. -/
def step (r : Reader) (w : Wire) : Reader :=
  let r' :=
    match r.prev with
    | none => r
    | some p =>
      match p.scl, w.scl with
      | false, true => { r with moved := false }
      | true, true => if p.sda = w.sda then r else r.onMove w.sda
      | true, false => if r.moved then r else r.onBit p.sda
      | false, false => r
  { r' with prev := some w }

/-- Walk a wire trace. -/
def walk : Reader → List Wire → Reader
  | r, [] => r
  | r, w :: ws => walk (r.step w) ws

end Reader

/-- The symbols of a wire trace (R57), oldest first. -/
def symbolsOf (ws : List Wire) : List Symbol := (Reader.fresh.walk ws).symbols.reverse

/-! ### The invariant of a wire trace (R46, R57) -/

/-- The condition the engine's own `START` or `STOP` is meant to make at a micro-operation: the `D0` right after
`W(T_START)` and the `D1` right after `W(T_STOP)`, delays that no other primitive has (R70, R72, R137). -/
def ownCondition (before e : Event) : Option Condition :=
  match before, e with
  | .wait .tStart, .dat false => some .start
  | .wait .tStop, .dat true => some .stop
  | _, _ => none

/-- The changes of `SDA_wire`, latest first, that one clock-high period may hold: at most one (R57), and the engine's own
`P` with the `S` of its next frame, between which the clock stays high (log entry 8). -/
def periodOk : List Condition → Bool
  | [] | [_] | [.start, .stop] => true
  | _ => false

/-- A checker's position in a trace (R57). -/
structure Checker where
  /-- The entry before, if any. -/
  prev : Option Entry
  /-- The changes of `SDA_wire` in the present clock-high period, latest first. -/
  changes : List Condition
  /-- A period held more changes than it may, or an `S` or `P` was not made by the engine's own `START` or `STOP`. -/
  broken : Bool
deriving DecidableEq, Repr

namespace Checker

/-- Before the first entry. -/
def fresh : Checker := ⟨none, [], false⟩

/-- `SDA_wire` changed while the clock is high: the condition `k`, at a micro-operation where the engine's own `START` or
`STOP` makes the condition `own`, if any. -/
def onMove (c : Checker) (k : Condition) (own : Option Condition) : Checker :=
  { c with changes := k :: c.changes, broken := c.broken || own != some k || !periodOk (k :: c.changes) }

/-- One entry compared with the one before it.  MODEL'S CHOICE (log entry 18): a change of `SDA_wire` in the very pair in
which the clock rises or falls is none within the period, and is not flagged. -/
def step (c : Checker) (e : Entry) : Checker :=
  let c' :=
    match c.prev with
    | none => c
    | some p =>
      match p.wire.scl, e.wire.scl with
      | false, true => { c with changes := [] }
      | true, true =>
        match p.wire.sda, e.wire.sda with
        | true, false => c.onMove .start (ownCondition p.event e.event)
        | false, true => c.onMove .stop (ownCondition p.event e.event)
        | _, _ => c
      | _, false => c
  { c' with prev := some e }

/-- Walk a trace. -/
def walk : Checker → List Entry → Checker
  | c, [] => c
  | c, e :: es => walk (c.step e) es

end Checker

/-- A trace, oldest entry first, keeps the invariant of R46 as R57 reads it: in every clock-high period `SDA_wire` changes
at most once, but for the engine's own `P` and the `S` after it, and every `S` and `P` is made by the engine's own `START`
or `STOP`.  A slave that acknowledges in mid-poll makes an `S` of its own there and breaks it (R57, R77 (h)). -/
def keepsTimingInvariant (es : List Entry) : Bool := !(Checker.fresh.walk es).broken

/-! ### The frames (R49, R50, R58) -/

/-- Eight data bits, most-significant first (R36, R48). -/
def byteSymbols (v : Byte) : List Symbol := [7, 6, 5, 4, 3, 2, 1, 0].map fun i => Symbol.bit (v.getLsbD i)

/-- A byte and its ninth bit (R48). -/
def byteFrame (v : Byte) (ninth : Symbol) : List Symbol := byteSymbols v ++ [ninth]

/-- The write frame (R49). -/
def writeFrame (cfg : Config) (reg : RegAddr) (value : Half) : List Symbol :=
  .start :: byteFrame (writeAddress cfg) .ack ++ byteFrame reg .ack ++ byteFrame (highByte value) .ack ++
    byteFrame (lowByte value) .ack ++ [.stop]

/-- The read frame (R50). -/
def readFrame (cfg : Config) (reg : RegAddr) (value : Half) : List Symbol :=
  .start :: byteFrame (writeAddress cfg) .ack ++ byteFrame reg .ack ++
    .repeatedStart :: byteFrame (readAddress cfg) .ack ++ byteFrame (highByte value) .ack ++
    byteFrame (lowByte value) .nack ++ [.stop]

/-- The frame cut at its first acknowledge (R58, `k = 1`). -/
def unansweredFrame (cfg : Config) : List Symbol := .start :: byteFrame (writeAddress cfg) .nack ++ [.stop]

end Sys2Proof.Machine
end

