-- ==== Sys2Proof/Machine/Traces.lean ====
section
/-! DEFINITION. Machine/Traces.lean: the traces of the commands as the rules write them (41_bus_primitives.md,
42_register_protocol.md), apart from the meanings, and what it is to have performed one. -/

namespace Sys2Proof.Machine

/-- `t` comes from `s` by performing exactly the micro-operations `es`, in that order: they are appended to the trace and
nothing of the trace before is lost (R8, R60). -/
def Performed (s t : State) (es : List Event) : Prop :=
  ∃ new : List Entry, t.trace = new.reverse ++ s.trace ∧ new.map Entry.event = es

/-- As `Performed`, by the wire levels after each micro-operation (the wire trace of R8). -/
def ShowedWires (s t : State) (ws : List Wire) : Prop :=
  ∃ new : List Entry, t.trace = new.reverse ++ s.trace ∧ new.map Entry.wire = ws

/-- `DO, D1, C1, W(T_START), D0, C0` (R70). -/
def startTrace : List Event := [.dirOut, .dat true, .clk true, .wait .tStart, .dat false, .clk false]

/-- `C0, DO, D0, C1, W(T_STOP), D1` (R72). -/
def stopTrace : List Event := [.clk false, .dirOut, .dat false, .clk true, .wait .tStop, .dat true]

/-- `D(b), W(T_SU), C1, W(T_HIGH), C0` (R74). -/
def sentBit (b : Bit) : List Event := [.dat b, .wait .tSu, .clk true, .wait .tHigh, .clk false]

/-- `DO`, then the eight bits, `value[7]` first (R74). -/
def sendByteTrace (value : Byte) : List Event :=
  .dirOut :: (List.range 8).flatMap fun i => sentBit (value.getLsbD (7 - i))

/-- `j` high samples, each with its delay (R76). -/
def highSamples (j : Nat) : List Event := (List.replicate j [Event.read true, Event.wait .tPoll]).flatten

/-- `DI, C1`, `j` times `R(1), W(T_POLL)`, then `R(0), C0` (R76). -/
def ackTrace (j : Nat) : List Event := [.dirIn, .clk true] ++ highSamples j ++ [.read false, .clk false]

/-- `DI, C1`, `n` times `R(1), W(T_POLL)`, then the six of `STOP` (R76). -/
def timeoutTrace (n : Nat) : List Event := [.dirIn, .clk true] ++ highSamples n ++ stopTrace

/-- `DO, D(not ack), W(T_SU), C1, W(T_HIGH), C0, D1` (R78). -/
def sendAckTrace (ack : Bit) : List Event :=
  [.dirOut, .dat (!ack), .wait .tSu, .clk true, .wait .tHigh, .clk false, .dat true]

/-- `W(T_SU), C1, R(b), W(T_HIGH), C0` (R80). -/
def receivedBit (b : Bit) : List Event := [.wait .tSu, .clk true, .read b, .wait .tHigh, .clk false]

/-- `DI`, the eight bits of the byte received, bit 7 first, then `SENDACK` (R80). -/
def recvByteTrace (byte : Byte) (ack : Bit) : List Event :=
  (.dirIn :: (List.range 8).flatMap fun i => receivedBit (byte.getLsbD (7 - i))) ++ sendAckTrace ack

/-- Bytes sent one after another, each acknowledged after its own count of high samples (R86). -/
def ackedTrace : List (Byte × Nat) → List Event
  | [] => []
  | (b, j) :: bs => sendByteTrace b ++ ackTrace j ++ ackedTrace bs

/-- The micro-operations of `WRREG` with every acknowledge seen (R87). -/
def writeTrace (cfg : Config) (reg : RegAddr) (value : Half) (js : List Nat) : List Event :=
  startTrace ++ ackedTrace ((writeBytes cfg reg value).zip js) ++ stopTrace

/-- The micro-operations of `WRREG` that misses the acknowledge after those of `js`, at the byte `b` (R89). -/
def abortedTrace (first : List Byte) (js : List Nat) (b : Byte) (bound : Nat) : List Event :=
  startTrace ++ ackedTrace (first.zip js) ++ sendByteTrace b ++ timeoutTrace bound

/-- The micro-operations of `RDREG` up to its second acknowledge (R88). -/
def pointerTrace (cfg : Config) (reg : RegAddr) (j1 j2 : Nat) : List Event :=
  startTrace ++ ackedTrace [(writeAddress cfg, j1), (reg, j2)]

/-- The micro-operations of `RDREG` with every acknowledge seen (R88). -/
def readTrace (cfg : Config) (reg : RegAddr) (j1 j2 j3 : Nat) (hi lo : Byte) : List Event :=
  pointerTrace cfg reg j1 j2 ++ startTrace ++ ackedTrace [(readAddress cfg, j3)] ++ recvByteTrace hi true ++
    recvByteTrace lo false ++ stopTrace

/-- The micro-operations of `RDREG` that misses its third acknowledge (R88, R89). -/
def readAbortedTrace (cfg : Config) (reg : RegAddr) (j1 j2 bound : Nat) : List Event :=
  pointerTrace cfg reg j1 j2 ++ startTrace ++ sendByteTrace (readAddress cfg) ++ timeoutTrace bound

/-! ### What a scripted slave answers -/

/-- The acknowledge whose first sample is the `k`-th micro-operation from now comes after `j` high samples. -/
def Oracle.acksAt (o : Oracle) (k j : Nat) : Prop :=
  (∀ i, i < j → o.upcoming (k + 2 * i) = true) ∧ o.upcoming (k + 2 * j) = false

/-- The acknowledge whose first sample is the `k`-th micro-operation from now is missed within `bound` samples. -/
def Oracle.missesAt (o : Oracle) (k bound : Nat) : Prop := ∀ i, i < bound → o.upcoming (k + 2 * i) = true

/-- The byte a slave puts on the line when its bits are read at the micro-operations `k`, `k + 5`, …, the first being bit
7 (R36, R80). -/
def Oracle.byteAt (o : Oracle) (k : Nat) : Byte :=
  (List.range 8).foldl (fun acc i => shiftIn acc (o.upcoming (k + 5 * i))) 0

/-- Bytes sent one after another, each acknowledged: the places of the first samples follow from the counts of high
samples (R84: 45 micro-operations a byte, two more for each high sample), and each count is below the bound (R76). -/
def Oracle.acksFrom (o : Oracle) (bound : Nat) : Nat → List Nat → Prop
  | _, [] => True
  | k, j :: js => j < bound ∧ o.acksAt k j ∧ o.acksFrom bound (k + 2 * j + 45) js

end Sys2Proof.Machine
end

