-- ==== Sys2Proof/Safety.lean ====
section
/-! DEFINITION. Safety.lean: the invariant of the machine (the ranges of 10_state.md rules R17, R18, R22, R23, the position
of R19, the disciplines of 40_pin_microops.md rule R67 at every position, the canonical register space), the entry
conditions of 41_bus_primitives.md rule R82, and the slave that follows the protocol. -/

namespace Sys2Proof.Machine

/-- The direction of the data line at a line of a primitive, where the pseudocode has already set it (R67, R82). -/
def Prim.dirAt (p : Prim) (uop : Nat) : Option Dir :=
  match p with
  | .start | .sendByte _ | .sendAck _ => if uop = 0 then none else some .output
  | .stop => if uop ≤ 1 then none else some .output
  | .waitAck => if uop = 0 then none else if uop ≤ 5 then some .input else if uop = 6 then none else some .output
  | .recvByte _ => if uop = 0 then none else if uop ≤ 6 then some .input else some .output

/-- The counters at a line of a primitive: inside a bit loop a bit is left, inside the poll loop a sample is left. -/
def Prim.countersAt (p : Prim) (uop : Nat) (s : State) : Prop :=
  match p with
  | .sendByte _ | .recvByte _ => 1 ≤ uop ∧ uop ≤ 5 → 1 ≤ s.bitcnt
  | .waitAck => 2 ≤ uop ∧ uop ≤ 4 → s.pollcnt < s.cfg.ackPollBound.val
  | .start | .stop | .sendAck _ => True

/-- `SEQ` is none, or a position of the pseudocode with the line's direction and counters as the pseudocode has them. -/
def positionOk (s : State) : Prop :=
  match s.seq with
  | none => True
  | some q =>
    match (primitives s.cfg q.cmd)[q.prim]? with
    | none => False
    | some p =>
      q.uop < (p.lines s.shift).length ∧ (∀ d, p.dirAt q.uop = some d → s.pins.sdaDir = d) ∧ p.countersAt q.uop s

/-- `ERR` and `CAUSE` hold one of the three outcomes of R98; `CAUSE = 3` is never written (R23). -/
def statusOk (s : State) : Prop :=
  (s.err = false ∧ s.cause = 0) ∨ (s.err = true ∧ s.cause = 1) ∨ (s.err = true ∧ s.cause = 2)

/-- Every recorded read holds the data wire's level at that moment (R64). -/
def readsOk (s : State) : Prop := ∀ e ∈ s.trace, ∀ b, e.event = .read b → b = e.wire.sda

/-- The reference slave's register space is in canonical form and its pulse count in range. -/
def slaveOk (s : State) : Prop :=
  match s.slave with
  | .oracle _ => True
  | .sensor r => r.regs.wf = true ∧ r.n ≤ 9

/-- The invariant every step keeps. -/
def Safe (s : State) : Prop :=
  s.bitcnt ≤ 8 ∧ s.pollcnt ≤ s.cfg.ackPollBound.val ∧ statusOk s ∧ positionOk s ∧ readsOk s ∧ slaveOk s

/-- A command ended normally: `ERR = 0`, `CAUSE = 0`, `SEQ` none (R98). -/
def Ended (t : State) : Prop := t.err = false ∧ t.cause = 0 ∧ t.seq = none

/-- A command ended with BusAcknowledgeTimeout: `ERR = 1`, `CAUSE = 1`, `SEQ` none (R95, R101). -/
def TimedOut (t : State) : Prop := t.err = true ∧ t.cause = 1 ∧ t.seq = none

/-- What no command touches: the parameters (R5) and the host's side (R106). -/
def OutsideKept (s t : State) : Prop := t.cfg = s.cfg ∧ t.pending = s.pending ∧ t.returned = s.returned

/-- The registers a primitive that moves no byte and polls nothing leaves alone (R27). -/
def RegistersKept (s t : State) : Prop :=
  t.shift = s.shift ∧ t.bitcnt = s.bitcnt ∧ t.pollcnt = s.pollcnt ∧ t.hold = s.hold ∧ t.result = s.result ∧
    t.sample = s.sample

/-- What a command needs on entry for a clean wire (R82, R125, R126). -/
def cleanEntry (i : Instr) (s : State) : Prop :=
  match i with
  | .start => s.Idle ∨ s.pins.sclOut = false
  | .stop => True
  | .sendbyte _ | .waitack | .sendack _ | .recvbyte _ => s.pins.sclOut = false
  | .wrreg _ _ | .rdreg _ => s.Idle

/-- Every command of a sequence is entered clean, as far as the host goes on (it stops at `ERR = 1`, R128). -/
def entersClean : List Instr → State → Prop
  | [], _ => True
  | i :: is, s => cleanEntry i s ∧ ∀ t, exec i s = .next t → t.err = false → entersClean is t

/-- The reference slave at rest, present at the engine's address, refusing nothing, the line released. -/
def Sensor.ready (cfg : Config) (r : Sensor) : Prop :=
  r.present = true ∧ r.addr = cfg.slaveAddr ∧ r.refuse = none ∧ r.phase = .idle ∧ r.level = true ∧
    r.inFrame = false ∧ r.regs.wf = true

/-- The direction bits are those of R47. -/
def standardBits (cfg : Config) : Prop := cfg.writeBit = false ∧ cfg.readBit = true

end Sys2Proof.Machine
end

