-- ==== Sys2Proof/Certificates/Slice0/Obligations.lean ====
section
/-! DEFINITION. Certificates/Slice0/Obligations.lean: the statements for the provers. -/

open Sys2Proof Sys2Proof.Machine

/-! ### Encoding -/

/-- V18 (R51, R52): words written out from the table's encodings decode to the commands they stand for. -/
def Obligations.WrittenWordsDecode : Prop :=
  decode 0x01000000 = .ok .start ∧ decode 0x02000000 = .ok .stop ∧ decode 0x03880000 = .ok (.sendbyte 0x88) ∧
  decode 0x04000000 = .ok .waitack ∧ decode 0x05010000 = .ok (.sendack true) ∧
  decode 0x05000000 = .ok (.sendack false) ∧ decode 0x06010000 = .ok (.recvbyte true) ∧
  decode 0x1001C410 = .ok (.wrreg 0x01 0xC410) ∧ decode 0x117E0000 = .ok (.rdreg 0x7E)

/-- R51 to R53: decoding the encoding of any command gives it back, with every operand at every value. -/
def Obligations.DecodeEncodeRoundTrip : Prop := ∀ i : Instr, decode (encode i) = .ok i

/-- R52, R54: a word decodes to a command exactly when it selects that command's row of the table, it is the only row it
selects, and every word that decodes is the encoding of what it decodes to. -/
def Obligations.DecodeAcceptsExactlyTheTable : Prop :=
  ∀ w : CmdWord,
    ((∃ i, decode w = .ok i) ↔ ∃ r ∈ opcodeTable, r.selects w = true) ∧
    (∀ i, decode w = .ok i →
      encode i = w ∧ ∀ r ∈ opcodeTable, r.selects w = true → r = rowOf i)

/-! ### Reset and the step -/

/-- R26: the element values after reset that the spec gives, and that they make the engine `Idle` (R25). -/
def Obligations.ResetLeavesTheEngineIdle : Prop :=
  State.reset.pins.sclOut = true ∧ State.reset.pins.sdaOut = true ∧ State.reset.pins.sdaDir = .output ∧
  State.reset.bitcnt = 0 ∧ State.reset.pollcnt = 0 ∧ State.reset.seq = none ∧ State.reset.result = none ∧
  State.reset.err = false ∧ State.reset.cause = 0 ∧ State.reset.Idle

/-- R115, R116: a reset, at any moment, a command in progress or not, gives every element its reset value with an empty
trace, and changes neither the slave nor the parameters.  The model's choice (log entry 11): the reset is an entry of the
accesses to come, taken at once, which keeps the parameters, the other accesses and the values returned. -/
def Obligations.HardResetAtAnyMoment : Prop :=
  ∀ (s : State) (rest : List HostOp), s.pending = .reset :: rest →
    ∃ t, step s = .next t ∧ t.pins = State.reset.pins ∧ t.bitcnt = 0 ∧ t.pollcnt = 0 ∧ t.seq = none ∧
      t.result = none ∧ t.err = false ∧ t.cause = 0 ∧ t.trace = [] ∧ t.slave = s.slave ∧ t.cfg = s.cfg ∧
      t.pending = rest ∧ t.returned = s.returned

/-- R20 (derived): when no command is in progress and the host's next access is a write of `CMD` with a word that decodes,
the step is `exec` of the command it decodes to, the access taken off the list. -/
def Obligations.StepRunsTheDecodedCommand : Prop :=
  ∀ (s : State) (w : CmdWord) (rest : List HostOp) (i : Instr),
    s.seq = none → s.pending = .write .cmd w :: rest → decode w = .ok i → step s = exec i (s.setPending rest)

/-- The word placed by `withFetchWord` is the one the very next step runs. -/
def Obligations.PlacedWordRunsNext : Prop :=
  ∀ (s : State) (w : Nat) (i : Instr), decodeTableWord 32 w = some i → step (s.withFetchWord 32 w) = exec i (s.setSeq none)

/-- R96: a command word that matches no row of the table performs no micro-operation and changes nothing but `ERR` and
`CAUSE`, whether it is written as one step or seen from the bus. -/
def Obligations.IllegalWordTakesIllegalCommand : Prop :=
  ∀ (s : State) (w : CmdWord) (rest : List HostOp),
    s.seq = none → (s.pending = .write .cmd w :: rest ∨ s.pending = .issue w :: rest) →
      (∀ r ∈ opcodeTable, r.selects w = false) →
      step s = .next { s with pending := rest, err := true, cause := 2 }

/-- R20, R133: while a command is in progress the host's accesses wait, and the step is one engine step. -/
def Obligations.HostIsBlockedWhileACommandRuns : Prop :=
  ∀ (s : State) (q : Seq), s.seq = some q → (∀ rest, s.pending ≠ .reset :: rest) →
    step s = engineStep s ∧ ∀ t, step s = .next t → t.pending = s.pending ∧ t.returned = s.returned

/-- R21 to R23, R106 and U1, U2: a read of `STATUS` or of a written `RESULT` returns the register and changes nothing else;
a read of an unwritten `RESULT` is the recorded fault, gives no value, and changes nothing else (log entry 10); a read of
`CMD` is refused.  The model's choice (log entry 9): the upper half of a
read of `RESULT` is zero. -/
def Obligations.HostReadsOfTheRegisters : Prop :=
  ∀ (s : State) (rest : List HostOp), s.seq = none →
    (s.pending = .read .status :: rest →
      ∃ v, step s = .next { s with pending := rest, returned := .word v :: s.returned } ∧ v.getLsbD 0 = s.err ∧
        v.extractLsb' 1 2 = s.cause ∧ v.extractLsb' 3 29 = 0) ∧
    (∀ v : Half, s.pending = .read .result :: rest → s.result = some v →
      step s = .next { s with pending := rest, returned := .word (v.setWidth 32) :: s.returned }) ∧
    (s.pending = .read .result :: rest → s.result = none →
      step s = .next { s with pending := rest, returned := .unwrittenResult :: s.returned }) ∧
    (s.pending = .read .cmd :: rest → step s = .refused .readOfCmd)

/-- R115: with no command in progress and no access of the host, the engine does nothing. -/
def Obligations.EngineWaitsForTheHost : Prop :=
  ∀ s : State, s.seq = none → s.pending = [] → step s = .next s

/-! ### Micro-operations -/

/-- R61, R62, R63, R65: what each micro-operation that is no read does to the pins, its trace entry, and that it changes no
register, no status and no position. -/
def Obligations.MicroOperationsDriveThePins : Prop :=
  ∀ s : State,
    (∀ op, op ≠ .read → RegistersKept s (emit op s) ∧ (emit op s).err = s.err ∧ (emit op s).cause = s.cause ∧
      (emit op s).seq = s.seq ∧ OutsideKept s (emit op s)) ∧
    ((emit .dirOut s).pins = { s.pins with sdaDir := .output } ∧ (emit .dirOut s).pins.master = s.pins.sdaOut ∧
      Performed s (emit .dirOut s) [.dirOut]) ∧
    ((emit .dirIn s).pins = { s.pins with sdaDir := .input } ∧ (emit .dirIn s).pins.master = true ∧
      Performed s (emit .dirIn s) [.dirIn]) ∧
    (∀ b, (emit (.clk b) s).pins = { s.pins with sclOut := b } ∧ Performed s (emit (.clk b) s) [.clk b] ∧
      ∀ level, ((emit (.clk b) s).pins.wire level).scl = b) ∧
    (∀ b, (emit (.dat b) s).pins = { s.pins with sdaOut := b } ∧ Performed s (emit (.dat b) s) [.dat b] ∧
      (s.pins.sdaDir = .output → (emit (.dat b) s).pins.master = b)) ∧
    (∀ d, (emit (.wait d) s).pins = s.pins ∧ Performed s (emit (.wait d) s) [.wait d])

/-- R64, R14: a read changes no pin, answers `SDA_wire`, which is the slave's contribution when the direction is `IN`, and
records the answer. -/
def Obligations.ReadAnswersTheDataWire : Prop :=
  ∀ s : State, ∃ b : Bit,
    b = (s.pins.master && (emit .read s).slave.level) ∧
    (s.pins.sdaDir = .input → b = (emit .read s).slave.level) ∧
    (emit .read s).pins = s.pins ∧ Performed s (emit .read s) [.read b] ∧
    (emit .read s).shift = s.shift ∧ (emit .read s).bitcnt = s.bitcnt ∧ (emit .read s).pollcnt = s.pollcnt ∧
    (emit .read s).hold = s.hold ∧ (emit .read s).result = s.result ∧ (emit .read s).err = s.err ∧
    (emit .read s).cause = s.cause ∧ (emit .read s).seq = s.seq ∧ OutsideKept s (emit .read s)

/-- R67, U3: the sequencer refuses a drive while the direction is `IN` and a read while it is `OUT`. -/
def Obligations.SequencerRefusesMisuse : Prop :=
  ∀ s : State,
    (∀ b, s.pins.sdaDir = .input → perform (.dat b) s = .refused .driveWhileInput) ∧
    (s.pins.sdaDir = .output → perform .read s = .refused .readWhileOutput) ∧
    (∀ op, (s.pins.sdaDir = .output → op ≠ .read) → (s.pins.sdaDir = .input → ∀ b, op ≠ .dat b) →
      perform op s = .next (emit op s))

/-- R69: the pin state after any command is a function of the pin state before it and of its trace. -/
def Obligations.PinsFollowTheTrace : Prop :=
  ∀ (i : Instr) (s : State), ∃ t es,
    exec i s = .next t ∧ Performed s t es ∧ t.pins = pinsAfter s.pins es

/-- R67: in every trace of every command, entered from any state, no `D0`/`D1` occurs while the direction is `IN` and no
`R` while it is `OUT`. -/
def Obligations.CommandsKeepTheTwoDisciplines : Prop :=
  ∀ (i : Instr) (s : State), ∃ t es,
    exec i s = .next t ∧ Performed s t es ∧ disciplined s.pins.sdaDir es = true

/-! ### The six primitives -/

/-- R70: `START`, from any state: its six micro-operations, its exit state, `ERR <- 0`, and its frame. -/
def Obligations.StartMakesItsSixMicroOperations : Prop :=
  decode 0x01000000 = .ok .start ∧
  ∀ s : State, ∃ t, exec .start s = .next t ∧ Performed s t startTrace ∧ t.pins = ⟨false, false, .output⟩ ∧
    Ended t ∧ RegistersKept s t ∧ OutsideKept s t

/-- R72, R73 (a): `STOP`, from any state: its six micro-operations, `Idle` after it, and its frame. -/
def Obligations.StopLeavesTheEngineIdle : Prop :=
  decode 0x02000000 = .ok .stop ∧
  ∀ s : State, ∃ t, exec .stop s = .next t ∧ Performed s t stopTrace ∧ t.Idle ∧ Ended t ∧ RegistersKept s t ∧
    OutsideKept s t

/-- R74: `SENDBYTE value`, from any state: `DO` and the eight bits, `value[7]` first, its exit state, and its frame. -/
def Obligations.SendbyteClocksOutTheByte : Prop :=
  ∀ (value : Byte) (s : State), ∃ t,
    decode (cmdWord 0x03 value 0) = .ok (.sendbyte value) ∧
    exec (.sendbyte value) s = .next t ∧ Performed s t (sendByteTrace value) ∧
    t.pins = ⟨false, value.getLsbD 0, .output⟩ ∧ t.shift = 0 ∧ t.bitcnt = 0 ∧ Ended t ∧ t.pollcnt = s.pollcnt ∧
    t.hold = s.hold ∧ t.result = s.result ∧ t.sample = s.sample ∧ OutsideKept s t

/-- R78: `SENDACK ack`, from any state: the ninth bit low for an acknowledge, high for none, its exit state, and its
frame. -/
def Obligations.SendackDrivesTheNinthBit : Prop :=
  ∀ (ack : Bit) (s : State), ∃ t,
    decode (if ack then 0x05010000 else 0x05000000) = .ok (.sendack ack) ∧
    exec (.sendack ack) s = .next t ∧ Performed s t (sendAckTrace ack) ∧ t.pins = ⟨false, true, .output⟩ ∧ Ended t ∧
    RegistersKept s t ∧ OutsideKept s t

/-- R80: `RECVBYTE ack`, from any state and for any slave: some byte is read bit by bit, bit 7 first, `RESULT` is that byte
with zeros above, and the ninth bit is sent. -/
def Obligations.RecvbyteClocksInAByte : Prop :=
  ∀ (ack : Bit) (s : State), ∃ t byte,
    decode (if ack then 0x06010000 else 0x06000000) = .ok (.recvbyte ack) ∧
    exec (.recvbyte ack) s = .next t ∧ Performed s t (recvByteTrace byte ack) ∧
    t.result = some ((0 : Byte) ++ byte) ∧ t.shift = byte ∧ t.bitcnt = 0 ∧ t.pins = ⟨false, true, .output⟩ ∧ Ended t ∧
    t.pollcnt = s.pollcnt ∧ t.hold = s.hold ∧ OutsideKept s t

/-- R80 (derived): the byte `RECVBYTE` puts in `RESULT` is the one the slave puts on the line at its eight samples. -/
def Obligations.RecvbyteReadsTheSlavesBits : Prop :=
  ∀ (ack : Bit) (s : State) (o : Oracle), s.slave = .oracle o →
    ∃ t, exec (.recvbyte ack) s = .next t ∧ t.result = some ((0 : Byte) ++ o.byteAt 3) ∧ Ended t ∧
      ∀ m, m < 8 → (o.byteAt 3).getLsbD (7 - m) = o.upcoming (3 + 5 * m)

/-- R76, R84: `WAITACK`, from any state and for any slave: either an acknowledge after some `j` high samples below the
bound, or the bound of high samples, the stop, and the fault. -/
def Obligations.WaitackAcknowledgesOrTimesOut : Prop :=
  decode 0x04000000 = .ok .waitack ∧
  ∀ s : State, ∃ t, exec .waitack s = .next t ∧
    ((∃ j, j < s.cfg.ackPollBound.val ∧ Performed s t (ackTrace j) ∧ Ended t ∧ t.pollcnt = j ∧
        t.pins = ⟨false, s.pins.sdaOut, .input⟩) ∨
      (Performed s t (timeoutTrace s.cfg.ackPollBound.val) ∧ TimedOut t ∧ t.Idle ∧
        t.pollcnt = s.cfg.ackPollBound.val)) ∧
    t.shift = s.shift ∧ t.bitcnt = s.bitcnt ∧ t.hold = s.hold ∧ t.result = s.result ∧ OutsideKept s t

/-- R76 (derived): `WAITACK` completes without error when the slave pulls the line low at a sample within the bound. -/
def Obligations.WaitackSeesTheAcknowledge : Prop :=
  ∀ (s : State) (o : Oracle) (j : Nat), s.slave = .oracle o → j < s.cfg.ackPollBound.val → o.acksAt 2 j →
    ∃ t, exec .waitack s = .next t ∧ Performed s t (ackTrace j) ∧ Ended t ∧ t.pollcnt = j ∧
      t.pins = ⟨false, s.pins.sdaOut, .input⟩ ∧ t.shift = s.shift ∧ t.bitcnt = s.bitcnt ∧ t.hold = s.hold ∧
      t.result = s.result ∧ OutsideKept s t

/-- R95, R101, R102: `WAITACK` takes BusAcknowledgeTimeout when every sample it may take reads high: the stop is made, the
engine is `Idle`, `ERR = 1`, `CAUSE = 1`. -/
def Obligations.WaitackTakesTheTimeout : Prop :=
  ∀ (s : State) (o : Oracle), s.slave = .oracle o → o.missesAt 2 s.cfg.ackPollBound.val →
    ∃ t, exec .waitack s = .next t ∧ Performed s t (timeoutTrace s.cfg.ackPollBound.val) ∧ TimedOut t ∧ t.Idle ∧
      t.pollcnt = s.cfg.ackPollBound.val ∧ t.shift = s.shift ∧ t.bitcnt = s.bitcnt ∧ t.hold = s.hold ∧
      t.result = s.result ∧ OutsideKept s t

/-- R84: the number of micro-operations of each primitive. -/
def Obligations.StepCountsOfThePrimitives : Prop :=
  ∀ (s : State) (value : Byte) (ack : Bit),
    (∃ t, exec .start s = .next t ∧ t.trace.length = s.trace.length + 6) ∧
    (∃ t, exec .stop s = .next t ∧ t.trace.length = s.trace.length + 6) ∧
    (∃ t, exec (.sendbyte value) s = .next t ∧ t.trace.length = s.trace.length + 41) ∧
    (∃ t, exec (.sendack ack) s = .next t ∧ t.trace.length = s.trace.length + 7) ∧
    (∃ t, exec (.recvbyte ack) s = .next t ∧ t.trace.length = s.trace.length + 48) ∧
    (∃ t, exec .waitack s = .next t ∧
      ((t.err = false ∧ t.pollcnt < s.cfg.ackPollBound.val ∧
          t.trace.length = s.trace.length + (2 * t.pollcnt + 4)) ∨
        (t.err = true ∧ t.trace.length = s.trace.length + (2 * s.cfg.ackPollBound.val + 8))))

/-- R138: the durations of the primitives, as sums of delays. -/
def Obligations.DurationsOfThePrimitives : Prop :=
  ∀ (s : State) (value : Byte) (ack : Bit),
    (∃ t es, exec .start s = .next t ∧ Performed s t es ∧ duration s.cfg es = s.cfg.tStart.toNat) ∧
    (∃ t es, exec .stop s = .next t ∧ Performed s t es ∧ duration s.cfg es = s.cfg.tStop.toNat) ∧
    (∃ t es, exec (.sendbyte value) s = .next t ∧ Performed s t es ∧
      duration s.cfg es = 8 * (s.cfg.tSu.toNat + s.cfg.tHigh.toNat)) ∧
    (∃ t es, exec (.sendack ack) s = .next t ∧ Performed s t es ∧
      duration s.cfg es = s.cfg.tSu.toNat + s.cfg.tHigh.toNat) ∧
    (∃ t es, exec (.recvbyte ack) s = .next t ∧ Performed s t es ∧
      duration s.cfg es = 9 * (s.cfg.tSu.toNat + s.cfg.tHigh.toNat)) ∧
    (∃ t es, exec .waitack s = .next t ∧ Performed s t es ∧
      ((t.err = false ∧ duration s.cfg es = t.pollcnt * s.cfg.tPoll.toNat) ∨
        (t.err = true ∧
          duration s.cfg es = s.cfg.ackPollBound.val * s.cfg.tPoll.toNat + s.cfg.tStop.toNat)))

/-! ### The two transactions -/

/-- R87 (derived for a scripted slave): `WRREG` completes when each of its four acknowledges comes within the bound: the
start, the four bytes, the stop; success; `RESULT` and `HOLD` unchanged. -/
def Obligations.WrregCompletesWhenAcknowledged : Prop :=
  ∀ (s : State) (o : Oracle) (reg : RegAddr) (value : Half) (j1 j2 j3 j4 : Nat),
    s.slave = .oracle o → o.acksFrom s.cfg.ackPollBound.val 49 [j1, j2, j3, j4] →
    ∃ t, exec (.wrreg reg value) s = .next t ∧ Performed s t (writeTrace s.cfg reg value [j1, j2, j3, j4]) ∧
      Ended t ∧ t.Idle ∧ t.result = s.result ∧ t.hold = s.hold ∧ t.pollcnt = j4 ∧ t.shift = 0 ∧ t.bitcnt = 0 ∧
      OutsideKept s t

/-- R87, R89: `WRREG`, from any state and for any slave: either every acknowledge is seen and the write frame is complete,
or the first missing one ends it with the one stop inside `WAITACK`; `Idle` after either; `RESULT` never written. -/
def Obligations.WrregSucceedsOrAborts : Prop :=
  ∀ (s : State) (reg : RegAddr) (value : Half), ∃ t js,
    exec (.wrreg reg value) s = .next t ∧ (∀ j ∈ js, j < s.cfg.ackPollBound.val) ∧
    ((js.length = 4 ∧ Performed s t (writeTrace s.cfg reg value js) ∧ Ended t ∧ js.getLast? = some t.pollcnt) ∨
      (∃ b, js.length < 4 ∧ (writeBytes s.cfg reg value)[js.length]? = some b ∧
        Performed s t (abortedTrace (writeBytes s.cfg reg value) js b s.cfg.ackPollBound.val) ∧ TimedOut t ∧
        t.pollcnt = s.cfg.ackPollBound.val)) ∧
    t.Idle ∧ t.result = s.result ∧ t.hold = s.hold ∧ t.shift = 0 ∧ t.bitcnt = 0 ∧ OutsideKept s t

/-- R89 (derived for a scripted slave): `WRREG` aborts at the first missing acknowledge, after `js.length` seen ones. -/
def Obligations.WrregAbortsAtTheMissingAcknowledge : Prop :=
  ∀ (s : State) (o : Oracle) (reg : RegAddr) (value : Half) (js : List Nat) (b : Byte),
    s.slave = .oracle o → (writeBytes s.cfg reg value)[js.length]? = some b →
    o.acksFrom s.cfg.ackPollBound.val 49 js →
    o.missesAt (49 + 45 * js.length + 2 * js.sum) s.cfg.ackPollBound.val →
    ∃ t, exec (.wrreg reg value) s = .next t ∧
      Performed s t (abortedTrace (writeBytes s.cfg reg value) js b s.cfg.ackPollBound.val) ∧ TimedOut t ∧ t.Idle ∧
      t.result = s.result

/-- R88 (derived for a scripted slave): `RDREG` completes when each of its three acknowledges comes within the bound, and
`RESULT` is the two bytes the slave puts on the line, high byte first. -/
def Obligations.RdregReturnsTheSlavesBytes : Prop :=
  ∀ (s : State) (o : Oracle) (reg : RegAddr) (j1 j2 j3 : Nat),
    s.slave = .oracle o → o.acksFrom s.cfg.ackPollBound.val 49 [j1, j2] →
    o.acksFrom s.cfg.ackPollBound.val (145 + 2 * (j1 + j2)) [j3] →
    ∃ t, exec (.rdreg reg) s = .next t ∧
      t.result = some (o.byteAt (150 + 2 * (j1 + j2 + j3)) ++ o.byteAt (198 + 2 * (j1 + j2 + j3))) ∧
      Performed s t (readTrace s.cfg reg j1 j2 j3 (o.byteAt (150 + 2 * (j1 + j2 + j3)))
        (o.byteAt (198 + 2 * (j1 + j2 + j3)))) ∧
      Ended t ∧ t.Idle ∧ t.hold = o.byteAt (150 + 2 * (j1 + j2 + j3)) ∧
      t.shift = o.byteAt (198 + 2 * (j1 + j2 + j3)) ∧ t.pollcnt = j3 ∧ t.bitcnt = 0 ∧ OutsideKept s t

/-- R88, R89, R90: `RDREG`, from any state and for any slave: either the three acknowledges are seen and `RESULT` is the
two bytes received, `ERR = 0`; or one is missed and `RESULT` is the sentinel, `ERR = 1`; `Idle` after either. -/
def Obligations.RdregReturnsDataOrTheSentinel : Prop :=
  ∀ (s : State) (reg : RegAddr), ∃ t, exec (.rdreg reg) s = .next t ∧
    ((∃ j1 j2 j3 hi lo, j1 < s.cfg.ackPollBound.val ∧ j2 < s.cfg.ackPollBound.val ∧ j3 < s.cfg.ackPollBound.val ∧
        Performed s t (readTrace s.cfg reg j1 j2 j3 hi lo) ∧ t.result = some (hi ++ lo) ∧ t.hold = hi ∧ t.shift = lo ∧
        t.pollcnt = j3 ∧ Ended t) ∨
      (∃ js b, js.length < 2 ∧ (∀ j ∈ js, j < s.cfg.ackPollBound.val) ∧
        [writeAddress s.cfg, reg][js.length]? = some b ∧
        Performed s t (abortedTrace [writeAddress s.cfg, reg] js b s.cfg.ackPollBound.val) ∧
        t.result = some 0xFFFF ∧ t.hold = s.hold ∧ t.shift = 0 ∧ t.pollcnt = s.cfg.ackPollBound.val ∧ TimedOut t) ∨
      (∃ j1 j2, j1 < s.cfg.ackPollBound.val ∧ j2 < s.cfg.ackPollBound.val ∧
        Performed s t (readAbortedTrace s.cfg reg j1 j2 s.cfg.ackPollBound.val) ∧
        t.result = some 0xFFFF ∧ t.hold = s.hold ∧ t.shift = 0 ∧ t.pollcnt = s.cfg.ackPollBound.val ∧ TimedOut t)) ∧
    t.Idle ∧ t.bitcnt = 0 ∧ OutsideKept s t

/-- R89, R93: `RDREG` aborts with the sentinel when its third acknowledge is missed (scripted slave). -/
def Obligations.RdregAbortsAtTheReadAddress : Prop :=
  ∀ (s : State) (o : Oracle) (reg : RegAddr) (j1 j2 : Nat),
    s.slave = .oracle o → o.acksFrom s.cfg.ackPollBound.val 49 [j1, j2] →
    o.missesAt (145 + 2 * (j1 + j2)) s.cfg.ackPollBound.val →
    ∃ t, exec (.rdreg reg) s = .next t ∧ t.result = some 0xFFFF ∧ TimedOut t ∧ t.Idle ∧
      t.trace.length = s.trace.length + (151 + 2 * (j1 + j2) + 2 * s.cfg.ackPollBound.val)

/-- R130: on a data line held low a read completes without error, with the value 0, and the data wire never rises. -/
def Obligations.StuckLineReadsZeroWithoutError : Prop :=
  ∀ (s : State) (o : Oracle) (reg : RegAddr), s.slave = .oracle o → (∀ k, k < 249 → o.upcoming k = false) →
    ∃ t ws, exec (.rdreg reg) s = .next t ∧ Ended t ∧ t.result = some 0 ∧ ShowedWires s t ws ∧ ws.length = 249 ∧
      ∀ w ∈ ws, w.sda = false

/-- R68, R83: the conditions the master itself makes.  From a clean entry each primitive makes no start or stop condition
but the one `START` and the one `STOP` are meant to make; `WRREG` from `Idle` makes one start condition, by the `D0` of its
`START`, and one stop condition, by its last micro-operation, whatever the slave does; `RDREG` the same, with at most one
more start condition, between them. -/
def Obligations.OnlyStartAndStopMakeConditions : Prop :=
  ∀ (i : Instr) (s : State), cleanEntry i s → ∃ t es,
    exec i s = .next t ∧ Performed s t es ∧
    match i with
    | .start => conditions s.pins 0 es = [(4, .start)]
    | .stop => conditions s.pins 0 es = [(5, .stop)]
    | .sendbyte _ | .sendack _ | .recvbyte _ => conditions s.pins 0 es = []
    | .waitack =>
      (t.err = false ∧ conditions s.pins 0 es = []) ∨
        (t.err = true ∧ conditions s.pins 0 es = [(es.length - 1, .stop)])
    | .wrreg _ _ => conditions s.pins 0 es = [(4, .start), (es.length - 1, .stop)]
    | .rdreg _ =>
      conditions s.pins 0 es = [(4, .start), (es.length - 1, .stop)] ∨
        ∃ k, 4 < k ∧ k < es.length - 1 ∧ conditions s.pins 0 es = [(4, .start), (k, .start), (es.length - 1, .stop)]

/-- R83 (derived): when the slave keeps its contribution wherever the clock is high both before and after a
micro-operation, every start or stop condition on the wire, at any command entered from any state, is one the master makes
at that micro-operation.  The model's choice (log entry 18): the premise lets the slave move at a clock edge, and a change
of the data wire in the very pair in which the clock rises or falls is counted as no condition. -/
def Obligations.QuietSlaveAddsNoCondition : Prop :=
  ∀ (i : Instr) (s : State) (o : Oracle), s.slave = .oracle o → ∃ t es ws,
    exec i s = .next t ∧ Performed s t es ∧ ShowedWires s t ws ∧
    (o.quiet s.pins.sclOut o.level 0 ws →
      ∀ c ∈ wireConditions (s.pins.wire o.level) 0 ws, c ∈ conditions s.pins 0 es)

/-- R98: a word that is no command ends with `ERR = 1`, `CAUSE = 2`; every command ends with `SEQ` none and one of two
outcomes, and only `WAITACK`, `WRREG` and `RDREG` can end with the fault; after the fault the engine is `Idle` (R102) and
`RDREG` has written the sentinel (R89). -/
def Obligations.StatusAfterEveryCommand : Prop :=
  (∀ (w : CmdWord) (s : State), (∀ r ∈ opcodeTable, r.selects w = false) →
    ∃ t, runCommand w s = .next t ∧ t.err = true ∧ t.cause = 2) ∧
  ∀ (i : Instr) (s : State), ∃ t, exec i s = .next t ∧
    (Ended t ∨
      (TimedOut t ∧ t.Idle ∧ t.pollcnt = s.cfg.ackPollBound.val ∧
        match i with
        | .waitack | .wrreg _ _ => t.result = s.result
        | .rdreg _ => t.result = some 0xFFFF
        | .start | .stop | .sendbyte _ | .sendack _ | .recvbyte _ => False))

/-- R27: who writes what: `RESULT` only `RECVBYTE` and `RDREG`; `HOLD` only `RDREG`; `POLLCNT` only the commands that wait
for an acknowledge; `SHIFT` and `BITCNT` only those that move a byte; the parameters and the host's side nobody. -/
def Obligations.EachCommandWritesOnlyItsRegisters : Prop :=
  ∀ (i : Instr) (s : State), ∃ t, exec i s = .next t ∧ OutsideKept s t ∧
    match i with
    | .start | .stop | .sendack _ => RegistersKept s t
    | .sendbyte _ => t.pollcnt = s.pollcnt ∧ t.hold = s.hold ∧ t.result = s.result
    | .waitack => t.shift = s.shift ∧ t.bitcnt = s.bitcnt ∧ t.hold = s.hold ∧ t.result = s.result
    | .recvbyte _ => t.pollcnt = s.pollcnt ∧ t.hold = s.hold
    | .wrreg _ _ => t.hold = s.hold ∧ t.result = s.result
    | .rdreg _ => True

/-! ### The reference slave (95_test_vectors.md section 2; test E6) -/

/-- E6, P1: with the reference slave at rest, `WRREG` reports success, the slave's register holds the value and every other
register reads as before, the slave is at rest again, and the wire reads as the write frame (R49). -/
def Obligations.SensorStoresWhatIsWritten : Prop :=
  ∀ (s : State) (r : Sensor) (reg : RegAddr) (value : Half),
    s.Idle → s.slave = .sensor r → r.ready s.cfg → standardBits s.cfg →
    ∃ t r' ws, exec (.wrreg reg value) s = .next t ∧ Ended t ∧ t.Idle ∧ t.slave = .sensor r' ∧ r'.ready s.cfg ∧
      r'.regs.read reg = value ∧ (∀ a, a ≠ reg → r'.regs.read a = r.regs.read a) ∧
      ShowedWires s t ws ∧ symbolsOf ws = writeFrame s.cfg reg value

/-- E6: with the reference slave at rest, `RDREG` returns exactly the register's value, every register of the slave reads
as before, the slave is at rest again, and the wire reads as the read frame (R50). -/
def Obligations.SensorReturnsWhatItHolds : Prop :=
  ∀ (s : State) (r : Sensor) (reg : RegAddr),
    s.Idle → s.slave = .sensor r → r.ready s.cfg → standardBits s.cfg →
    ∃ t r' ws, exec (.rdreg reg) s = .next t ∧ Ended t ∧ t.Idle ∧ t.result = some (r.regs.read reg) ∧
      t.slave = .sensor r' ∧ r'.ready s.cfg ∧ r'.regs = r.regs ∧ ShowedWires s t ws ∧
      symbolsOf ws = readFrame s.cfg reg (r.regs.read reg)

/-- The frame of the sensor register space: a micro-operation changes no register of the reference slave but one: the
falling clock edge that ends the acknowledge pulse of a low byte stores that byte, with the high byte before it, in the
register at the pointer, and leaves every other register alone. -/
def Obligations.RegistersChangeOnlyByACompletedWrite : Prop :=
  ∀ (op : MicroOp) (s : State) (r : Sensor), s.slave = .sensor r → ∃ r', (emit op s).slave = .sensor r' ∧
    ((op = .clk false ∧ s.pins.sclOut = true ∧ r.present = true ∧ r.phase = .rxLo ∧ r.n = 9 →
        r'.regs.read r.ptr = r.hi ++ r.sh ∧ ∀ a, a ≠ r.ptr → r'.regs.read a = r.regs.read a) ∧
      (¬ (op = .clk false ∧ s.pins.sclOut = true ∧ r.present = true ∧ r.phase = .rxLo ∧ r.n = 9) → r'.regs = r.regs))

/-- R121: with the reference slave at rest, the boot sequence with any configuration word succeeds and leaves the word in
register 0x01. -/
def Obligations.BootSequenceSucceedsOnTheSensor : Prop :=
  ∀ (s : State) (r : Sensor) (word : Half),
    s.Idle → s.slave = .sensor r → r.ready s.cfg → standardBits s.cfg →
    ∃ t r', bootSensor word s = .next (t, true) ∧ t.Idle ∧ t.slave = .sensor r' ∧ r'.regs.read 0x01 = word

/-- R121: the boot sequence reports success only if the write was acknowledged and the read-back equals the word. -/
def Obligations.BootSequenceReportsTheReadBack : Prop :=
  ∀ (word : Half) (s t : State) (ok : Bool), bootSensor word s = .next (t, ok) →
    (ok = true ↔ ∃ u, exec (.wrreg 0x01 word) s = .next u ∧ u.err = false ∧ exec (.rdreg 0x01) u = .next t ∧
      t.result = some word)

/-! ### Whole-machine statements -/

/-- R56: a pseudo-command's expansion, issued as primitives by a host that stops at the first `ERR = 1`, performs
micro-operation for micro-operation what its transaction performs, on the same wire, against any slave, and ends with the
same pins and the same `ERR`. -/
def Obligations.ExpansionsEqualTheirTransactions : Prop :=
  ∀ (p : Pseudo) (s : State), ∃ t u,
    issueAll (expand s.cfg p) s = .next t ∧ exec (transactionOf p) s = .next u ∧
    t.trace = u.trace ∧ t.pins = u.pins ∧ t.slave = u.slave ∧ t.err = u.err ∧ t.cause = u.cause

/-- R125 to R128 (derived): a well-formed host sequence, issued from `Idle` by a host that stops at `ERR = 1`, enters every
command clean and leaves the engine `Idle`, whatever the slave does. -/
def Obligations.WellFormedSequencesEndIdle : Prop :=
  ∀ (is : List Instr) (s : State), s.Idle → wellFormedSequence s.cfg is = true →
    entersClean is s ∧ ∃ t, issueAll is s = .next t ∧ t.Idle

/-- R60, R19: the engine one micro-operation at a time, from a command's first position, reaches exactly the state the
command's meaning gives, in as many steps as the trace grew by, never refused and never lost. -/
def Obligations.EngineStepsReachTheCommandsState : Prop :=
  ∀ (i : Instr) (s : State), ∃ n t,
    exec i s = .next t ∧ t.trace.length = s.trace.length + n ∧ engineSteps n (begin i s) = .next t

/-- R60: an engine step with a command in progress appends exactly one entry to the trace. -/
def Obligations.EngineStepIsOneMicroOperation : Prop :=
  ∀ (s t : State) (q : Seq), s.seq = some q → engineStep s = .next t →
    ∃ e, Performed s t [e] ∧ t.pins = pinsAfter s.pins [e] ∧ t.cfg = s.cfg

/-- The invariant holds after reset. -/
def Obligations.ResetIsSafe : Prop := Safe State.reset

/-- R17, R18, R19, R23, R64, R67: every step keeps the invariant. -/
def Obligations.StepKeepsSafe : Prop := ∀ s t : State, Safe s → step s = .next t → Safe t

/-- R67, R133 (derived): in a state that meets the invariant, with a command in progress, the step is never refused and
never a fault: the drive while input, the read while output and the lost position do not arise. -/
def Obligations.SafeEngineIsNeverStopped : Prop :=
  ∀ (s : State) (q : Seq), Safe s → s.seq = some q → ∃ t, step s = .next t

/-- R134, V29 (a false variant, to be refuted): `RDREG` with `ERR = 0` never leaves the sentinel in `RESULT`. -/
def Obligations.ReadWithoutErrorIsNeverTheSentinel : Prop :=
  ∀ (s t : State) (reg : RegAddr), exec (.rdreg reg) s = .next t → t.err = false → t.result ≠ some 0xFFFF

/-- R57, R83 (derived): when the slave keeps its contribution wherever the clock is high both before and after a
micro-operation, the entries of every command entered clean keep the timing invariant: no start or stop condition but the
engine's own, and no clock-high period with more changes than it may have.  The model's choices: the premise lets the slave
move at a clock edge, and a change of the data wire in the very pair in which the clock rises or falls breaks nothing (log
entry 18); which conditions are the engine's own, and that its `P` and the next `S` may share a period (log entry 8). -/
def Obligations.TimingInvariantHoldsForAQuietSlave : Prop :=
  ∀ (i : Instr) (s : State) (o : Oracle), s.slave = .oracle o → cleanEntry i s → ∃ t new,
    exec i s = .next t ∧ t.trace = new.reverse ++ s.trace ∧
    (o.quiet s.pins.sclOut o.level 0 (new.map Entry.wire) → keepsTimingInvariant new = true)

/-- R57, R83, E6 (derived): with the reference slave at rest, the entries of each transaction keep the timing invariant.
The model's choices: the fixture's settlements (log entries 6 and 7), which conditions are the engine's own and the shared
period of `P` and `S` (log entry 8), and a change of the data wire at a clock edge, as the fixture makes at falls, breaks
nothing (log entry 18). -/
def Obligations.TransactionsOnTheSensorKeepTheTimingInvariant : Prop :=
  ∀ (s : State) (r : Sensor) (reg : RegAddr) (value : Half),
    s.Idle → s.slave = .sensor r → r.ready s.cfg → standardBits s.cfg →
    (∃ t new, exec (.wrreg reg value) s = .next t ∧ t.trace = new.reverse ++ s.trace ∧
      keepsTimingInvariant new = true) ∧
    ∃ t new, exec (.rdreg reg) s = .next t ∧ t.trace = new.reverse ++ s.trace ∧ keepsTimingInvariant new = true
end

