-- ==== Sys2Proof/Laws/State.lean ====
section
/-! SUPPORT. Laws/State.lean: one lemma per field per setter, so that no proof unfolds a record update. -/

namespace Sys2Proof.Machine.State

variable (s : State)

@[simp] theorem setLine_pins (p : Pins) (v : Slave) (b : Bit) (e : Entry) : (s.setLine p v b e).pins = p := rfl
@[simp] theorem setLine_shift (p : Pins) (v : Slave) (b : Bit) (e : Entry) : (s.setLine p v b e).shift = s.shift := rfl
@[simp] theorem setLine_bitcnt (p : Pins) (v : Slave) (b : Bit) (e : Entry) : (s.setLine p v b e).bitcnt = s.bitcnt := rfl
@[simp] theorem setLine_pollcnt (p : Pins) (v : Slave) (b : Bit) (e : Entry) : (s.setLine p v b e).pollcnt = s.pollcnt := rfl
@[simp] theorem setLine_seq (p : Pins) (v : Slave) (b : Bit) (e : Entry) : (s.setLine p v b e).seq = s.seq := rfl
@[simp] theorem setLine_hold (p : Pins) (v : Slave) (b : Bit) (e : Entry) : (s.setLine p v b e).hold = s.hold := rfl
@[simp] theorem setLine_result (p : Pins) (v : Slave) (b : Bit) (e : Entry) : (s.setLine p v b e).result = s.result := rfl
@[simp] theorem setLine_err (p : Pins) (v : Slave) (b : Bit) (e : Entry) : (s.setLine p v b e).err = s.err := rfl
@[simp] theorem setLine_cause (p : Pins) (v : Slave) (b : Bit) (e : Entry) : (s.setLine p v b e).cause = s.cause := rfl
@[simp] theorem setLine_cfg (p : Pins) (v : Slave) (b : Bit) (e : Entry) : (s.setLine p v b e).cfg = s.cfg := rfl
@[simp] theorem setLine_sample (p : Pins) (v : Slave) (b : Bit) (e : Entry) : (s.setLine p v b e).sample = b := rfl
@[simp] theorem setLine_slave (p : Pins) (v : Slave) (b : Bit) (e : Entry) : (s.setLine p v b e).slave = v := rfl
@[simp] theorem setLine_pending (p : Pins) (v : Slave) (b : Bit) (e : Entry) : (s.setLine p v b e).pending = s.pending := rfl
@[simp] theorem setLine_returned (p : Pins) (v : Slave) (b : Bit) (e : Entry) : (s.setLine p v b e).returned = s.returned := rfl
@[simp] theorem setLine_trace (p : Pins) (v : Slave) (b : Bit) (e : Entry) : (s.setLine p v b e).trace = e :: s.trace := rfl

@[simp] theorem setShift_pins (v : Byte) : (s.setShift v).pins = s.pins := rfl
@[simp] theorem setShift_shift (v : Byte) : (s.setShift v).shift = v := rfl
@[simp] theorem setShift_bitcnt (v : Byte) : (s.setShift v).bitcnt = s.bitcnt := rfl
@[simp] theorem setShift_pollcnt (v : Byte) : (s.setShift v).pollcnt = s.pollcnt := rfl
@[simp] theorem setShift_seq (v : Byte) : (s.setShift v).seq = s.seq := rfl
@[simp] theorem setShift_hold (v : Byte) : (s.setShift v).hold = s.hold := rfl
@[simp] theorem setShift_result (v : Byte) : (s.setShift v).result = s.result := rfl
@[simp] theorem setShift_err (v : Byte) : (s.setShift v).err = s.err := rfl
@[simp] theorem setShift_cause (v : Byte) : (s.setShift v).cause = s.cause := rfl
@[simp] theorem setShift_cfg (v : Byte) : (s.setShift v).cfg = s.cfg := rfl
@[simp] theorem setShift_sample (v : Byte) : (s.setShift v).sample = s.sample := rfl
@[simp] theorem setShift_slave (v : Byte) : (s.setShift v).slave = s.slave := rfl
@[simp] theorem setShift_pending (v : Byte) : (s.setShift v).pending = s.pending := rfl
@[simp] theorem setShift_returned (v : Byte) : (s.setShift v).returned = s.returned := rfl
@[simp] theorem setShift_trace (v : Byte) : (s.setShift v).trace = s.trace := rfl

@[simp] theorem setBitcnt_pins (n : Nat) : (s.setBitcnt n).pins = s.pins := rfl
@[simp] theorem setBitcnt_shift (n : Nat) : (s.setBitcnt n).shift = s.shift := rfl
@[simp] theorem setBitcnt_bitcnt (n : Nat) : (s.setBitcnt n).bitcnt = n := rfl
@[simp] theorem setBitcnt_pollcnt (n : Nat) : (s.setBitcnt n).pollcnt = s.pollcnt := rfl
@[simp] theorem setBitcnt_seq (n : Nat) : (s.setBitcnt n).seq = s.seq := rfl
@[simp] theorem setBitcnt_hold (n : Nat) : (s.setBitcnt n).hold = s.hold := rfl
@[simp] theorem setBitcnt_result (n : Nat) : (s.setBitcnt n).result = s.result := rfl
@[simp] theorem setBitcnt_err (n : Nat) : (s.setBitcnt n).err = s.err := rfl
@[simp] theorem setBitcnt_cause (n : Nat) : (s.setBitcnt n).cause = s.cause := rfl
@[simp] theorem setBitcnt_cfg (n : Nat) : (s.setBitcnt n).cfg = s.cfg := rfl
@[simp] theorem setBitcnt_sample (n : Nat) : (s.setBitcnt n).sample = s.sample := rfl
@[simp] theorem setBitcnt_slave (n : Nat) : (s.setBitcnt n).slave = s.slave := rfl
@[simp] theorem setBitcnt_pending (n : Nat) : (s.setBitcnt n).pending = s.pending := rfl
@[simp] theorem setBitcnt_returned (n : Nat) : (s.setBitcnt n).returned = s.returned := rfl
@[simp] theorem setBitcnt_trace (n : Nat) : (s.setBitcnt n).trace = s.trace := rfl

@[simp] theorem setPollcnt_pins (n : Nat) : (s.setPollcnt n).pins = s.pins := rfl
@[simp] theorem setPollcnt_shift (n : Nat) : (s.setPollcnt n).shift = s.shift := rfl
@[simp] theorem setPollcnt_bitcnt (n : Nat) : (s.setPollcnt n).bitcnt = s.bitcnt := rfl
@[simp] theorem setPollcnt_pollcnt (n : Nat) : (s.setPollcnt n).pollcnt = n := rfl
@[simp] theorem setPollcnt_seq (n : Nat) : (s.setPollcnt n).seq = s.seq := rfl
@[simp] theorem setPollcnt_hold (n : Nat) : (s.setPollcnt n).hold = s.hold := rfl
@[simp] theorem setPollcnt_result (n : Nat) : (s.setPollcnt n).result = s.result := rfl
@[simp] theorem setPollcnt_err (n : Nat) : (s.setPollcnt n).err = s.err := rfl
@[simp] theorem setPollcnt_cause (n : Nat) : (s.setPollcnt n).cause = s.cause := rfl
@[simp] theorem setPollcnt_cfg (n : Nat) : (s.setPollcnt n).cfg = s.cfg := rfl
@[simp] theorem setPollcnt_sample (n : Nat) : (s.setPollcnt n).sample = s.sample := rfl
@[simp] theorem setPollcnt_slave (n : Nat) : (s.setPollcnt n).slave = s.slave := rfl
@[simp] theorem setPollcnt_pending (n : Nat) : (s.setPollcnt n).pending = s.pending := rfl
@[simp] theorem setPollcnt_returned (n : Nat) : (s.setPollcnt n).returned = s.returned := rfl
@[simp] theorem setPollcnt_trace (n : Nat) : (s.setPollcnt n).trace = s.trace := rfl

@[simp] theorem setSeq_pins (q : Option Seq) : (s.setSeq q).pins = s.pins := rfl
@[simp] theorem setSeq_shift (q : Option Seq) : (s.setSeq q).shift = s.shift := rfl
@[simp] theorem setSeq_bitcnt (q : Option Seq) : (s.setSeq q).bitcnt = s.bitcnt := rfl
@[simp] theorem setSeq_pollcnt (q : Option Seq) : (s.setSeq q).pollcnt = s.pollcnt := rfl
@[simp] theorem setSeq_seq (q : Option Seq) : (s.setSeq q).seq = q := rfl
@[simp] theorem setSeq_hold (q : Option Seq) : (s.setSeq q).hold = s.hold := rfl
@[simp] theorem setSeq_result (q : Option Seq) : (s.setSeq q).result = s.result := rfl
@[simp] theorem setSeq_err (q : Option Seq) : (s.setSeq q).err = s.err := rfl
@[simp] theorem setSeq_cause (q : Option Seq) : (s.setSeq q).cause = s.cause := rfl
@[simp] theorem setSeq_cfg (q : Option Seq) : (s.setSeq q).cfg = s.cfg := rfl
@[simp] theorem setSeq_sample (q : Option Seq) : (s.setSeq q).sample = s.sample := rfl
@[simp] theorem setSeq_slave (q : Option Seq) : (s.setSeq q).slave = s.slave := rfl
@[simp] theorem setSeq_pending (q : Option Seq) : (s.setSeq q).pending = s.pending := rfl
@[simp] theorem setSeq_returned (q : Option Seq) : (s.setSeq q).returned = s.returned := rfl
@[simp] theorem setSeq_trace (q : Option Seq) : (s.setSeq q).trace = s.trace := rfl

@[simp] theorem setHold_pins (v : Byte) : (s.setHold v).pins = s.pins := rfl
@[simp] theorem setHold_shift (v : Byte) : (s.setHold v).shift = s.shift := rfl
@[simp] theorem setHold_bitcnt (v : Byte) : (s.setHold v).bitcnt = s.bitcnt := rfl
@[simp] theorem setHold_pollcnt (v : Byte) : (s.setHold v).pollcnt = s.pollcnt := rfl
@[simp] theorem setHold_seq (v : Byte) : (s.setHold v).seq = s.seq := rfl
@[simp] theorem setHold_hold (v : Byte) : (s.setHold v).hold = v := rfl
@[simp] theorem setHold_result (v : Byte) : (s.setHold v).result = s.result := rfl
@[simp] theorem setHold_err (v : Byte) : (s.setHold v).err = s.err := rfl
@[simp] theorem setHold_cause (v : Byte) : (s.setHold v).cause = s.cause := rfl
@[simp] theorem setHold_cfg (v : Byte) : (s.setHold v).cfg = s.cfg := rfl
@[simp] theorem setHold_sample (v : Byte) : (s.setHold v).sample = s.sample := rfl
@[simp] theorem setHold_slave (v : Byte) : (s.setHold v).slave = s.slave := rfl
@[simp] theorem setHold_pending (v : Byte) : (s.setHold v).pending = s.pending := rfl
@[simp] theorem setHold_returned (v : Byte) : (s.setHold v).returned = s.returned := rfl
@[simp] theorem setHold_trace (v : Byte) : (s.setHold v).trace = s.trace := rfl

@[simp] theorem setResult_pins (v : Half) : (s.setResult v).pins = s.pins := rfl
@[simp] theorem setResult_shift (v : Half) : (s.setResult v).shift = s.shift := rfl
@[simp] theorem setResult_bitcnt (v : Half) : (s.setResult v).bitcnt = s.bitcnt := rfl
@[simp] theorem setResult_pollcnt (v : Half) : (s.setResult v).pollcnt = s.pollcnt := rfl
@[simp] theorem setResult_seq (v : Half) : (s.setResult v).seq = s.seq := rfl
@[simp] theorem setResult_hold (v : Half) : (s.setResult v).hold = s.hold := rfl
@[simp] theorem setResult_result (v : Half) : (s.setResult v).result = some v := rfl
@[simp] theorem setResult_err (v : Half) : (s.setResult v).err = s.err := rfl
@[simp] theorem setResult_cause (v : Half) : (s.setResult v).cause = s.cause := rfl
@[simp] theorem setResult_cfg (v : Half) : (s.setResult v).cfg = s.cfg := rfl
@[simp] theorem setResult_sample (v : Half) : (s.setResult v).sample = s.sample := rfl
@[simp] theorem setResult_slave (v : Half) : (s.setResult v).slave = s.slave := rfl
@[simp] theorem setResult_pending (v : Half) : (s.setResult v).pending = s.pending := rfl
@[simp] theorem setResult_returned (v : Half) : (s.setResult v).returned = s.returned := rfl
@[simp] theorem setResult_trace (v : Half) : (s.setResult v).trace = s.trace := rfl

@[simp] theorem setStatus_pins (e : Bit) (c : BitVec 2) : (s.setStatus e c).pins = s.pins := rfl
@[simp] theorem setStatus_shift (e : Bit) (c : BitVec 2) : (s.setStatus e c).shift = s.shift := rfl
@[simp] theorem setStatus_bitcnt (e : Bit) (c : BitVec 2) : (s.setStatus e c).bitcnt = s.bitcnt := rfl
@[simp] theorem setStatus_pollcnt (e : Bit) (c : BitVec 2) : (s.setStatus e c).pollcnt = s.pollcnt := rfl
@[simp] theorem setStatus_seq (e : Bit) (c : BitVec 2) : (s.setStatus e c).seq = s.seq := rfl
@[simp] theorem setStatus_hold (e : Bit) (c : BitVec 2) : (s.setStatus e c).hold = s.hold := rfl
@[simp] theorem setStatus_result (e : Bit) (c : BitVec 2) : (s.setStatus e c).result = s.result := rfl
@[simp] theorem setStatus_err (e : Bit) (c : BitVec 2) : (s.setStatus e c).err = e := rfl
@[simp] theorem setStatus_cause (e : Bit) (c : BitVec 2) : (s.setStatus e c).cause = c := rfl
@[simp] theorem setStatus_cfg (e : Bit) (c : BitVec 2) : (s.setStatus e c).cfg = s.cfg := rfl
@[simp] theorem setStatus_sample (e : Bit) (c : BitVec 2) : (s.setStatus e c).sample = s.sample := rfl
@[simp] theorem setStatus_slave (e : Bit) (c : BitVec 2) : (s.setStatus e c).slave = s.slave := rfl
@[simp] theorem setStatus_pending (e : Bit) (c : BitVec 2) : (s.setStatus e c).pending = s.pending := rfl
@[simp] theorem setStatus_returned (e : Bit) (c : BitVec 2) : (s.setStatus e c).returned = s.returned := rfl
@[simp] theorem setStatus_trace (e : Bit) (c : BitVec 2) : (s.setStatus e c).trace = s.trace := rfl

@[simp] theorem setPending_pins (l : List HostOp) : (s.setPending l).pins = s.pins := rfl
@[simp] theorem setPending_shift (l : List HostOp) : (s.setPending l).shift = s.shift := rfl
@[simp] theorem setPending_bitcnt (l : List HostOp) : (s.setPending l).bitcnt = s.bitcnt := rfl
@[simp] theorem setPending_pollcnt (l : List HostOp) : (s.setPending l).pollcnt = s.pollcnt := rfl
@[simp] theorem setPending_seq (l : List HostOp) : (s.setPending l).seq = s.seq := rfl
@[simp] theorem setPending_hold (l : List HostOp) : (s.setPending l).hold = s.hold := rfl
@[simp] theorem setPending_result (l : List HostOp) : (s.setPending l).result = s.result := rfl
@[simp] theorem setPending_err (l : List HostOp) : (s.setPending l).err = s.err := rfl
@[simp] theorem setPending_cause (l : List HostOp) : (s.setPending l).cause = s.cause := rfl
@[simp] theorem setPending_cfg (l : List HostOp) : (s.setPending l).cfg = s.cfg := rfl
@[simp] theorem setPending_sample (l : List HostOp) : (s.setPending l).sample = s.sample := rfl
@[simp] theorem setPending_slave (l : List HostOp) : (s.setPending l).slave = s.slave := rfl
@[simp] theorem setPending_pending (l : List HostOp) : (s.setPending l).pending = l := rfl
@[simp] theorem setPending_returned (l : List HostOp) : (s.setPending l).returned = s.returned := rfl
@[simp] theorem setPending_trace (l : List HostOp) : (s.setPending l).trace = s.trace := rfl

@[simp] theorem addReturned_pins (v : HostAnswer) : (s.addReturned v).pins = s.pins := rfl
@[simp] theorem addReturned_shift (v : HostAnswer) : (s.addReturned v).shift = s.shift := rfl
@[simp] theorem addReturned_bitcnt (v : HostAnswer) : (s.addReturned v).bitcnt = s.bitcnt := rfl
@[simp] theorem addReturned_pollcnt (v : HostAnswer) : (s.addReturned v).pollcnt = s.pollcnt := rfl
@[simp] theorem addReturned_seq (v : HostAnswer) : (s.addReturned v).seq = s.seq := rfl
@[simp] theorem addReturned_hold (v : HostAnswer) : (s.addReturned v).hold = s.hold := rfl
@[simp] theorem addReturned_result (v : HostAnswer) : (s.addReturned v).result = s.result := rfl
@[simp] theorem addReturned_err (v : HostAnswer) : (s.addReturned v).err = s.err := rfl
@[simp] theorem addReturned_cause (v : HostAnswer) : (s.addReturned v).cause = s.cause := rfl
@[simp] theorem addReturned_cfg (v : HostAnswer) : (s.addReturned v).cfg = s.cfg := rfl
@[simp] theorem addReturned_sample (v : HostAnswer) : (s.addReturned v).sample = s.sample := rfl
@[simp] theorem addReturned_slave (v : HostAnswer) : (s.addReturned v).slave = s.slave := rfl
@[simp] theorem addReturned_pending (v : HostAnswer) : (s.addReturned v).pending = s.pending := rfl
@[simp] theorem addReturned_returned (v : HostAnswer) : (s.addReturned v).returned = v :: s.returned := rfl
@[simp] theorem addReturned_trace (v : HostAnswer) : (s.addReturned v).trace = s.trace := rfl

end Sys2Proof.Machine.State
end

