-- ==== Sys2Proof/Laws/Ops.lean ====
section
/-! SUPPORT. Laws/Ops.lean: the scripted slave draw by draw, and what any run of micro-operations leaves alone (`Ran`). -/

namespace Sys2Proof.Machine

/-! ### The scripted slave -/

/-- The oracle after `n` micro-operations. -/
def Oracle.after (o : Oracle) : Nat → Oracle
  | 0 => o
  | n + 1 => o.draw.after n

theorem Oracle.level_draw (o : Oracle) : o.draw.level = o.upcoming 0 := by
  cases h : o.script <;> simp [Oracle.draw, Oracle.upcoming, h]

theorem Oracle.upcoming_draw (o : Oracle) (k : Nat) : o.draw.upcoming k = o.upcoming (k + 1) := by
  cases h : o.script with
  | nil => simp [Oracle.draw, Oracle.upcoming, h, Nat.add_assoc, Nat.add_comm 1 k]
  | cons b bs => simp [Oracle.draw, Oracle.upcoming, h]

theorem Oracle.after_add (o : Oracle) (m n : Nat) : o.after (m + n) = (o.after m).after n := by
  induction m generalizing o with
  | zero => simp [Oracle.after]
  | succ m ih => rw [Nat.succ_add]; exact ih o.draw

theorem Oracle.upcoming_after (o : Oracle) (n k : Nat) : (o.after n).upcoming k = o.upcoming (n + k) := by
  induction n generalizing o with
  | zero => simp [Oracle.after]
  | succ n ih => rw [Oracle.after, ih, Oracle.upcoming_draw]; congr 1; omega

/-! ### Traces -/

theorem Performed.refl (s : State) : Performed s s [] := ⟨[], by simp, rfl⟩

theorem Performed.trans {s t u : State} {es fs : List Event} (h : Performed s t es) (k : Performed t u fs) :
    Performed s u (es ++ fs) := by
  obtain ⟨a, ha, rfl⟩ := h
  obtain ⟨b, hb, rfl⟩ := k
  exact ⟨a ++ b, by simp [hb, ha], by simp⟩

theorem Performed.length {s t : State} {es : List Event} (h : Performed s t es) :
    t.trace.length = s.trace.length + es.length := by
  obtain ⟨a, ha, rfl⟩ := h
  simp [ha, Nat.add_comm]

theorem Performed.congr {s t u : State} {es : List Event} (h : Performed s t es) (hu : u.trace = t.trace) :
    Performed s u es := by
  obtain ⟨a, ha, he⟩ := h
  exact ⟨a, hu.trans ha, he⟩

theorem lastClock_append (b : Bit) (es fs : List Event) : lastClock b (es ++ fs) = lastClock (lastClock b es) fs := by
  induction es generalizing b with
  | nil => rfl
  | cons e es ih => exact ih _

theorem lastData_append (b : Bit) (es fs : List Event) : lastData b (es ++ fs) = lastData (lastData b es) fs := by
  induction es generalizing b with
  | nil => rfl
  | cons e es ih => exact ih _

theorem lastDir_append (d : Dir) (es fs : List Event) : lastDir d (es ++ fs) = lastDir (lastDir d es) fs := by
  induction es generalizing d with
  | nil => rfl
  | cons e es ih => exact ih _

theorem pinsAfter_append (p : Pins) (es fs : List Event) : pinsAfter p (es ++ fs) = pinsAfter (pinsAfter p es) fs := by
  simp [pinsAfter, lastClock_append, lastData_append, lastDir_append]

/-! ### Runs of micro-operations -/

/-- What is true of any run of micro-operations between two states: the entries are appended, the pins are those the trace
gives (R69), a scripted slave has drawn once for each, and nothing a micro-operation does not write has changed. -/
structure Ran (s t : State) (es : List Event) : Prop where
  performed : Performed s t es
  pins : t.pins = pinsAfter s.pins es
  slave : ∀ o, s.slave = .oracle o → t.slave = .oracle (o.after es.length)
  seq : t.seq = s.seq
  hold : t.hold = s.hold
  result : t.result = s.result
  err : t.err = s.err
  cause : t.cause = s.cause
  cfg : t.cfg = s.cfg
  pending : t.pending = s.pending
  returned : t.returned = s.returned

theorem Ran.refl (s : State) : Ran s s [] where
  performed := .refl s
  pins := rfl
  slave _ h := h
  seq := rfl
  hold := rfl
  result := rfl
  err := rfl
  cause := rfl
  cfg := rfl
  pending := rfl
  returned := rfl

theorem Ran.trans {s t u : State} {es fs : List Event} (h : Ran s t es) (k : Ran t u fs) : Ran s u (es ++ fs) where
  performed := h.performed.trans k.performed
  pins := by rw [k.pins, h.pins, pinsAfter_append]
  slave o ho := by rw [k.slave _ (h.slave o ho), List.length_append, Oracle.after_add]
  seq := k.seq.trans h.seq
  hold := k.hold.trans h.hold
  result := k.result.trans h.result
  err := k.err.trans h.err
  cause := k.cause.trans h.cause
  cfg := k.cfg.trans h.cfg
  pending := k.pending.trans h.pending
  returned := k.returned.trans h.returned

/-- `SHIFT`, `BITCNT` and `POLLCNT` may be written between two runs. -/
theorem Ran.setShift {s t : State} {es : List Event} (h : Ran s t es) (v : Byte) : Ran s (t.setShift v) es :=
  ⟨h.performed.congr rfl, h.pins, h.slave, h.seq, h.hold, h.result, h.err, h.cause, h.cfg, h.pending, h.returned⟩

theorem Ran.setBitcnt {s t : State} {es : List Event} (h : Ran s t es) (n : Nat) : Ran s (t.setBitcnt n) es :=
  ⟨h.performed.congr rfl, h.pins, h.slave, h.seq, h.hold, h.result, h.err, h.cause, h.cfg, h.pending, h.returned⟩

theorem Ran.setPollcnt {s t : State} {es : List Event} (h : Ran s t es) (n : Nat) : Ran s (t.setPollcnt n) es :=
  ⟨h.performed.congr rfl, h.pins, h.slave, h.seq, h.hold, h.result, h.err, h.cause, h.cfg, h.pending, h.returned⟩

/-- What a read would answer at this micro-operation: the data wire after it (R14, R64). -/
def answer (op : MicroOp) (s : State) : Bit :=
  ((op.drive s.pins).wire (s.slave.next s.pins (op.drive s.pins)).level).sda

/-- Everything one micro-operation can do (R60 to R65). -/
theorem emit_ran (op : MicroOp) (s : State) : Ran s (emit op s) [op.event (answer op s)] where
  performed := ⟨[_], rfl, rfl⟩
  pins := by cases op <;> rfl
  slave o ho := by simp [emit, ho, Slave.next, Oracle.after]
  seq := rfl
  hold := rfl
  result := rfl
  err := rfl
  cause := rfl
  cfg := rfl
  pending := rfl
  returned := rfl

@[simp] theorem emit_pins (op : MicroOp) (s : State) : (emit op s).pins = op.drive s.pins := rfl
@[simp] theorem emit_shift (op : MicroOp) (s : State) : (emit op s).shift = s.shift := rfl
@[simp] theorem emit_bitcnt (op : MicroOp) (s : State) : (emit op s).bitcnt = s.bitcnt := rfl
@[simp] theorem emit_pollcnt (op : MicroOp) (s : State) : (emit op s).pollcnt = s.pollcnt := rfl
@[simp] theorem emit_cfg (op : MicroOp) (s : State) : (emit op s).cfg = s.cfg := rfl
@[simp] theorem emit_sample (op : MicroOp) (s : State) : (emit op s).sample = op.latch (answer op s) s.sample := rfl
@[simp] theorem emit_slave (op : MicroOp) (s : State) :
    (emit op s).slave = s.slave.next s.pins (op.drive s.pins) := rfl

/-- A read with the direction `IN` answers a scripted slave's next contribution (R14, R64). -/
theorem answer_read_oracle (s : State) (o : Oracle) (ho : s.slave = .oracle o) (hd : s.pins.sdaDir = .input) :
    answer .read s = o.upcoming 0 := by
  simp [answer, MicroOp.drive, Pins.wire, Pins.master, hd, ho, Slave.next, Slave.level, Oracle.level_draw]

/-- Micro-operations none of which is a read. -/
def quiet (ops : List MicroOp) : Bool := ops.all fun op => op != .read

theorem event_of_not_read {op : MicroOp} (h : op ≠ .read) (b c : Bit) : op.event b = op.event c := by
  cases op <;> simp_all [MicroOp.event]

/-- Everything several micro-operations without a read can do. -/
theorem emits_ran (ops : List MicroOp) (h : quiet ops = true) (s : State) :
    Ran s (emits ops s) (ops.map (MicroOp.event · false)) := by
  induction ops generalizing s with
  | nil => exact .refl s
  | cons op ops ih =>
    simp only [quiet, List.all_cons, Bool.and_eq_true, bne_iff_ne] at h
    have := (emit_ran op s).trans (ih h.2 (emit op s))
    rwa [event_of_not_read h.1 _ false] at this

theorem emits_append (ops ops' : List MicroOp) (s : State) : emits (ops ++ ops') s = emits ops' (emits ops s) := by
  induction ops generalizing s with
  | nil => rfl
  | cons op ops ih => exact ih _

@[simp] theorem emits_shift (ops : List MicroOp) (s : State) : (emits ops s).shift = s.shift := by
  induction ops generalizing s with
  | nil => rfl
  | cons op ops ih => exact ih _

@[simp] theorem emits_bitcnt (ops : List MicroOp) (s : State) : (emits ops s).bitcnt = s.bitcnt := by
  induction ops generalizing s with
  | nil => rfl
  | cons op ops ih => exact ih _

@[simp] theorem emits_pollcnt (ops : List MicroOp) (s : State) : (emits ops s).pollcnt = s.pollcnt := by
  induction ops generalizing s with
  | nil => rfl
  | cons op ops ih => exact ih _

theorem emits_sample (ops : List MicroOp) (h : quiet ops = true) (s : State) : (emits ops s).sample = s.sample := by
  induction ops generalizing s with
  | nil => rfl
  | cons op ops ih =>
    simp only [quiet, List.all_cons, Bool.and_eq_true, bne_iff_ne] at h
    rw [emits, ih h.2]
    cases op <;> first | rfl | exact absurd rfl h.1

/-- The sequencer performs a micro-operation exactly as `emit` does, or refuses the two misuses of R67. -/
theorem perform_cases (op : MicroOp) (s : State) :
    (perform op s = .next (emit op s) ∧ (∀ b, op = .dat b → s.pins.sdaDir = .output) ∧
        (op = .read → s.pins.sdaDir = .input)) ∨
      (perform op s = .refused .driveWhileInput ∧ s.pins.sdaDir = .input ∧ ∃ b, op = .dat b) ∨
      (perform op s = .refused .readWhileOutput ∧ s.pins.sdaDir = .output ∧ op = .read) := by
  cases op <;> cases h : s.pins.sdaDir <;> simp [perform, h]

end Sys2Proof.Machine
end

