-- ==== Sys2Proof/Laws/Primitives.lean ====
section
/-! SUPPORT. Laws/Primitives.lean: everything each primitive can do when it is called (41_bus_primitives.md), cited instead
of unfolding it. -/

namespace Sys2Proof.Machine

theorem start_ran (s : State) : Ran s (start s) startTrace := emits_ran startOps rfl s

theorem stop_ran (s : State) : Ran s (stop s) stopTrace := emits_ran stopOps rfl s

theorem sendAck_ran (ack : Bit) (s : State) : Ran s (sendAck ack s) (sendAckTrace ack) :=
  emits_ran (sendAckOps ack) rfl s

theorem start_registers (s : State) : (start s).shift = s.shift ∧ (start s).bitcnt = s.bitcnt ∧
    (start s).pollcnt = s.pollcnt ∧ (start s).sample = s.sample := ⟨rfl, rfl, rfl, rfl⟩

theorem stop_registers (s : State) : (stop s).shift = s.shift ∧ (stop s).bitcnt = s.bitcnt ∧
    (stop s).pollcnt = s.pollcnt ∧ (stop s).sample = s.sample := ⟨rfl, rfl, rfl, rfl⟩

theorem sendAck_registers (ack : Bit) (s : State) : (sendAck ack s).shift = s.shift ∧
    (sendAck ack s).bitcnt = s.bitcnt ∧ (sendAck ack s).pollcnt = s.pollcnt ∧ (sendAck ack s).sample = s.sample :=
  ⟨rfl, rfl, rfl, rfl⟩

/-! ### SENDBYTE -/

theorem sendBit_ran (s : State) : Ran s (sendBit s) (sentBit (topBit s.shift)) :=
  ((emits_ran (sendBitOps (topBit s.shift)) rfl s).setShift _).setBitcnt _

/-- The events of `n` turns of the loop from a shift register. -/
def sentBits : Nat → Byte → List Event
  | 0, _ => []
  | n + 1, v => sentBit (topBit v) ++ sentBits n (shiftOut v)

theorem sendBits_ran (n : Nat) (s : State) : Ran s (sendBits n s) (sentBits n s.shift) := by
  induction n generalizing s with
  | zero => exact .refl s
  | succ n ih => exact (sendBit_ran s).trans (ih (sendBit s))

theorem topBit_shiftOut (v : Byte) (i : Nat) (h : i < 8) : topBit (v <<< i) = v.getLsbD (7 - i) := by
  simp only [topBit, BitVec.getLsbD_shiftLeft]
  simp; omega

theorem sentBits_eight (v : Byte) : .dirOut :: sentBits 8 v = sendByteTrace v := by
  have h : ∀ i, i < 8 → topBit (v <<< i) = v.getLsbD (7 - i) := fun i hi => topBit_shiftOut v i hi
  have h0 := h 0 (by omega)
  have h1 := h 1 (by omega)
  have h2 := h 2 (by omega)
  have h3 := h 3 (by omega)
  have h4 := h 4 (by omega)
  have h5 := h 5 (by omega)
  have h6 := h 6 (by omega)
  have h7 := h 7 (by omega)
  simp only [BitVec.shiftLeft_zero] at h0
  simp only [sentBits, sendByteTrace, shiftOut, ← BitVec.shiftLeft_add, h0, h1, h2, h3, h4, h5, h6, h7,
    List.range, List.range.loop, List.flatMap_cons, List.flatMap_nil, Nat.reduceAdd, Nat.reduceSub]

/-- Everything `SENDBYTE` can do (R74). -/
theorem sendByte_ran (v : Byte) (s : State) : Ran s (sendByte v s) (sendByteTrace v) := by
  have h := (((emit_ran .dirOut s).setShift v).setBitcnt 8).trans (sendBits_ran 8 _)
  have e : [MicroOp.dirOut.event (answer .dirOut s)] ++ sentBits 8 v = sendByteTrace v := sentBits_eight v
  rw [← e]
  exact h

theorem sendByte_registers (v : Byte) (s : State) : (sendByte v s).shift = 0 ∧ (sendByte v s).bitcnt = 0 ∧
    (sendByte v s).pollcnt = s.pollcnt ∧ (sendByte v s).sample = s.sample := by
  refine ⟨?_, rfl, rfl, rfl⟩
  change shiftOut (shiftOut (shiftOut (shiftOut (shiftOut (shiftOut (shiftOut (shiftOut v))))))) = 0
  simp only [shiftOut, ← BitVec.shiftLeft_add, Nat.reduceAdd]
  ext i hi
  simp

/-! ### WAITACK -/

theorem highSamples_succ (j : Nat) :
    highSamples (j + 1) = [Event.read true, Event.wait .tPoll] ++ highSamples j := rfl

/-- What a poll with `left` samples allowed can do: an acknowledge after `j` high samples, or the stop after `left`. -/
theorem pollAck_cases (left : Nat) (s : State) (hd : s.pins.sdaDir = .input) :
    (∃ j t, j < left ∧ pollAck left s = (t, false) ∧ Ran s t (highSamples j ++ [.read false, .clk false]) ∧
        t.pollcnt = s.pollcnt + j ∧ t.shift = s.shift ∧ t.bitcnt = s.bitcnt ∧
        ∀ o, s.slave = .oracle o → o.acksAt 0 j) ∨
      (∃ t, pollAck left s = (t, true) ∧ Ran s t (highSamples left ++ stopTrace) ∧
        t.pollcnt = s.pollcnt + left ∧ t.shift = s.shift ∧ t.bitcnt = s.bitcnt ∧
        ∀ o, s.slave = .oracle o → o.missesAt 0 left) := by
  induction left generalizing s with
  | zero =>
    exact .inr ⟨stop s, rfl, stop_ran s, rfl, rfl, rfl, fun o _ i hi => absurd hi (Nat.not_lt_zero i)⟩
  | succ left ih =>
    have hr := emit_ran .read s
    have ha : ∀ o, s.slave = .oracle o → (emit .read s).sample = o.upcoming 0 :=
      fun o ho => answer_read_oracle s o ho hd
    cases hb : (emit .read s).sample with
    | false =>
      have hev : MicroOp.read.event (answer .read s) = .read false := congrArg Event.read hb
      rw [hev] at hr
      refine .inl ⟨0, _, Nat.succ_pos _, by simp only [pollAck, hb], hr.trans (emit_ran (.clk false) _), rfl, rfl, rfl, ?_⟩
      exact fun o ho => ⟨fun i hi => absurd hi (Nat.not_lt_zero i), by rw [← hb]; exact (ha o ho).symm⟩
    | true =>
      have hev : MicroOp.read.event (answer .read s) = .read true := congrArg Event.read hb
      rw [hev] at hr
      have hw : Ran s ((emit (.wait .tPoll) (emit .read s)).setPollcnt (s.pollcnt + 1)) [.read true, .wait .tPoll] :=
        (hr.trans (emit_ran (.wait .tPoll) _)).setPollcnt _
      have hpoll : pollAck (left + 1) s =
          pollAck left ((emit (.wait .tPoll) (emit .read s)).setPollcnt (s.pollcnt + 1)) := by
        simp only [pollAck, hb, emit_pollcnt]
      rw [hpoll]
      rcases ih ((emit (.wait .tPoll) (emit .read s)).setPollcnt (s.pollcnt + 1)) hd with ⟨j, t, hj, ht, hran, hp, hsh, hbc, ho⟩ | ⟨t, ht, hran, hp, hsh, hbc, ho⟩
      · refine .inl ⟨j + 1, t, by omega, ht, ?_, by simp at hp; omega, hsh, hbc, ?_⟩
        · rw [highSamples_succ, List.append_assoc]; exact hw.trans hran
        · intro o hs
          obtain ⟨h1, h2⟩ := ho _ (hw.slave o hs)
          simp only [Oracle.upcoming_after, List.length_cons, List.length_nil] at h1 h2
          refine ⟨fun i hi => ?_, by rw [← h2]; congr 1; omega⟩
          cases i with
          | zero => rw [← hb]; exact (ha o hs).symm
          | succ i => have := h1 i (by omega); rw [← this]; congr 1; omega
      · refine .inr ⟨t, ht, ?_, by simp at hp; omega, hsh, hbc, ?_⟩
        · rw [highSamples_succ, List.append_assoc]; exact hw.trans hran
        · intro o hs i hi
          have h1 := ho _ (hw.slave o hs)
          cases i with
          | zero => rw [← hb]; exact (ha o hs).symm
          | succ i =>
            have := h1 i (by omega)
            simp only [Oracle.upcoming_after, List.length_cons, List.length_nil] at this
            rw [← this]; congr 1; omega

/-- What `WAITACK` can do (R76): an acknowledge after `j` high samples, `j` below the bound, or the bound of high samples
and the stop; against a scripted slave, which of the two is what the slave's contributions say. -/
theorem waitAck_cases (s : State) :
    (∃ j t, j < s.cfg.ackPollBound.val ∧ waitAck s = (t, false) ∧ Ran s t (ackTrace j) ∧ t.pollcnt = j ∧
        t.shift = s.shift ∧ t.bitcnt = s.bitcnt ∧ ∀ o, s.slave = .oracle o → o.acksAt 2 j) ∨
      (∃ t, waitAck s = (t, true) ∧ Ran s t (timeoutTrace s.cfg.ackPollBound.val) ∧
        t.pollcnt = s.cfg.ackPollBound.val ∧ t.shift = s.shift ∧ t.bitcnt = s.bitcnt ∧
        ∀ o, s.slave = .oracle o → o.missesAt 2 s.cfg.ackPollBound.val) := by
  have h0 : Ran s ((emits [.dirIn, .clk true] s).setPollcnt 0) [.dirIn, .clk true] :=
    (emits_ran [.dirIn, .clk true] rfl s).setPollcnt 0
  rcases pollAck_cases s.cfg.ackPollBound.val ((emits [.dirIn, .clk true] s).setPollcnt 0) rfl with
    ⟨j, t, hj, ht, hran, hp, hsh, hbc, ho⟩ | ⟨t, ht, hran, hp, hsh, hbc, ho⟩
  · refine .inl ⟨j, t, hj, ht, ?_, by simpa using hp, hsh, hbc, ?_⟩
    · rw [ackTrace, List.append_assoc]; exact h0.trans hran
    · intro o hs
      obtain ⟨h1, h2⟩ := ho _ (h0.slave o hs)
      simp only [Oracle.upcoming_after, List.length_cons, List.length_nil, Nat.zero_add] at h1 h2
      exact ⟨fun i hi => h1 i hi, h2⟩
  · refine .inr ⟨t, ht, ?_, by simpa using hp, hsh, hbc, ?_⟩
    · rw [timeoutTrace, List.append_assoc]; exact h0.trans hran
    · intro o hs i hi
      have h1 := ho _ (h0.slave o hs) i hi
      simpa only [Oracle.upcoming_after, List.length_cons, List.length_nil, Nat.zero_add] using h1

/-! ### RECVBYTE -/

/-- Everything one turn of the receive loop can do: some bit `b` is sampled and shifted in; against a scripted slave it is
the contribution at the third micro-operation. -/
theorem recvBit_cases (s : State) (hd : s.pins.sdaDir = .input) :
    ∃ b, Ran s (recvBit s) (receivedBit b) ∧ (recvBit s).shift = shiftIn s.shift b ∧
      (recvBit s).bitcnt = s.bitcnt - 1 ∧ (recvBit s).pollcnt = s.pollcnt ∧ (recvBit s).pins.sdaDir = .input ∧
      ∀ o, s.slave = .oracle o → b = o.upcoming 2 := by
  refine ⟨(emits recvBitOps s).sample, ?_, rfl, rfl, rfl, hd, ?_⟩
  · have h1 := emits_ran [.wait .tSu, .clk true] rfl s
    have h2 := emit_ran .read (emits [.wait .tSu, .clk true] s)
    have h3 := emits_ran [.wait .tHigh, .clk false] rfl (emit .read (emits [.wait .tSu, .clk true] s))
    exact ((((h1.trans h2).trans h3).setShift _).setBitcnt _)
  · intro o ho
    have h := answer_read_oracle (emits [.wait .tSu, .clk true] s) _
      ((emits_ran [.wait .tSu, .clk true] rfl s).slave o ho) hd
    rw [Oracle.upcoming_after] at h
    exact h

/-- `n` turns of the receive loop: some bits, each shifted in; against a scripted slave they are its contributions at every
fifth micro-operation. -/
theorem recvBits_cases (n : Nat) (s : State) (hd : s.pins.sdaDir = .input) :
    ∃ bits : List Bit, bits.length = n ∧ Ran s (recvBits n s) (bits.flatMap receivedBit) ∧
      (recvBits n s).shift = bits.foldl shiftIn s.shift ∧ (recvBits n s).bitcnt = s.bitcnt - n ∧
      (recvBits n s).pollcnt = s.pollcnt ∧
      ∀ o, s.slave = .oracle o → bits = (List.range n).map fun i => o.upcoming (2 + 5 * i) := by
  induction n generalizing s with
  | zero => exact ⟨[], rfl, .refl s, rfl, rfl, rfl, fun _ _ => rfl⟩
  | succ n ih =>
    obtain ⟨b, hran, hsh, hbc, hp, hd', ho⟩ := recvBit_cases s hd
    obtain ⟨bits, hlen, hran', hsh', hbc', hp', ho'⟩ := ih (recvBit s) hd'
    refine ⟨b :: bits, by simp [hlen], hran.trans hran', ?_, ?_, hp'.trans hp, ?_⟩
    · rw [recvBits, hsh', hsh]; rfl
    · rw [recvBits, hbc', hbc]; omega
    · intro o hs
      rw [List.range_succ_eq_map, List.map_cons, List.map_map, ho o hs, ho' _ (hran.slave o hs)]
      refine congrArg _ (List.map_congr_left fun i _ => ?_)
      simp only [Oracle.upcoming_after, receivedBit, List.length_cons, List.length_nil, Function.comp]
      congr 1; omega

theorem packed_bits : ∀ a b c d e f g h : Bit,
    (List.range 8).map (fun i => ([a, b, c, d, e, f, g, h].foldl shiftIn (0 : Byte)).getLsbD (7 - i)) =
      [a, b, c, d, e, f, g, h] := by decide

/-- Eight bits shifted in are the byte's bits, bit 7 first (R36, R80). -/
theorem bits_of_shifted (bits : List Bit) (h : bits.length = 8) :
    (List.range 8).map (fun i => (bits.foldl shiftIn (0 : Byte)).getLsbD (7 - i)) = bits := by
  match bits, h with
  | [a, b, c, d, e, f, g, k], _ => exact packed_bits a b c d e f g k

/-- Everything `RECVBYTE` can do (R80): some byte is read, bit 7 first, and is in `SHIFT`; against a scripted slave it is
the byte the slave puts on the line. -/
theorem recvByte_cases (ack : Bit) (s : State) :
    ∃ byte, Ran s (recvByte ack s) (recvByteTrace byte ack) ∧ (recvByte ack s).shift = byte ∧
      (recvByte ack s).bitcnt = 0 ∧ (recvByte ack s).pollcnt = s.pollcnt ∧
      ∀ o, s.slave = .oracle o → byte = o.byteAt 3 := by
  have h0 : Ran s (((emit .dirIn s).setShift 0).setBitcnt 8) [.dirIn] :=
    ((emit_ran .dirIn s).setShift 0).setBitcnt 8
  obtain ⟨bits, hlen, hran, hsh, hbc, hp, ho⟩ := recvBits_cases 8 (((emit .dirIn s).setShift 0).setBitcnt 8) rfl
  refine ⟨bits.foldl shiftIn 0, ?_, hsh, hbc, hp, ?_⟩
  · have h := (h0.trans hran).trans (sendAck_ran ack _)
    have e : recvByteTrace (bits.foldl shiftIn 0) ack = [.dirIn] ++ bits.flatMap receivedBit ++ sendAckTrace ack := by
      conv_rhs => rw [← bits_of_shifted bits hlen]
      rw [List.flatMap_map]
      rfl
    rw [e]
    exact h
  · intro o hs
    rw [ho _ (h0.slave o hs), Oracle.byteAt, List.foldl_map]
    simp only [Oracle.upcoming_after, List.length_cons, List.length_nil]
    congr 1
    funext acc i
    congr 2; omega

end Sys2Proof.Machine
end

