-- ==== Sys2Proof/Laws/Framer.lean ====
section
/-! SUPPORT. Laws/Framer.lean: everything the framer's acknowledged sends can do (42_register_protocol.md rule R86), and why
a scripted slave's answers decide which. -/

namespace Sys2Proof.Machine

/-! ### A scripted slave decides -/

theorem Oracle.acksAt_unique {o : Oracle} {k i j : Nat} (hi : o.acksAt k i) (hj : o.acksAt k j) : i = j := by
  rcases Nat.lt_trichotomy i j with h | h | h
  · exact absurd ((hj.1 i h).symm.trans hi.2) (by simp)
  · exact h
  · exact absurd ((hi.1 j h).symm.trans hj.2) (by simp)

theorem Oracle.not_missesAt {o : Oracle} {k j bound : Nat} (hj : o.acksAt k j) (hlt : j < bound) :
    ¬ o.missesAt k bound := fun h => absurd ((h j hlt).symm.trans hj.2) (by simp)

theorem Oracle.acksAt_after {o : Oracle} {n k j : Nat} : (o.after n).acksAt k j ↔ o.acksAt (n + k) j := by
  simp only [Oracle.acksAt, Oracle.upcoming_after, Nat.add_assoc]

theorem Oracle.missesAt_after {o : Oracle} {n k bound : Nat} :
    (o.after n).missesAt k bound ↔ o.missesAt (n + k) bound := by
  simp only [Oracle.missesAt, Oracle.upcoming_after, Nat.add_assoc]

theorem Oracle.acksFrom_after {o : Oracle} {bound n k : Nat} {js : List Nat} :
    (o.after n).acksFrom bound k js ↔ o.acksFrom bound (n + k) js := by
  induction js generalizing k with
  | nil => exact Iff.rfl
  | cons j js ih => simp only [Oracle.acksFrom, Oracle.acksAt_after, ih, Nat.add_assoc]

theorem Oracle.byteAt_after {o : Oracle} {n k : Nat} : (o.after n).byteAt k = o.byteAt (n + k) := by
  simp only [Oracle.byteAt, Oracle.upcoming_after, Nat.add_assoc]

/-- One of two lists of counts that agree with the same slave is the beginning of the other. -/
theorem Oracle.acksFrom_agree {o : Oracle} {bound k : Nat} {is js : List Nat} (hi : o.acksFrom bound k is)
    (hj : o.acksFrom bound k js) (hlen : is.length ≤ js.length) : is = js.take is.length := by
  induction is generalizing js k with
  | nil => rfl
  | cons i is ih =>
    cases js with
    | nil => simp at hlen
    | cons j js =>
      have hij := Oracle.acksAt_unique hi.2.1 hj.2.1
      subst hij
      simp only [List.length_cons, List.take_succ_cons, List.cons.injEq, true_and]
      exact ih hi.2.2 hj.2.2 (by simpa using hlen)

/-! ### Lengths -/

@[simp] theorem sendByteTrace_length (v : Byte) : (sendByteTrace v).length = 41 := rfl

@[simp] theorem sendAckTrace_length (k : Bit) : (sendAckTrace k).length = 7 := rfl

@[simp] theorem recvByteTrace_length (v : Byte) (k : Bit) : (recvByteTrace v k).length = 48 := rfl

@[simp] theorem highSamples_length (j : Nat) : (highSamples j).length = 2 * j := by
  induction j with
  | zero => rfl
  | succ j ih => rw [highSamples_succ, List.length_append, ih]; simp; omega

@[simp] theorem ackTrace_length (j : Nat) : (ackTrace j).length = 2 * j + 4 := by simp [ackTrace]

@[simp] theorem timeoutTrace_length (n : Nat) : (timeoutTrace n).length = 2 * n + 8 := by simp [timeoutTrace, stopTrace]

/-! ### Sending bytes -/

/-- What an acknowledged send can do (R86, R89): every byte acknowledged, after counts `js` of high samples, or the bytes
before some byte `b` acknowledged and `b` not. -/
theorem sendAcked_cases (bytes : List Byte) (s : State) :
    (∃ js t, js.length = bytes.length ∧ (∀ j ∈ js, j < s.cfg.ackPollBound.val) ∧ sendAcked bytes s = (t, false) ∧
        Ran s t (ackedTrace (bytes.zip js)) ∧
        (bytes ≠ [] → t.shift = 0 ∧ t.bitcnt = 0 ∧ some t.pollcnt = js.getLast?) ∧
        ∀ o, s.slave = .oracle o → o.acksFrom s.cfg.ackPollBound.val 43 js) ∨
      (∃ js b t, bytes[js.length]? = some b ∧ (∀ j ∈ js, j < s.cfg.ackPollBound.val) ∧ sendAcked bytes s = (t, true) ∧
        Ran s t (ackedTrace (bytes.zip js) ++ sendByteTrace b ++ timeoutTrace s.cfg.ackPollBound.val) ∧
        t.shift = 0 ∧ t.bitcnt = 0 ∧ t.pollcnt = s.cfg.ackPollBound.val ∧
        ∀ o, s.slave = .oracle o → o.acksFrom s.cfg.ackPollBound.val 43 js ∧
          o.missesAt (43 + 45 * js.length + 2 * js.sum) s.cfg.ackPollBound.val) := by
  induction bytes generalizing s with
  | nil => exact .inl ⟨[], s, rfl, by simp, rfl, .refl s, fun h => absurd rfl h, fun _ _ => trivial⟩
  | cons b bytes ih =>
    have hb := sendByte_ran b s
    obtain ⟨hbs, hbb, -, -⟩ := sendByte_registers b s
    have hcfg := hb.cfg
    rcases waitAck_cases (sendByte b s) with ⟨j, t, hj, ht, hran, hp, hsh, hbc, ho⟩ | ⟨t, ht, hran, hp, hsh, hbc, ho⟩
    · rw [hcfg] at hj
      have hst := hb.trans hran
      have hseq : sendAcked (b :: bytes) s = sendAcked bytes t := by simp only [sendAcked, ht]
      have hoj : ∀ o, s.slave = .oracle o → o.acksAt 43 j := fun o hs => by
        have := ho _ (hb.slave o hs)
        rwa [Oracle.acksAt_after, sendByteTrace_length] at this
      rcases ih t with ⟨js, u, hlen, hjs, hu, hran', hreg, ho'⟩ | ⟨js, c, u, hc, hjs, hu, hran', hs', hb', hp', ho'⟩
      · rw [hst.cfg] at hjs
        refine .inl ⟨j :: js, u, by simp [hlen], ?_, hseq.trans hu, ?_, ?_, ?_⟩
        · intro i hi
          rcases List.mem_cons.mp hi with rfl | hi
          · exact hj
          · exact hjs i hi
        · simpa [ackedTrace, List.append_assoc] using hst.trans hran'
        · intro _
          cases bytes with
          | nil =>
            have hjs0 : js = [] := by simpa using hlen
            subst hjs0
            have hut : u = t := by simpa [sendAcked] using hu.symm
            subst hut
            exact ⟨hsh.trans hbs, hbc.trans hbb, by simp [hp]⟩
          | cons c cs =>
            obtain ⟨h1, h2, h3⟩ := hreg (by simp)
            refine ⟨h1, h2, ?_⟩
            cases js with
            | nil => simp at hlen
            | cons k ks => simpa using h3
        · intro o hs
          have h1 := ho' _ (hst.slave o hs)
          rw [hst.cfg, Oracle.acksFrom_after] at h1
          refine ⟨hj, hoj o hs, ?_⟩
          simp only [List.length_append, sendByteTrace_length, ackTrace_length] at h1
          have e : 41 + (2 * j + 4) + 43 = 43 + 2 * j + 45 := by omega
          rwa [e] at h1
      · rw [hst.cfg] at hjs hran' hp'
        refine .inr ⟨j :: js, c, u, by simpa using hc, ?_, hseq.trans hu, ?_, hs', hb', hp', ?_⟩
        · intro i hi
          rcases List.mem_cons.mp hi with rfl | hi
          · exact hj
          · exact hjs i hi
        · simpa [ackedTrace, List.append_assoc] using hst.trans hran'
        · intro o hs
          obtain ⟨h1, h2⟩ := ho' _ (hst.slave o hs)
          rw [hst.cfg, Oracle.acksFrom_after] at h1
          rw [hst.cfg, Oracle.missesAt_after] at h2
          simp only [List.length_append, sendByteTrace_length, ackTrace_length] at h1 h2
          have e : 41 + (2 * j + 4) + 43 = 43 + 2 * j + 45 := by omega
          have e' : 41 + (2 * j + 4) + (43 + 45 * js.length + 2 * js.sum) =
              43 + 45 * (j :: js).length + 2 * (j :: js).sum := by simp; omega
          rw [e] at h1
          rw [e'] at h2
          exact ⟨⟨hj, hoj o hs, h1⟩, h2⟩
    · rw [hcfg] at hran hp ho
      refine .inr ⟨[], b, t, rfl, by simp, by simp only [sendAcked, ht], ?_, hsh.trans hbs, hbc.trans hbb, hp, ?_⟩
      · simpa [ackedTrace] using hb.trans hran
      · intro o hs
        have h1 := ho _ (hb.slave o hs)
        rw [Oracle.missesAt_after, sendByteTrace_length] at h1
        exact ⟨trivial, h1⟩

end Sys2Proof.Machine
end

