-- ==== Sys2Proof/Laws/Memory.lean ====
section
/-! SUPPORT. Laws/Memory.lean: the sensor register space: reading what was written, every other register as before, and the
canonical form kept. -/

namespace Sys2Proof.Machine.Regs

theorem valueAt_without_self (m : Regs) (a : Nat) : (without m a).valueAt a = unlisted := by
  induction m with
  | nil => rfl
  | cons e m ih =>
    obtain ⟨k, v⟩ := e
    by_cases h : k = a <;> simp [without, valueAt, h, ih]

theorem valueAt_without_other (m : Regs) {a b : Nat} (hab : b ≠ a) : (without m a).valueAt b = m.valueAt b := by
  induction m with
  | nil => rfl
  | cons e m ih =>
    obtain ⟨k, v⟩ := e
    by_cases h : k = a
    · have hkb : k ≠ b := fun hk => hab (hk ▸ h ▸ rfl)
      simp only [without, h, if_true, ih, valueAt]
      rw [if_neg (h ▸ hkb)]
    · simp [without, valueAt, h, ih]

theorem valueAt_place_self (m : Regs) (a : Nat) (v : Half) (h : ∀ e ∈ m, e.1 ≠ a) : (place a v m).valueAt a = v := by
  induction m with
  | nil => simp [place, valueAt]
  | cons e m ih =>
    obtain ⟨k, u⟩ := e
    have hk : k ≠ a := h (k, u) (by simp)
    by_cases hlt : a < k
    · simp [place, hlt, valueAt]
    · simp [place, hlt, valueAt, hk, ih (fun e he => h e (by simp [he]))]

theorem valueAt_place_other (m : Regs) {a b : Nat} (v : Half) (hab : b ≠ a) :
    (place a v m).valueAt b = m.valueAt b := by
  induction m with
  | nil => simp [place, valueAt, Ne.symm hab]
  | cons e m ih =>
    obtain ⟨k, u⟩ := e
    by_cases hlt : a < k
    · simp [place, hlt, valueAt, Ne.symm hab]
    · simp [place, hlt, valueAt, ih]

theorem mem_without {m : Regs} {a : Nat} {e : Nat × Half} (h : e ∈ without m a) : e ∈ m ∧ e.1 ≠ a := by
  induction m with
  | nil => simp [without] at h
  | cons x m ih =>
    obtain ⟨k, v⟩ := x
    by_cases hk : k = a
    · simp only [without, hk, if_true] at h
      exact ⟨by simp [(ih h).1], (ih h).2⟩
    · simp only [without, hk, if_false, List.mem_cons] at h
      rcases h with rfl | h
      · exact ⟨by simp, hk⟩
      · exact ⟨by simp [(ih h).1], (ih h).2⟩

theorem mem_place {m : Regs} {a : Nat} {v : Half} {e : Nat × Half} (h : e ∈ place a v m) : e = (a, v) ∨ e ∈ m := by
  induction m with
  | nil => simpa [place] using h
  | cons x m ih =>
    obtain ⟨k, u⟩ := x
    by_cases hlt : a < k
    · simpa [place, hlt] using h
    · simp only [place, hlt, if_false, List.mem_cons] at h
      rcases h with rfl | h
      · simp
      · rcases ih h with h | h <;> simp [h]

theorem above_iff (k : Nat) (m : Regs) : above k m = true ↔ ∀ e ∈ m, k < e.1 := by simp [above]

theorem wf_cons_iff (k : Nat) (v : Half) (m : Regs) :
    wf ((k, v) :: m) = true ↔ k < 256 ∧ v ≠ unlisted ∧ (∀ e ∈ m, k < e.1) ∧ wf m = true := by
  simp only [wf, Bool.and_eq_true, decide_eq_true_eq, Bool.not_eq_true', beq_eq_false_iff_ne, ne_eq, above_iff]
  tauto

theorem wf_without {m : Regs} (a : Nat) (h : wf m = true) : wf (without m a) = true := by
  induction m with
  | nil => rfl
  | cons e m ih =>
    obtain ⟨k, v⟩ := e
    rw [wf_cons_iff] at h
    by_cases hk : k = a
    · simpa [without, hk] using ih h.2.2.2
    · simp only [without, hk, if_false, wf_cons_iff]
      exact ⟨h.1, h.2.1, fun e he => h.2.2.1 e (mem_without he).1, ih h.2.2.2⟩

theorem wf_place {m : Regs} {a : Nat} {v : Half} (ha : a < 256) (hv : v ≠ unlisted) (h : wf m = true)
    (hm : ∀ e ∈ m, e.1 ≠ a) : wf (place a v m) = true := by
  induction m with
  | nil => simp only [place, wf_cons_iff]; exact ⟨ha, hv, by simp, rfl⟩
  | cons e m ih =>
    obtain ⟨k, u⟩ := e
    have hk : k ≠ a := hm (k, u) (by simp)
    by_cases hlt : a < k
    · simp only [place, hlt, if_true]
      rw [wf_cons_iff]
      refine ⟨ha, hv, ?_, h⟩
      rw [wf_cons_iff] at h
      intro e he
      rcases List.mem_cons.mp he with rfl | he
      · exact hlt
      · exact Nat.lt_trans hlt (h.2.2.1 e he)
    · rw [wf_cons_iff] at h
      simp only [place, hlt, if_false]
      rw [wf_cons_iff]
      refine ⟨h.1, h.2.1, ?_, ih h.2.2.2 (fun e he => hm e (by simp [he]))⟩
      intro e he
      rcases mem_place he with rfl | he
      · change k < a; omega
      · exact h.2.2.1 e he

/-- A write keeps the canonical form. -/
theorem wf_write {m : Regs} (a : RegAddr) (v : Half) (h : wf m = true) : wf (write m a v) = true := by
  unfold write
  split
  · exact wf_without _ h
  · rename_i hv
    exact wf_place a.isLt hv (wf_without _ h) (fun e he => (mem_without he).2)

/-- A read of the register just written gives the value written. -/
theorem read_write_self (m : Regs) (a : RegAddr) (v : Half) : (m.write a v).read a = v := by
  unfold write read
  split
  · rename_i hv; rw [valueAt_without_self, hv]
  · exact valueAt_place_self _ _ _ (fun e he => (mem_without he).2)

/-- A write leaves every other register alone. -/
theorem read_write_other (m : Regs) {a b : RegAddr} (v : Half) (hab : b ≠ a) : (m.write a v).read b = m.read b := by
  have h : b.toNat ≠ a.toNat := fun h => hab (BitVec.eq_of_toNat_eq h)
  unfold write read
  split
  · exact valueAt_without_other m h
  · rw [valueAt_place_other _ _ h, valueAt_without_other m h]

theorem valueAt_eq_unlisted {m : Regs} {a : Nat} (h : ∀ e ∈ m, e.1 ≠ a) : m.valueAt a = unlisted := by
  induction m with
  | nil => rfl
  | cons e m ih =>
    have hk : e.1 ≠ a := h e (by simp)
    simpa [valueAt, hk] using ih (fun x hx => h x (by simp [hx]))

/-- In canonical form equal register spaces are equal lists. -/
theorem eq_of_valueAt {m n : Regs} (hm : wf m = true) (hn : wf n = true) (h : ∀ a, m.valueAt a = n.valueAt a) : m = n := by
  induction m generalizing n with
  | nil =>
    cases n with
    | nil => rfl
    | cons e n =>
      obtain ⟨k, v⟩ := e
      exact absurd (h k).symm (by simpa [valueAt] using ((wf_cons_iff ..).mp hn).2.1)
  | cons e m ih =>
    obtain ⟨k, v⟩ := e
    obtain ⟨-, hv, habove, hm'⟩ := (wf_cons_iff ..).mp hm
    cases n with
    | nil => exact absurd (h k) (by simpa [valueAt] using hv)
    | cons e n =>
      obtain ⟨j, u⟩ := e
      obtain ⟨-, hu, habove', hn'⟩ := (wf_cons_iff ..).mp hn
      have hj : k = j := by
        rcases Nat.lt_trichotomy k j with hlt | heq | hgt
        · have h0 : Regs.valueAt ((j, u) :: n) k = unlisted := by
            apply valueAt_eq_unlisted
            intro e he
            rcases List.mem_cons.mp he with rfl | he
            · exact Nat.ne_of_gt hlt
            · exact Nat.ne_of_gt (Nat.lt_trans hlt (habove' e he))
          exact absurd ((h k).trans h0) (by simpa [valueAt] using hv)
        · exact heq
        · have h0 : Regs.valueAt ((k, v) :: m) j = unlisted := by
            apply valueAt_eq_unlisted
            intro e he
            rcases List.mem_cons.mp he with rfl | he
            · exact Nat.ne_of_gt hgt
            · exact Nat.ne_of_gt (Nat.lt_trans hgt (habove e he))
          exact absurd ((h j).symm.trans h0) (by simpa [valueAt] using hu)
      subst hj
      have huv : v = u := by simpa [valueAt] using h k
      subst huv
      rw [ih hm' hn']
      intro a
      by_cases ha : k = a
      · subst ha
        rw [valueAt_eq_unlisted (fun e he => Nat.ne_of_gt (habove e he)),
          valueAt_eq_unlisted (fun e he => Nat.ne_of_gt (habove' e he))]
      · simpa [valueAt, ha] using h a

end Sys2Proof.Machine.Regs
end

