-- ==== Sys2Proof/Laws/PerInstr.lean ====
section
/-! SUPPORT. Laws/PerInstr.lean: one lemma per command for the family EncodeRow: the encoded word selects the command's row
of the table of R52. -/

namespace Sys2Proof.Laws.EncodeRow

/-- The word of a command selects its row, and the row carries the command's mnemonic. -/
def Statement (i : Instr) : Prop := (rowOf i).selects (encode i) = true ∧ (rowOf i).mnemonic = i.mnemonic

theorem and_word (op a : Byte) (d : Half) (mo ma : Byte) (md : Half) :
    cmdWord op a d &&& cmdWord mo ma md = cmdWord (op &&& mo) (a &&& ma) (d &&& md) := by
  change (op ++ a ++ d : BitVec (8 + 8 + 16)) &&& (mo ++ ma ++ md : BitVec (8 + 8 + 16)) =
    (op &&& mo) ++ (a &&& ma) ++ (d &&& md)
  rw [BitVec.and_append, BitVec.and_append]

theorem and_zero_byte (a : Byte) : a &&& 0 = 0 := BitVec.and_zero

theorem and_zero_half (d : Half) : d &&& 0 = 0 := BitVec.and_zero

theorem start : Statement .start := ⟨by decide, rfl⟩

theorem stop : Statement .stop := ⟨by decide, rfl⟩

theorem sendbyte (value : Byte) : Statement (.sendbyte value) := by
  refine ⟨?_, rfl⟩
  have h := and_word 0x03 value 0 0xFF 0 0xFFFF
  rw [and_zero_byte] at h
  exact beq_iff_eq.mpr h

theorem waitack : Statement .waitack := ⟨by decide, rfl⟩

theorem sendack (ack : Bit) : Statement (.sendack ack) := ⟨by cases ack <;> decide, rfl⟩

theorem recvbyte (ack : Bit) : Statement (.recvbyte ack) := ⟨by cases ack <;> decide, rfl⟩

theorem wrreg (reg : RegAddr) (value : Half) : Statement (.wrreg reg value) := by
  refine ⟨?_, rfl⟩
  have h := and_word 0x10 reg value 0xFF 0 0
  rw [and_zero_byte, and_zero_half] at h
  exact beq_iff_eq.mpr h

theorem rdreg (reg : RegAddr) : Statement (.rdreg reg) := by
  refine ⟨?_, rfl⟩
  have h := and_word 0x11 reg 0 0xFF 0 0xFFFF
  rw [and_zero_byte] at h
  exact beq_iff_eq.mpr h

end Sys2Proof.Laws.EncodeRow
end

