-- ==== Sys2Proof/Laws/Step.lean ====
section
/-! SUPPORT. Laws/Step.lean: what the end of a command, `exec`, an engine step and a step can do, said once. -/

namespace Sys2Proof.Machine

/-! ### The end of a command -/

@[simp] theorem complete_ended (s : State) : Ended (complete s) := ⟨rfl, rfl, rfl⟩

@[simp] theorem takeFault_timedOut (s : State) : TimedOut (takeFault .busAcknowledgeTimeout s) := ⟨rfl, rfl, rfl⟩

theorem complete_fields (s : State) : (complete s).pins = s.pins ∧ (complete s).shift = s.shift ∧
    (complete s).bitcnt = s.bitcnt ∧ (complete s).pollcnt = s.pollcnt ∧ (complete s).hold = s.hold ∧
    (complete s).result = s.result ∧ (complete s).sample = s.sample ∧ (complete s).slave = s.slave ∧
    (complete s).trace = s.trace ∧ (complete s).cfg = s.cfg ∧ (complete s).pending = s.pending ∧
    (complete s).returned = s.returned := ⟨rfl, rfl, rfl, rfl, rfl, rfl, rfl, rfl, rfl, rfl, rfl, rfl⟩

theorem takeFault_fields (c : FaultCause) (s : State) : (takeFault c s).pins = s.pins ∧
    (takeFault c s).shift = s.shift ∧ (takeFault c s).bitcnt = s.bitcnt ∧ (takeFault c s).pollcnt = s.pollcnt ∧
    (takeFault c s).hold = s.hold ∧ (takeFault c s).result = s.result ∧ (takeFault c s).sample = s.sample ∧
    (takeFault c s).slave = s.slave ∧ (takeFault c s).trace = s.trace ∧ (takeFault c s).cfg = s.cfg ∧
    (takeFault c s).pending = s.pending ∧ (takeFault c s).returned = s.returned :=
  ⟨rfl, rfl, rfl, rfl, rfl, rfl, rfl, rfl, rfl, rfl, rfl, rfl⟩

/-- The state a command ends in. -/
def execState (i : Instr) (s : State) : State :=
  match i with
  | .start => complete (start s)
  | .stop => complete (stop s)
  | .sendbyte v => complete (sendByte v s)
  | .waitack => endWaitAck (waitAck s)
  | .sendack k => complete (sendAck k s)
  | .recvbyte k => endRecvByte (recvByte k s)
  | .wrreg reg value => endWrite (sendAcked (writeBytes s.cfg reg value) (start s))
  | .rdreg reg => endPointer (sendAcked [writeAddress s.cfg, reg] (start s))

/-- No command stops: each one's meaning is a next state. -/
theorem exec_eq (i : Instr) (s : State) : exec i s = .next (execState i s) := by cases i <;> rfl

/-! ### One engine step -/

/-- What an engine step that answers a next state did: it waited with no command in progress, or it performed exactly the
micro-operation at `SEQ`, in the direction it needs, and advanced. -/
theorem engineStep_cases {s t : State} (h : engineStep s = .next t) :
    (s.seq = none ∧ t = s) ∨
      (∃ q p op, s.seq = some q ∧ (primitives s.cfg q.cmd)[q.prim]? = some p ∧
        (p.lines s.shift)[q.uop]? = some op ∧ perform op s = .next (emit op s) ∧ t = advance q p (emit op s)) := by
  unfold engineStep at h
  split at h
  · next hq => exact .inl ⟨hq, by simpa using h.symm⟩
  · next q hq =>
    split at h
    · cases h
    · next p hp =>
      unfold performAt at h
      split at h
      · cases h
      · next op hop =>
        rcases perform_cases op s with ⟨hperf, -, -⟩ | ⟨hperf, -, -⟩ | ⟨hperf, -, -⟩
        · rw [hperf] at h
          exact .inr ⟨q, p, op, hq, hp, hop, hperf, by simpa using h.symm⟩
        · rw [hperf] at h; cases h
        · rw [hperf] at h; cases h

/-! ### The step -/

/-- What a step that answers a next state did (R20, R115, R116). -/
theorem step_cases {s t : State} (h : step s = .next t) :
    (∃ rest, s.pending = .reset :: rest ∧ t = hardReset (s.setPending rest)) ∨
      (s.seq ≠ none ∧ engineStep s = .next t) ∨
      (s.seq = none ∧ s.pending = [] ∧ t = s) ∨
      (∃ w rest, s.seq = none ∧ s.pending = .write .cmd w :: rest ∧ runCommand w (s.setPending rest) = .next t) ∨
      (∃ w rest, s.seq = none ∧ s.pending = .issue w :: rest ∧ t = issueCommand w (s.setPending rest)) ∨
      (∃ r rest, s.seq = none ∧ s.pending = .read r :: rest ∧ readRegister r (s.setPending rest) = .next t) := by
  unfold step move at h
  split at h
  · next rest hp => exact .inl ⟨rest, hp, by simpa using h.symm⟩
  · next hq _ => exact .inr (.inl ⟨by simp [hq], h⟩)
  · next hp hq => exact .inr (.inr (.inl ⟨hq, hp, by simpa using h.symm⟩))
  · next o rest hne hp hq =>
    cases o with
    | write r w =>
      cases r with
      | cmd => exact .inr (.inr (.inr (.inl ⟨w, rest, hq, hp, h⟩)))
      | result => cases h
      | status => cases h
    | issue w => exact .inr (.inr (.inr (.inr (.inl ⟨w, rest, hq, hp, by simpa [serve] using h.symm⟩))))
    | read r => exact .inr (.inr (.inr (.inr (.inr ⟨r, rest, hq, hp, h⟩))))
    | reset => exact absurd rfl hne

end Sys2Proof.Machine
end

