-- ==== Sys2Proof/Machine/Assembler.lean ====
section
/-! DEFINITION. Machine/Assembler.lean: the assembler lines of 30_encoding.md rule R56: mnemonic in capitals, operands
separated by commas, numbers in hexadecimal with `0x` or in decimal, `;` starts a comment, and the two
pseudo-commands. -/

namespace Sys2Proof.Machine

/-- A line of a program (R56). -/
inductive AsmLine where
  /-- Nothing but spaces and a comment. -/
  | blank
  | command (i : Instr)
  | pseudo (p : Pseudo)
deriving DecidableEq, Repr

/-- The line up to its comment. -/
def dropComment : List Char → List Char
  | [] => []
  | c :: cs => if c = ';' then [] else c :: dropComment cs

/-- Without leading spaces. -/
def dropSpaces : List Char → List Char
  | [] => []
  | c :: cs => if c = ' ' then dropSpaces cs else c :: cs

/-- Without spaces on either side. -/
def trimSpaces (cs : List Char) : List Char := (dropSpaces (dropSpaces cs).reverse).reverse

/-- The pieces between the separators `sep`. -/
def pieces (sep : Char) : List Char → List Char → List (List Char)
  | cur, [] => [cur.reverse]
  | cur, c :: cs => if c = sep then cur.reverse :: pieces sep [] cs else pieces sep (c :: cur) cs

/-- The value of a digit in a base of at most 16. -/
def digitValue (base : Nat) (c : Char) : Option Nat :=
  let v :=
    if '0' ≤ c ∧ c ≤ '9' then c.toNat - '0'.toNat
    else if 'a' ≤ c ∧ c ≤ 'f' then c.toNat - 'a'.toNat + 10
    else if 'A' ≤ c ∧ c ≤ 'F' then c.toNat - 'A'.toNat + 10
    else base
  if v < base then some v else none

/-- Digits in a base, most-significant first. -/
def digitsValue (base : Nat) : Nat → List Char → Option Nat
  | acc, [] => some acc
  | acc, c :: cs =>
    match digitValue base c with
    | some v => digitsValue base (acc * base + v) cs
    | none => none

/-- A number, hexadecimal with `0x` or decimal. -/
def numberValue : List Char → Option Nat
  | [] => none
  | ['0', 'x'] => none
  | '0' :: 'x' :: cs => digitsValue 16 0 cs
  | cs => digitsValue 10 0 cs

/-- A number that fits `width` bits. -/
def operandValue (width : Nat) (cs : List Char) : Option (BitVec width) :=
  match numberValue (trimSpaces cs) with
  | some v => if v < 2 ^ width then some (BitVec.ofNat width v) else none
  | none => none

/-- A mnemonic with its operands. -/
def assembleParts (mnemonic : List Char) (operands : List (List Char)) : Option AsmLine :=
  match operands with
  | [] =>
    if mnemonic = "START".toList then some (.command .start)
    else if mnemonic = "STOP".toList then some (.command .stop)
    else if mnemonic = "WAITACK".toList then some (.command .waitack)
    else none
  | [a] =>
    if mnemonic = "SENDBYTE".toList then (operandValue 8 a).map fun v => .command (.sendbyte v)
    else if mnemonic = "SENDACK".toList then (operandValue 1 a).map fun v => .command (.sendack (v.getLsbD 0))
    else if mnemonic = "RECVBYTE".toList then (operandValue 1 a).map fun v => .command (.recvbyte (v.getLsbD 0))
    else if mnemonic = "RDREG".toList then (operandValue 8 a).map fun v => .command (.rdreg v)
    else if mnemonic = "READ16".toList then (operandValue 8 a).map fun v => .pseudo (.read16 v)
    else none
  | [a, b] =>
    match operandValue 8 a, operandValue 16 b with
    | some r, some v =>
      if mnemonic = "WRREG".toList then some (.command (.wrreg r v))
      else if mnemonic = "WRITE16".toList then some (.pseudo (.write16 r v))
      else none
    | _, _ => none
  | _ => none

/-- One line of a program; none where it is no line of R56. -/
def assembleLine (line : List Char) : Option AsmLine :=
  let cs := trimSpaces (dropComment line)
  match pieces ' ' [] cs with
  | [] => some .blank
  | [[]] => some .blank
  | [m] => assembleParts m []
  | m :: _ => assembleParts m (pieces ',' [] (cs.drop m.length))

/-- The commands a line stands for (R56). -/
def AsmLine.commands (cfg : Config) : AsmLine → List Instr
  | .blank => []
  | .command i => [i]
  | .pseudo p => expand cfg p

end Sys2Proof.Machine
end

