-- ==== Sys2Proof/Tests/Slice0.lean ====
section
/-! SUPPORT. Tests/Slice0.lean: the model's own tests: words, small vectors of 95_test_vectors.md (one step each), the
ill-formed sequences, and a witness for every statement that has hypotheses. -/

namespace Sys2Proof.Tests

open Sys2Proof.Machine

/-! ### Helpers -/

/-- The example configuration of 95_test_vectors.md (`SLAVE_ADDR = 0x44`), with a bound of its own. -/
def exampleConfig (bound : PollBound) : Config := ⟨0x44, bound, .one, .two, .one, .one, .two, false, true⟩

/-- `ACK_POLL_BOUND = 250`. -/
def bound250 : PollBound := ⟨250, by decide⟩

/-- A small bound. -/
def bound2 : PollBound := ⟨2, by decide⟩

/-- The engine after reset with a configuration and a slave. -/
def engine (cfg : Config) (v : Slave) : State := { State.reset with cfg := cfg, slave := v }

/-- The reference slave at `0x44`, at rest, holding `regs`. -/
def sensor (regs : Regs) : Sensor := ⟨0x44, true, none, regs, .idle, 0, 0, 0, 0, 0, [], 0, false, false, true⟩

/-- The engine with the reference slave. -/
def onSensor (regs : Regs) : State := engine (exampleConfig bound250) (.sensor (sensor regs))

/-- The engine with a scripted slave. -/
def scripted (bound : PollBound) (bits : List Bit) : State := engine (exampleConfig bound) (.oracle ⟨true, bits, 0⟩)

/-- The next state of an outcome. -/
def nextOf (o : Host.Outcome State Fault Refusal) : Option State :=
  match o with
  | .next s => some s
  | .fault _ => none
  | .refused _ => none

/-- The clock driven low. -/
def clockLow (s : State) : State := { s with pins := ⟨false, true, .output⟩ }

/-! ### Words (V18, V19, R52) -/

theorem test_decode_start : decode 0x01000000 = .ok .start := by decide
theorem test_decode_stop : decode 0x02000000 = .ok .stop := by decide
theorem test_decode_sendbyte : decode 0x03880000 = .ok (.sendbyte 0x88) := by decide
theorem test_decode_waitack : decode 0x04000000 = .ok .waitack := by decide
theorem test_decode_sendack : decode 0x05010000 = .ok (.sendack true) := by decide
theorem test_decode_recvbyte : decode 0x06000000 = .ok (.recvbyte false) := by decide
theorem test_decode_wrreg : decode 0x1001C410 = .ok (.wrreg 0x01 0xC410) := by decide
theorem test_decode_rdreg : decode 0x117F0000 = .ok (.rdreg 0x7F) := by decide

/-- The ten illegal words of V19. -/
theorem test_decode_illegal :
    [0x00000000, 0x07000000, 0x12000000, 0xFFFFFFFF].map decode =
      [.error (.reservedOp 0x00), .error (.reservedOp 0x07), .error (.reservedOp 0x12), .error (.reservedOp 0xFF)] ∧
    [0x01000001, 0x01010000, 0x03880001, 0x05020000, 0x06FF0000, 0x11000001].map decode =
      [.error (.operandNotZero 0x01), .error (.operandNotZero 0x01), .error (.operandNotZero 0x03),
        .error (.operandNotZero 0x05), .error (.operandNotZero 0x06), .error (.operandNotZero 0x11)] := by decide

theorem test_encode_wrreg : encode (.wrreg 0xFF 0xFFFF) = 0x10FFFFFF := by decide
theorem test_encode_recvbyte : encode (.recvbyte true) = 0x06010000 := by decide

/-- No two rows of R52 overlap: two masks have a common bit where the patterns differ. -/
theorem test_rows_disjoint :
    opcodeTable.Pairwise fun r q => r.pattern &&& q.mask ≠ q.pattern &&& r.mask := by decide

theorem test_table_word : decodeTableWord 32 0x05010000 = some (.sendack true) := by decide

/-- V17. -/
theorem test_address_bytes : writeAddress (exampleConfig bound250) = 0x88 ∧ readAddress (exampleConfig bound250) = 0x89 := by
  decide

theorem test_assemble_wrreg : assembleLine "WRREG 0x01, 0xC410 ; configure".toList =
    some (.command (.wrreg 0x01 0xC410)) := by decide +kernel

theorem test_assemble_pseudo : (assembleLine "READ16 127".toList).map (AsmLine.commands (exampleConfig bound250)) =
    some (expand (exampleConfig bound250) (.read16 0x7F)) := by decide +kernel

/-! ### Ill-formed sequences are refused (R125 to R128) -/

theorem smoke_well_formed : wellFormedSequence (exampleConfig bound250)
    [.start, .sendbyte 0x88, .waitack, .sendbyte 0x7F, .waitack, .start, .sendbyte 0x89, .waitack, .recvbyte true,
      .recvbyte false, .stop, .wrreg 1 2, .rdreg 1] = true := by decide

theorem smoke_no_start : wellFormedSequence (exampleConfig bound250) [.sendbyte 0x88, .waitack, .stop] = false := by decide
theorem smoke_no_waitack : wellFormedSequence (exampleConfig bound250) [.start, .sendbyte 0x88, .sendbyte 0, .stop] = false := by
  decide
theorem smoke_no_stop : wellFormedSequence (exampleConfig bound250) [.start, .sendbyte 0x88, .waitack] = false := by decide
theorem smoke_read_without_read_bit :
    wellFormedSequence (exampleConfig bound250) [.start, .sendbyte 0x88, .waitack, .recvbyte false, .stop] = false := by decide
theorem smoke_last_byte_acknowledged :
    wellFormedSequence (exampleConfig bound250) [.start, .sendbyte 0x89, .waitack, .recvbyte true, .stop] = false := by decide
theorem smoke_transaction_in_frame : wellFormedSequence (exampleConfig bound250) [.start, .rdreg 0, .stop] = false := by decide

/-- Every command is well formed by its type. -/
theorem smoke_instr : (Instr.wrreg 0xFF 0xFFFF).wellFormed = true := by decide

/-! ### One step each -/

/-- V1: the wire of `START` from `Idle`. -/
theorem test_start_wire : (nextOf (exec .start (onSensor []))).map State.wires =
    some [⟨true, true⟩, ⟨true, true⟩, ⟨true, true⟩, ⟨true, true⟩, ⟨true, false⟩, ⟨false, false⟩] := by decide

/-- V4: the wire of `STOP` from `Idle`. -/
theorem test_stop_wire : (nextOf (exec .stop (onSensor []))).map State.wires =
    some [⟨false, true⟩, ⟨false, true⟩, ⟨false, false⟩, ⟨true, false⟩, ⟨true, false⟩, ⟨true, true⟩] := by decide

/-- V6: the levels driven for 0xA5. -/
theorem test_sendbyte_levels :
    (nextOf (exec (.sendbyte 0xA5) (clockLow (onSensor [])))).map (fun t =>
      t.events.filterMap fun e => match e with
        | .dat b => some b
        | .dirOut | .dirIn | .clk _ | .read _ | .wait _ => none) =
    some [true, false, true, false, false, true, false, true] := by decide +kernel

/-- V11: an acknowledge at the third sample. -/
theorem test_waitack_third_sample :
    (nextOf (exec .waitack (clockLow (scripted bound250 [false, false, true, true, true, true, false, true])))).map
      (fun t => (t.events, t.err, t.pollcnt)) =
    some ([.dirIn, .clk true, .read true, .wait .tPoll, .read true, .wait .tPoll, .read false, .clk false], false, 2) := by
  decide +kernel

/-- V13 with a bound of 2: the timeout, and the late answer that is never asked for. -/
theorem test_waitack_timeout :
    (nextOf (exec .waitack (clockLow (scripted bound2 [true, true, true, true, true, true, false])))).map
      (fun t => (t.trace.length, t.err, t.cause, t.pollcnt, t.pins)) = some (12, true, 1, 2, Pins.idle) := by
  decide +kernel

/-- V14 and V15: acknowledge drives low. -/
theorem test_sendack_level : (nextOf (exec (.sendack true) (clockLow (onSensor [])))).map (fun t => t.events[1]?) =
    some (some (.dat false)) ∧
    (nextOf (exec (.sendack false) (clockLow (onSensor [])))).map (fun t => t.events[1]?) = some (some (.dat true)) := by
  decide

/-- V16: the first answer is bit 7 (0x80), here with every other contribution high. -/
theorem test_recvbyte_first_bit : (nextOf (exec (.recvbyte true) (clockLow (scripted bound250
    ([true, true, true, true] ++ List.replicate 44 false))))).map (fun t => (t.result, t.trace.length)) =
    some (some 0x0080, 48) := by decide +kernel

/-- V20. -/
theorem test_wrreg_stores : (nextOf (exec (.wrreg 0x01 0xC410) (onSensor []))).map
    (fun t => (t.trace.length, t.err, t.slave.level, match t.slave with | .sensor r => r.regs | .oracle _ => [])) =
    some (192, false, true, [(1, 0xC410)]) := by decide +kernel

/-- V22: nobody answers. -/
theorem test_wrreg_unanswered : (nextOf (exec (.wrreg 0x01 0xC410) (engine (exampleConfig bound250)
    (.sensor { sensor [] with present := false })))).map (fun t => (t.trace.length, t.cause, symbolsOf t.wires)) =
    some (555, 1, unansweredFrame (exampleConfig bound250)) := by decide +kernel

/-- V21. -/
theorem test_rdreg_reads : (nextOf (exec (.rdreg 0x00) (onSensor [(0, 0x1A2B)]))).map
    (fun t => (t.trace.length, t.result, t.err)) = some (249, some 0x1A2B, false) := by decide +kernel

/-- V28: the third acknowledge refused. -/
theorem test_rdreg_third_refused : (nextOf (exec (.rdreg 0x00) (engine (exampleConfig bound250)
    (.sensor { sensor [] with refuse := some 3 })))).map (fun t => (t.trace.length, t.result, t.err, t.pins)) =
    some (651, some 0xFFFF, true, Pins.idle) := by decide +kernel

/-- The step after placing a word runs it (V20 again, from the host's side). -/
theorem test_step_runs_placed_word :
    (nextOf (step ((onSensor []).withFetchWord 32 0x1001C410))).map (fun t => (t.trace.length, t.pending)) =
    some (192, []) := by decide +kernel

/-- V19, first word: `ERR = 1`, `CAUSE = 2`, no micro-operation. -/
theorem test_step_illegal : (nextOf (step ((onSensor []).withFetchWord 32 0))).map (fun t => (t.trace, t.err, t.cause)) =
    some ([], true, 2) := by decide

/-- R22, R23: the `STATUS` word of a timeout. -/
theorem test_status_word : statusWord true 1 = 0x00000003 ∧ statusWord true 2 = 0x00000005 := by decide

/-- R116: a reset in mid-command. -/
theorem test_reset_mid_command :
    (nextOf (step { clockLow (onSensor []) with seq := some ⟨.stop, 0, 3⟩, pending := [.reset] })).map
      (fun t => (t.pins, t.seq)) = some (Pins.idle, none) := by decide

/-- R60: one engine step is one micro-operation. -/
theorem test_engine_step : (nextOf (step { onSensor [] with seq := some ⟨.start, 0, 4⟩ })).map
    (fun t => (t.events, t.seq)) = some ([.dat false], some ⟨.start, 0, 5⟩) := by decide

/-- P1: two transactions on the reference slave keep the invariant, the `P` of the first and the `S` of the second standing
in one clock-high period (R57). -/
theorem test_timing_kept : (nextOf (issueAll [.wrreg 0x01 0xC410, .rdreg 0x01] (onSensor []))).map
    (fun t => keepsTimingInvariant t.trace.reverse) = some true := by decide +kernel

/-- R57: an acknowledge in mid-poll is a spurious `S` of the slave's, and so breaks the invariant; a release and a pull in
one clock-high period (a glitch of the slave's) breaks it too. -/
theorem test_timing_broken :
    (nextOf (exec .waitack (clockLow (scripted bound250 [false, false, true, true, false, false])))).map
      (fun t => keepsTimingInvariant t.trace.reverse) = some false ∧
    keepsTimingInvariant [⟨.clk true, ⟨true, false⟩⟩, ⟨.wait .tHigh, ⟨true, true⟩⟩, ⟨.wait .tHigh, ⟨true, false⟩⟩,
      ⟨.clk false, ⟨false, false⟩⟩] = false := by decide +kernel

/-- Nine bits outside a frame are nine plain bits (log entry 17). -/
theorem test_bits_outside_frame :
    symbolsOf ((List.replicate 9 [⟨false, true⟩, ⟨true, true⟩, ⟨false, true⟩]).flatten) =
      List.replicate 9 (.bit true) := by decide

/-! ### Witnesses: states that meet the hypotheses of the statements -/

/-- StepRunsTheDecodedCommand. -/
theorem witness_step_runs : ((onSensor []).setPending [.write .cmd 0x01000000]).seq = none ∧
    ((onSensor []).setPending [.write .cmd 0x01000000]).pending = [.write .cmd 0x01000000] ∧
    decode 0x01000000 = .ok .start := by decide

/-- PlacedWordRunsNext. -/
theorem witness_placed_word : decodeTableWord 32 0x117E0000 = some (.rdreg 0x7E) := by decide

/-- DecodeAcceptsExactlyTheTable: a word that decodes and selects a row. -/
theorem witness_row_selected : decode 0x03FF0000 = .ok (.sendbyte 0xFF) ∧ (rowOf (.sendbyte 0)) ∈ opcodeTable ∧
    (rowOf (.sendbyte 0)).selects 0x03FF0000 = true := by decide

/-- IllegalWordTakesIllegalCommand, both ways of writing, and StatusAfterEveryCommand's first part. -/
theorem witness_illegal_word : (∀ r ∈ opcodeTable, r.selects 0x05020000 = false) ∧
    (((onSensor []).setPending [.write .cmd 0x05020000]).seq = none ∧
      ((onSensor []).setPending [.write .cmd 0x05020000]).pending = [.write .cmd 0x05020000]) ∧
    (((onSensor []).setPending [.issue 0x05020000]).seq = none ∧
      ((onSensor []).setPending [.issue 0x05020000]).pending = [.issue 0x05020000]) := by decide

/-- HostIsBlockedWhileACommandRuns and EngineStepIsOneMicroOperation: a command runs, a read waits, the step answers. -/
theorem witness_blocked :
    let s := { onSensor [] with seq := some ⟨.start, 0, 0⟩, pending := [.read .status] }
    s.seq = some ⟨.start, 0, 0⟩ ∧ (nextOf (step s)).map State.pending = some [.read .status] ∧
      (nextOf (engineStep s)).isSome = true := by decide

/-- HostReadsOfTheRegisters, each clause. -/
theorem witness_host_reads :
    ((onSensor []).setPending [.read .status]).seq = none ∧ ((onSensor []).setPending [.read .result]).result = none ∧
    (((onSensor []).setResult 0xBEEF).setPending [.read .result]).result = some 0xBEEF ∧
    (nextOf (step ((onSensor []).setPending [.read .status]))).map State.returned = some [.word 0] ∧
    (nextOf (step (((onSensor []).setResult 0xBEEF).setPending [.read .result]))).map State.returned =
      some [.word 0xBEEF] ∧
    (nextOf (step ((onSensor []).setPending [.read .result]))).map State.returned = some [.unwrittenResult] ∧
    (nextOf (step ((onSensor []).setPending [.read .cmd]))).isSome = false := by decide

/-- EngineWaitsForTheHost. -/
theorem witness_waits : State.reset.seq = none ∧ State.reset.pending = [] := by decide

/-- HardResetAtAnyMoment. -/
theorem witness_hard_reset :
    ({ onSensor [] with seq := some ⟨.stop, 0, 3⟩, pending := [.reset, .read .status] } : State).pending =
      .reset :: [.read .status] := by decide

/-- ReadAnswersTheDataWire and SequencerRefusesMisuse: both directions occur. -/
theorem witness_directions : (onSensor []).pins.sdaDir = .output ∧ (emit .dirIn (onSensor [])).pins.sdaDir = .input := by
  decide

/-- The engine with an oracle, the bound being 2. -/
def withOracle (o : Oracle) : State := engine (exampleConfig bound2) (.oracle o)

/-- An oracle of a script. -/
def script (bits : List Bit) : Oracle := ⟨true, bits, 0⟩

/-- `n` lows, then `m` highs, then lows. -/
def lowHighLow (n m : Nat) : Oracle := script (List.replicate n false ++ List.replicate m true ++ List.replicate 250 false)

/-- RecvbyteReadsTheSlavesBits: a scripted slave, and the byte it gives. -/
theorem witness_scripted_byte : (withOracle (lowHighLow 0 4)).slave = .oracle (lowHighLow 0 4) ∧
    (lowHighLow 0 4).byteAt 3 = 0x80 := by decide +kernel

/-- WaitackSeesTheAcknowledge at the first sample and at the last that can succeed. -/
theorem witness_ack_at_first_and_last_sample :
    ((withOracle (lowHighLow 2 0)).slave = .oracle (lowHighLow 2 0) ∧
      0 < (withOracle (lowHighLow 2 0)).cfg.ackPollBound.val ∧ (lowHighLow 2 0).acksAt 2 0) ∧
    ((withOracle (lowHighLow 2 2)).slave = .oracle (lowHighLow 2 2) ∧
      1 < (withOracle (lowHighLow 2 2)).cfg.ackPollBound.val ∧ (lowHighLow 2 2).acksAt 2 1) := by
  simp only [Oracle.acksAt]
  decide +kernel

/-- QuietSlaveAddsNoCondition and TimingInvariantHoldsForAQuietSlave: a slave that pulls the line low with the clock low, through a whole `START` entered with
the clock low. -/
theorem witness_quiet_slave :
    let s := clockLow (withOracle (script [false, false, false, false, false, false]))
    cleanEntry .start s ∧ s.slave = .oracle (script [false, false, false, false, false, false]) ∧
    (script [false, false, false, false, false, false]).quiet s.pins.sclOut (script []).level 0
      [⟨false, false⟩, ⟨false, false⟩, ⟨true, false⟩, ⟨true, false⟩, ⟨true, false⟩, ⟨false, false⟩] ∧
    (nextOf (exec .start s)).map State.wires = some
      [⟨false, false⟩, ⟨false, false⟩, ⟨true, false⟩, ⟨true, false⟩, ⟨true, false⟩, ⟨false, false⟩] := by
  simp only [cleanEntry, Oracle.quiet, and_true]
  decide +kernel

/-- WaitackTakesTheTimeout. -/
theorem witness_missed : (withOracle (lowHighLow 2 3)).slave = .oracle (lowHighLow 2 3) ∧
    (lowHighLow 2 3).missesAt 2 (withOracle (lowHighLow 2 3)).cfg.ackPollBound.val := by
  simp only [Oracle.missesAt]
  decide +kernel

/-- StuckLineReadsZeroWithoutError. -/
theorem witness_stuck_line : (withOracle (lowHighLow 0 0)).slave = .oracle (lowHighLow 0 0) ∧
    ∀ k, k < 249 → (lowHighLow 0 0).upcoming k = false := by decide +kernel

/-- WrregCompletesWhenAcknowledged: the first acknowledge at the last sample that can succeed, the others at the first. -/
theorem witness_wrreg_acks : (withOracle (lowHighLow 49 1)).slave = .oracle (lowHighLow 49 1) ∧
    (lowHighLow 49 1).acksFrom (withOracle (lowHighLow 49 1)).cfg.ackPollBound.val 49 [1, 0, 0, 0] := by
  simp only [Oracle.acksFrom, Oracle.acksAt, and_true]
  decide +kernel

/-- RdregReturnsTheSlavesBytes: the third acknowledge at the last sample that can succeed. -/
theorem witness_rdreg_acks : (withOracle (lowHighLow 145 1)).slave = .oracle (lowHighLow 145 1) ∧
    (lowHighLow 145 1).acksFrom (withOracle (lowHighLow 145 1)).cfg.ackPollBound.val 49 [0, 0] ∧
    (lowHighLow 145 1).acksFrom (withOracle (lowHighLow 145 1)).cfg.ackPollBound.val (145 + 2 * (0 + 0)) [1] := by
  simp only [Oracle.acksFrom, Oracle.acksAt, and_true]
  decide +kernel

/-- WrregAbortsAtTheMissingAcknowledge, at the first acknowledge and at the fourth. -/
theorem witness_wrreg_aborts :
    ((withOracle (lowHighLow 49 3)).slave = .oracle (lowHighLow 49 3) ∧
      (writeBytes (withOracle (lowHighLow 49 3)).cfg 1 2)[0]? = some 0x88 ∧
      (lowHighLow 49 3).acksFrom (withOracle (lowHighLow 49 3)).cfg.ackPollBound.val 49 [] ∧
      (lowHighLow 49 3).missesAt (49 + 45 * 0 + 2 * 0) (withOracle (lowHighLow 49 3)).cfg.ackPollBound.val) ∧
    ((withOracle (lowHighLow 184 3)).slave = .oracle (lowHighLow 184 3) ∧
      (writeBytes (withOracle (lowHighLow 184 3)).cfg 1 2)[3]? = some 2 ∧
      (lowHighLow 184 3).acksFrom (withOracle (lowHighLow 184 3)).cfg.ackPollBound.val 49 [0, 0, 0] ∧
      (lowHighLow 184 3).missesAt (49 + 45 * 3 + 2 * 0) (withOracle (lowHighLow 184 3)).cfg.ackPollBound.val) := by
  simp only [Oracle.acksFrom, Oracle.acksAt, Oracle.missesAt, and_true, true_and]
  decide +kernel

/-- RdregAbortsAtTheReadAddress. -/
theorem witness_rdreg_aborts : (withOracle (lowHighLow 145 3)).slave = .oracle (lowHighLow 145 3) ∧
    (lowHighLow 145 3).acksFrom (withOracle (lowHighLow 145 3)).cfg.ackPollBound.val 49 [0, 0] ∧
    (lowHighLow 145 3).missesAt (145 + 2 * (0 + 0)) (withOracle (lowHighLow 145 3)).cfg.ackPollBound.val := by
  simp only [Oracle.acksFrom, Oracle.acksAt, Oracle.missesAt, and_true]
  decide +kernel

/-- OnlyStartAndStopMakeConditions: a clean entry of every kind. -/
theorem witness_clean_entry :
    cleanEntry .start (onSensor []) ∧ cleanEntry .start (clockLow (onSensor [])) ∧ cleanEntry .stop (onSensor []) ∧
    cleanEntry (.sendbyte 1) (clockLow (onSensor [])) ∧ cleanEntry .waitack (clockLow (onSensor [])) ∧
    cleanEntry (.sendack true) (clockLow (onSensor [])) ∧ cleanEntry (.recvbyte true) (clockLow (onSensor [])) ∧
    cleanEntry (.wrreg 1 2) (onSensor []) ∧ cleanEntry (.rdreg 1) (onSensor []) := by
  simp only [cleanEntry]
  decide

/-- The statements about the reference slave and the boot sequence. -/
theorem witness_sensor_ready : (onSensor [(1, 0xC410)]).Idle ∧
    (onSensor [(1, 0xC410)]).slave = .sensor (sensor [(1, 0xC410)]) ∧
    (sensor [(1, 0xC410)]).ready (exampleConfig bound250) ∧ standardBits (exampleConfig bound250) := by
  unfold Sensor.ready standardBits; decide

/-- RegistersChangeOnlyByACompletedWrite, both clauses: the end of a low byte's acknowledge pulse, and a slave at rest. -/
theorem witness_register_frame :
    let r : Sensor := { sensor [] with phase := .rxLo, n := 9, ptr := 1, hi := 0xC4, sh := 0x10, inFrame := true }
    let s : State := { onSensor [] with slave := .sensor r }
    (s.slave = .sensor r ∧ s.pins.sclOut = true ∧ r.present = true ∧ r.phase = .rxLo ∧ r.n = 9) ∧
      (onSensor []).slave = .sensor (sensor []) ∧ ¬ (sensor []).n = 9 := by decide

/-- BootSequenceReportsTheReadBack: the boot sequence answers. -/
theorem witness_boot : (match bootSensor 0xC410 (onSensor []) with
    | .next (_, ok) => some ok
    | .fault _ => none
    | .refused _ => none) = some true := by decide +kernel

/-- WellFormedSequencesEndIdle. -/
theorem witness_well_formed : (onSensor []).Idle ∧
    wellFormedSequence (onSensor []).cfg [.start, .sendbyte 0x88, .waitack, .stop] = true := by decide

/-- StepKeepsSafe and SafeEngineIsNeverStopped: a state in the middle of a poll that meets the invariant. -/
theorem witness_safe_in_mid_poll :
    let s : State := { onSensor [] with seq := some ⟨.waitack, 0, 2⟩, pins := ⟨true, true, .input⟩ }
    Safe s ∧ s.seq = some ⟨.waitack, 0, 2⟩ ∧ (nextOf (step s)).isSome = true := by
  refine ⟨⟨by decide, by decide, .inl ⟨rfl, rfl⟩, ⟨by decide, ?_, ?_⟩, ?_, ⟨by decide, by decide⟩⟩, rfl, by decide⟩
  · intro d hd
    cases d
    · rfl
    · cases hd
  · intro _; decide
  · intro e he; cases he

/-- ReadWithoutErrorIsNeverTheSentinel: a read that ends without error exists. -/
theorem witness_read_without_error : (nextOf (exec (.rdreg 0x00) (onSensor [(0, 0x1A2B)]))).map State.err = some false := by
  decide +kernel

end Sys2Proof.Tests
end

section
/-! PROOFS. The sequencer and the state (10_state.md, 40_pin_microops.md rule R60): what the bookkeeping between two
micro-operations leaves alone; the refinement of every command's meaning by engine steps; from it the commands' frames and
the invariant `Safe`; reset and the host's accesses. -/

namespace Sys2Proof.Machine

/-! ### The bookkeeping between two micro-operations -/

/-- What the sequencer's bookkeeping between two micro-operations leaves alone: the pins, the slave, the trace, the
parameters and the host's side.  What is left to it is the registers, `STATUS` and `SEQ`. -/
structure OnlyBookkept (s t : State) : Prop where
  pins : t.pins = s.pins
  slave : t.slave = s.slave
  trace : t.trace = s.trace
  cfg : t.cfg = s.cfg
  pending : t.pending = s.pending
  returned : t.returned = s.returned

theorem OnlyBookkept.refl (s : State) : OnlyBookkept s s := ⟨rfl, rfl, rfl, rfl, rfl, rfl⟩

theorem OnlyBookkept.trans {s t u : State} (h : OnlyBookkept s t) (k : OnlyBookkept t u) : OnlyBookkept s u :=
  ⟨k.pins.trans h.pins, k.slave.trans h.slave, k.trace.trans h.trace, k.cfg.trans h.cfg,
    k.pending.trans h.pending, k.returned.trans h.returned⟩

/-- Between two lines of a primitive only `SHIFT`, `BITCNT` and `POLLCNT` are written (R27). -/
theorem after_writes_counters (p : Prim) (n : Nat) (s : State) :
    (p.after n s).1 = { s with
      shift := (p.after n s).1.shift, bitcnt := (p.after n s).1.bitcnt, pollcnt := (p.after n s).1.pollcnt } := by
  cases p
  case start | stop | sendAck => rfl
  case sendByte | waitAck | recvByte => simp only [Prim.after]; split <;> rfl

theorem after_onlyBookkept (p : Prim) (n : Nat) (s : State) : OnlyBookkept s (p.after n s).1 := by
  rw [after_writes_counters]
  exact ⟨rfl, rfl, rfl, rfl, rfl, rfl⟩

/-- `RDREG` keeps its first byte in `HOLD`; nothing else is written at the end of a primitive (R28). -/
theorem keepHighByte_cases (q : Seq) (s : State) : keepHighByte q s = s ∨ keepHighByte q s = s.setHold s.shift := by
  unfold keepHighByte
  split
  · split
    · exact .inr rfl
    · exact .inl rfl
  all_goals exact .inl rfl

theorem keepHighByte_onlyBookkept (q : Seq) (s : State) : OnlyBookkept s (keepHighByte q s) := by
  rcases keepHighByte_cases q s with h | h <;> rw [h]
  · exact .refl s
  · exact ⟨rfl, rfl, rfl, rfl, rfl, rfl⟩

/-- Every command ends with `RESULT` written or not, then success or the fault (R21, R98, R101). -/
theorem finish_cases (i : Instr) (missed : Bit) (s : State) : ∃ u, (u = s ∨ ∃ v, u = s.setResult v) ∧
    (finish i missed s = complete u ∨ finish i missed s = takeFault .busAcknowledgeTimeout u) := by
  cases missed
  · cases i
    case recvbyte => exact ⟨_, .inr ⟨_, rfl⟩, .inl rfl⟩
    case rdreg => exact ⟨_, .inr ⟨_, rfl⟩, .inl rfl⟩
    all_goals exact ⟨s, .inl rfl, .inl rfl⟩
  · cases i
    case rdreg => exact ⟨_, .inr ⟨_, rfl⟩, .inr rfl⟩
    all_goals exact ⟨s, .inl rfl, .inr rfl⟩

theorem finish_onlyBookkept (i : Instr) (missed : Bit) (s : State) : OnlyBookkept s (finish i missed s) := by
  obtain ⟨u, rfl | ⟨v, rfl⟩, h | h⟩ := finish_cases i missed s <;> rw [h] <;> exact ⟨rfl, rfl, rfl, rfl, rfl, rfl⟩

theorem nextPrimitive_onlyBookkept (q : Seq) (s : State) : OnlyBookkept s (nextPrimitive q s) := by
  have hk := keepHighByte_onlyBookkept q s
  unfold nextPrimitive
  split
  · exact hk.trans ⟨rfl, rfl, rfl, rfl, rfl, rfl⟩
  · exact hk.trans (finish_onlyBookkept _ _ _)

theorem advance_onlyBookkept (q : Seq) (p : Prim) (s : State) : OnlyBookkept s (advance q p s) := by
  have ha := after_onlyBookkept p q.uop s
  unfold advance
  split
  · next h => rw [h] at ha; exact ha.trans ⟨rfl, rfl, rfl, rfl, rfl, rfl⟩
  · next h => rw [h] at ha; exact ha.trans (nextPrimitive_onlyBookkept _ _)
  · next h => rw [h] at ha; exact ha.trans (finish_onlyBookkept _ _ _)

/-! ### The bookkeeping does not read the position it leaves -/

theorem after_setSeq (p : Prim) (n : Nat) (s : State) (q : Option Seq) :
    p.after n (s.setSeq q) = ((p.after n s).1.setSeq q, (p.after n s).2) := by
  cases p
  case start | stop | sendAck => rfl
  case sendByte | waitAck | recvByte => simp only [Prim.after]; split <;> rfl

theorem keepHighByte_setSeq (q : Seq) (s : State) (x : Option Seq) :
    keepHighByte q (s.setSeq x) = (keepHighByte q s).setSeq x := by
  unfold keepHighByte
  split
  · split <;> rfl
  all_goals rfl

theorem finish_setSeq (i : Instr) (missed : Bit) (s : State) (q : Option Seq) :
    finish i missed (s.setSeq q) = finish i missed s := by
  cases i <;> cases missed <;> rfl

theorem nextPrimitive_setSeq (q : Seq) (s : State) (x : Option Seq) :
    nextPrimitive q (s.setSeq x) = nextPrimitive q s := by
  simp only [nextPrimitive, keepHighByte_setSeq, finish_setSeq, State.setSeq_cfg]
  rfl

theorem advance_setSeq (q : Seq) (p : Prim) (s : State) (x : Option Seq) : advance q p (s.setSeq x) = advance q p s := by
  unfold advance
  rw [after_setSeq]
  rcases p.after q.uop s with ⟨t, _ | _ | _⟩
  · rfl
  · exact nextPrimitive_setSeq q t x
  · exact finish_setSeq q.cmd true t x

/-! ### Runs of the sequencer -/

theorem engineSteps_add {n : Nat} {s t : State} (m : Nat) (h : engineSteps n s = .next t) :
    engineSteps (n + m) s = engineSteps m t := by
  induction n generalizing s with
  | zero =>
    cases h
    rw [Nat.zero_add]
  | succ n ih =>
    rw [Nat.succ_add]
    simp only [engineSteps] at h ⊢
    cases hs : engineStep s with
    | next u => rw [hs] at h; exact ih h
    | fault f => rw [hs] at h; cases h
    | refused r => rw [hs] at h; cases h

/-- The sequencer goes from `s` to `t` in as many engine steps as the trace grows by, never refused and never lost. -/
def Reaches (s t : State) : Prop := ∃ n, t.trace.length = s.trace.length + n ∧ engineSteps n s = .next t

theorem Reaches.trans {s t u : State} (h : Reaches s t) (k : Reaches t u) : Reaches s u := by
  obtain ⟨n, hn, h⟩ := h
  obtain ⟨m, hm, k⟩ := k
  exact ⟨n + m, by omega, (engineSteps_add m h).trans k⟩

/-- The state with `SEQ` at the line `n` of the primitive `k` of the command `i` (R19). -/
def atLine (i : Instr) (k n : Nat) (s : State) : State := s.setSeq (some ⟨i, k, n⟩)

/-- The primitive `k` of the command `i` is over (R19, R60). -/
def primitiveOver (i : Instr) (k : Nat) (s : State) : State := nextPrimitive ⟨i, k, 0⟩ s

/-- The primitive `k` of the command `i` is over, or it was a `WAITACK` that missed its acknowledge (R76, R89). -/
def afterPrimitive (i : Instr) (k : Nat) : State × Bit → State
  | (s, false) => primitiveOver i k s
  | (s, true) => finish i true s

/-- The directions in which the sequencer performs a micro-operation (R67). -/
def MicroOp.permitted (op : MicroOp) (d : Dir) : Bool :=
  match op, d with
  | .dat _, .input => false
  | .read, .output => false
  | _, _ => true

theorem perform_of_permitted {op : MicroOp} {s : State} (h : op.permitted s.pins.sdaDir = true) :
    perform op s = .next (emit op s) := by
  rcases perform_cases op s with ⟨hp, -, -⟩ | ⟨-, hd, b, rfl⟩ | ⟨-, hd, rfl⟩
  · exact hp
  · rw [hd] at h; cases h
  · rw [hd] at h; cases h

/-- Micro-operations each of which is permitted in the direction that those before it leave (R67). -/
def playable : Pins → List MicroOp → Bool
  | _, [] => true
  | p, op :: ops => op.permitted p.sdaDir && playable (op.drive p) ops

section
variable {i : Instr} {k : Nat} {p : Prim}

/-- One engine step at a line of the pseudocode. -/
theorem reaches_line {n : Nat} {op : MicroOp} {s : State} (hp : (primitives s.cfg i)[k]? = some p)
    (hop : (p.lines s.shift)[n]? = some op) (hd : op.permitted s.pins.sdaDir = true) :
    Reaches (atLine i k n s) (advance ⟨i, k, n⟩ p (emit op s)) := by
  refine ⟨1, ?_, ?_⟩
  · rw [(advance_onlyBookkept ..).trace]
    rfl
  · have hs : engineStep (atLine i k n s) = performAt ⟨i, k, n⟩ p (atLine i k n s) := by
      simp only [engineStep, atLine, State.setSeq_seq, State.setSeq_cfg, hp]
    have hq : performAt ⟨i, k, n⟩ p (atLine i k n s) = .next (advance ⟨i, k, n⟩ p (emit op (atLine i k n s))) := by
      have hperf : perform op (atLine i k n s) = .next (emit op (atLine i k n s)) := perform_of_permitted hd
      simp only [performAt, atLine, State.setSeq_shift, hop] at hperf ⊢
      rw [hperf]
    have hadv : advance ⟨i, k, n⟩ p (emit op (atLine i k n s)) = advance ⟨i, k, n⟩ p (emit op s) :=
      advance_setSeq _ p (emit op s) _
    simp only [engineSteps, hs, hq, hadv]

/-- One engine step at a line after which the pseudocode goes to another. -/
theorem reaches_next_line {n m : Nat} {op : MicroOp} {s t : State} (hp : (primitives s.cfg i)[k]? = some p)
    (hop : (p.lines s.shift)[n]? = some op) (hd : op.permitted s.pins.sdaDir = true)
    (ha : p.after n (emit op s) = (t, .line m)) : Reaches (atLine i k n s) (atLine i k m t) := by
  have h := reaches_line hp hop hd
  simp only [advance, ha] at h
  exact h

/-- From the line `n` on, the primitive's pseudocode is `ops`, one line after another, with nothing done between them. -/
def Prim.Follows (p : Prim) (shift : Byte) : Nat → List MicroOp → Prop
  | _, [] => True
  | n, op :: ops =>
    (p.lines shift)[n]? = some op ∧ (∀ s, p.after n s = (s, .line (n + 1))) ∧ p.Follows shift (n + 1) ops

/-- A straight piece of the pseudocode and the line after it: the micro-operations are performed in order, and what the
pseudocode does after the last of them follows. -/
theorem reaches_block (ops : List MicroOp) (op : MicroOp) {n : Nat} {s : State}
    (hp : (primitives s.cfg i)[k]? = some p) (hf : p.Follows s.shift n ops)
    (hop : (p.lines s.shift)[n + ops.length]? = some op) (hd : playable s.pins (ops ++ [op]) = true) :
    Reaches (atLine i k n s) (advance ⟨i, k, n + ops.length⟩ p (emits (ops ++ [op]) s)) := by
  induction ops generalizing n s with
  | nil =>
    simp only [List.nil_append, playable, Bool.and_true] at hd
    exact reaches_line hp hop hd
  | cons first ops ih =>
    obtain ⟨hfirst, hafter, hf⟩ := hf
    simp only [List.cons_append, playable, Bool.and_eq_true] at hd
    obtain ⟨hd1, hd⟩ := hd
    have h1 := reaches_next_line hp hfirst hd1 (hafter _)
    have hlen : n + (first :: ops).length = n + 1 + ops.length := by simp; omega
    rw [hlen] at hop ⊢
    exact h1.trans (ih (s := emit first s) hp hf hop hd)

theorem start_reaches (s : State) (hp : (primitives s.cfg i)[k]? = some .start) :
    Reaches (atLine i k 0 s) (primitiveOver i k (start s)) :=
  reaches_block [.dirOut, .dat true, .clk true, .wait .tStart, .dat false] (.clk false) hp
    (by simp [Prim.Follows, Prim.lines, startOps, Prim.after, straight]) rfl rfl

theorem stop_reaches (s : State) (hp : (primitives s.cfg i)[k]? = some .stop) :
    Reaches (atLine i k 0 s) (primitiveOver i k (stop s)) :=
  reaches_block [.clk false, .dirOut, .dat false, .clk true, .wait .tStop] (.dat true) hp
    (by simp [Prim.Follows, Prim.lines, stopOps, Prim.after, straight]) rfl rfl

theorem sendAck_reaches (ack : Bit) (s : State) (hp : (primitives s.cfg i)[k]? = some (.sendAck ack)) :
    Reaches (atLine i k 0 s) (primitiveOver i k (sendAck ack s)) :=
  reaches_block [.dirOut, .dat (!ack), .wait .tSu, .clk true, .wait .tHigh, .clk false] (.dat true) hp
    (by simp [Prim.Follows, Prim.lines, sendAckOps, Prim.after, straight]) rfl rfl

/-! #### The bit loops -/

/-- One turn of `SENDBYTE`'s loop, and the loop's test (R74). -/
theorem sendBit_reaches {v : Byte} {s : State} (hp : (primitives s.cfg i)[k]? = some (.sendByte v))
    (hd : s.pins.sdaDir = .output) :
    Reaches (atLine i k 1 s)
      (if s.bitcnt - 1 = 0 then primitiveOver i k (sendBit s) else atLine i k 1 (sendBit s)) := by
  have h := reaches_block [.dat (topBit s.shift), .wait .tSu, .clk true, .wait .tHigh] (.clk false) (n := 1) hp
    (by simp [Prim.Follows, Prim.lines, sendBitOps, Prim.after]) rfl
    (by simp [playable, MicroOp.permitted, hd])
  convert h using 1
  simp only [advance, Prim.after, List.length, Nat.reduceAdd, emits_bitcnt]
  split <;> rfl

theorem sendBits_reaches {v : Byte} (n : Nat) (s : State) (hp : (primitives s.cfg i)[k]? = some (.sendByte v))
    (hd : s.pins.sdaDir = .output) (hn : s.bitcnt = n + 1) :
    Reaches (atLine i k 1 s) (primitiveOver i k (sendBits (n + 1) s)) := by
  induction n generalizing s with
  | zero =>
    have h := sendBit_reaches hp hd
    rwa [if_pos (by omega)] at h
  | succ n ih =>
    have h := sendBit_reaches hp hd
    rw [if_neg (by omega)] at h
    have hn' : (sendBit s).bitcnt = n + 1 := by change s.bitcnt - 1 = n + 1; omega
    exact h.trans (ih (sendBit s) hp hd hn')

theorem sendByte_reaches (v : Byte) (s : State) (hp : (primitives s.cfg i)[k]? = some (.sendByte v)) :
    Reaches (atLine i k 0 s) (primitiveOver i k (sendByte v s)) :=
  (reaches_line hp rfl rfl).trans (sendBits_reaches 7 (((emit .dirOut s).setShift v).setBitcnt 8) hp rfl rfl)

/-- One turn of `RECVBYTE`'s loop, and the loop's test (R80). -/
theorem recvBit_reaches {ack : Bit} {s : State} (hp : (primitives s.cfg i)[k]? = some (.recvByte ack))
    (hd : s.pins.sdaDir = .input) :
    Reaches (atLine i k 1 s) (atLine i k (if s.bitcnt - 1 = 0 then 6 else 1) (recvBit s)) := by
  have h := reaches_block [.wait .tSu, .clk true, .read, .wait .tHigh] (.clk false) (n := 1) hp
    (by simp [Prim.Follows, Prim.lines, recvBitOps, Prim.after, straight]) rfl
    (by simp [playable, MicroOp.permitted, MicroOp.drive, hd])
  convert h using 1
  simp only [advance, Prim.after, List.length, Nat.reduceAdd, emits_bitcnt]
  split <;> rfl

theorem recvBits_reaches {ack : Bit} (n : Nat) (s : State) (hp : (primitives s.cfg i)[k]? = some (.recvByte ack))
    (hd : s.pins.sdaDir = .input) (hn : s.bitcnt = n + 1) :
    Reaches (atLine i k 1 s) (atLine i k 6 (recvBits (n + 1) s)) := by
  induction n generalizing s with
  | zero =>
    have h := recvBit_reaches hp hd
    rwa [if_pos (by omega)] at h
  | succ n ih =>
    have h := recvBit_reaches hp hd
    rw [if_neg (by omega)] at h
    have hn' : (recvBit s).bitcnt = n + 1 := by change s.bitcnt - 1 = n + 1; omega
    exact h.trans (ih (recvBit s) hp hd hn')

/-- `RECVBYTE` ends with the lines of `SENDACK` (R80). -/
theorem recvByte_ack_reaches (ack : Bit) (s : State) (hp : (primitives s.cfg i)[k]? = some (.recvByte ack)) :
    Reaches (atLine i k 6 s) (primitiveOver i k (sendAck ack s)) :=
  reaches_block [.dirOut, .dat (!ack), .wait .tSu, .clk true, .wait .tHigh, .clk false] (.dat true) (n := 6) hp
    (by simp [Prim.Follows, Prim.lines, recvBitOps, sendAckOps, Prim.after, straight]) rfl rfl

theorem recvByte_reaches (ack : Bit) (s : State) (hp : (primitives s.cfg i)[k]? = some (.recvByte ack)) :
    Reaches (atLine i k 0 s) (primitiveOver i k (recvByte ack s)) := by
  have hbits := (reaches_line (n := 0) (op := .dirIn) hp rfl rfl).trans
    (recvBits_reaches 7 (((emit .dirIn s).setShift 0).setBitcnt 8) hp rfl rfl)
  exact hbits.trans (recvByte_ack_reaches ack _ hp)

/-! #### The poll loop -/

/-- The `STOP` inside `WAITACK` (R76). -/
theorem waitAck_stop_reaches (s : State) (hp : (primitives s.cfg i)[k]? = some .waitAck) :
    Reaches (atLine i k 5 s) (finish i true (stop s)) :=
  reaches_block [.clk false, .dirOut, .dat false, .clk true, .wait .tStop] (.dat true) (n := 5) hp
    (by simp [Prim.Follows, Prim.lines, stopOps, Prim.after]) rfl rfl

/-- A high sample and its delay: the poll goes on while the count is below the bound, else to the `STOP` (R76). -/
theorem highSample_reaches (s : State) (hp : (primitives s.cfg i)[k]? = some .waitAck) (hd : s.pins.sdaDir = .input)
    (hb : (emit .read s).sample = true) :
    Reaches (atLine i k 2 s) (atLine i k (if s.pollcnt + 1 = s.cfg.ackPollBound.val then 5 else 2)
      ((emit (.wait .tPoll) (emit .read s)).setPollcnt (s.pollcnt + 1))) := by
  have hread : Reaches (atLine i k 2 s) (atLine i k 4 (emit .read s)) :=
    reaches_next_line hp rfl (by rw [hd]; rfl) (by simp only [Prim.after, hb, if_true])
  refine hread.trans (reaches_next_line (op := .wait .tPoll) hp rfl rfl ?_)
  simp only [Prim.after]
  split <;> simp_all

/-- The poll loop from its sample, with `left + 1` samples still allowed (R76). -/
theorem pollAck_reaches (left : Nat) (s : State) (hp : (primitives s.cfg i)[k]? = some .waitAck)
    (hd : s.pins.sdaDir = .input) (hleft : s.pollcnt + (left + 1) = s.cfg.ackPollBound.val) :
    Reaches (atLine i k 2 s) (afterPrimitive i k (pollAck (left + 1) s)) := by
  cases hb : (emit .read s).sample with
  | false =>
    have hpoll : pollAck (left + 1) s = (emit (.clk false) (emit .read s), false) := by simp only [pollAck, hb]
    have hread : Reaches (atLine i k 2 s) (atLine i k 3 (emit .read s)) :=
      reaches_next_line hp rfl (by rw [hd]; rfl) (by simp only [Prim.after, hb]; rfl)
    rw [hpoll]
    exact hread.trans (reaches_line (s := emit .read s) (op := .clk false) hp rfl rfl)
  | true =>
    have hpoll : pollAck (left + 1) s =
        pollAck left ((emit (.wait .tPoll) (emit .read s)).setPollcnt (s.pollcnt + 1)) := by
      simp only [pollAck, hb, emit_pollcnt]
    have hhigh := highSample_reaches s hp hd hb
    rw [hpoll]
    cases left with
    | zero =>
      rw [if_pos (by omega)] at hhigh
      exact hhigh.trans (waitAck_stop_reaches _ hp)
    | succ left =>
      rw [if_neg (by omega)] at hhigh
      have hleft' : s.pollcnt + 1 + (left + 1) = s.cfg.ackPollBound.val := by omega
      exact hhigh.trans (pollAck_reaches left _ hp hd hleft')

theorem waitAck_reaches (s : State) (hp : (primitives s.cfg i)[k]? = some .waitAck) :
    Reaches (atLine i k 0 s) (afterPrimitive i k (waitAck s)) := by
  have hfirst : Reaches (atLine i k 0 s) (atLine i k 2 ((emits [.dirIn, .clk true] s).setPollcnt 0)) :=
    reaches_block [.dirIn] (.clk true) hp (by simp [Prim.Follows, Prim.lines, Prim.after]) rfl rfl
  obtain ⟨left, hleft⟩ := Nat.exists_eq_add_of_le' s.cfg.ackPollBound.property
  have hpoll := pollAck_reaches left ((emits [.dirIn, .clk true] s).setPollcnt 0) hp rfl
    (by simpa [emits] using hleft.symm)
  rw [← hleft] at hpoll
  exact hfirst.trans hpoll

end

/-! ### The commands -/

/-- The end of a primitive that is neither the command's last nor a `RECVBYTE`: the next primitive begins. -/
theorem primitiveOver_of_not_recv {i : Instr} {k : Nat} {s : State} {p : Prim}
    (hp : (primitives s.cfg i)[k]? = some p) (hrecv : ∀ ack, p ≠ .recvByte ack)
    (hlt : k + 1 < (primitives s.cfg i).length) : primitiveOver i k s = atLine i (k + 1) 0 s := by
  have hkeep : keepHighByte ⟨i, k, 0⟩ s = s := by
    cases i
    case rdreg reg =>
      have hk : k ≠ highByteIndex := by
        rintro rfl
        exact hrecv true (Option.some.inj hp.symm)
      simp only [keepHighByte, if_neg hk]
    all_goals rfl
  simp only [primitiveOver, nextPrimitive, hkeep, if_pos hlt, atLine]

/-- The primitives of acknowledged sends (R86). -/
def sendPrims (bytes : List Byte) : List Prim := bytes.flatMap fun b => [.sendByte b, .waitAck]

/-- Where a transaction stands after its acknowledged sends: at the primitive `k`, or ended by the fault (R86, R89). -/
def afterSends (i : Instr) (k : Nat) : State × Bit → State
  | (s, false) => atLine i k 0 s
  | (s, true) => finish i true s

/-- One byte and its acknowledge, with more primitives to come (R86). -/
theorem sendOne_reaches {i : Instr} {k : Nat} (b : Byte) (s : State)
    (hsend : (primitives s.cfg i)[k]? = some (.sendByte b)) (hack : (primitives s.cfg i)[k + 1]? = some .waitAck)
    (hlt : k + 2 < (primitives s.cfg i).length) :
    Reaches (atLine i k 0 s) (afterSends i (k + 2) (waitAck (sendByte b s))) := by
  have hb := (sendByte_ran b s).cfg
  have h := sendByte_reaches b s hsend
  rw [← hb] at hsend hack hlt
  rw [primitiveOver_of_not_recv hsend (fun _ h => nomatch h) (by omega)] at h
  have hboth := h.trans (waitAck_reaches (sendByte b s) hack)
  rcases waitAck_cases (sendByte b s) with ⟨j, t, -, ht, hran, -⟩ | ⟨t, ht, -⟩
  · rw [← hran.cfg] at hack hlt
    rw [ht, afterPrimitive, primitiveOver_of_not_recv hack (fun _ h => nomatch h) hlt] at hboth
    rw [ht]
    exact hboth
  · rw [ht] at hboth ⊢
    exact hboth

theorem sendAcked_reaches {i : Instr} {k : Nat} (bytes : List Byte) (q : Prim) (rest : List Prim) (s : State)
    (hp : (primitives s.cfg i).drop k = sendPrims bytes ++ q :: rest) :
    Reaches (atLine i k 0 s) (afterSends i (k + 2 * bytes.length) (sendAcked bytes s)) := by
  induction bytes generalizing k s with
  | nil => exact ⟨0, rfl, rfl⟩
  | cons b bytes ih =>
    have hp' : (primitives s.cfg i).drop k = .sendByte b :: .waitAck :: (sendPrims bytes ++ q :: rest) := hp
    have hlt : k + 2 < (primitives s.cfg i).length := by
      have h := congrArg List.length hp'
      simp only [List.length_drop, List.length_cons, List.length_append] at h
      omega
    have hone := sendOne_reaches (i := i) (k := k) b s (by rw [← Nat.add_zero k, ← List.getElem?_drop, hp']; rfl)
      (by rw [← List.getElem?_drop, hp']; rfl) hlt
    rcases waitAck_cases (sendByte b s) with ⟨j, t, -, ht, hran, -⟩ | ⟨t, ht, -⟩
    · have hcfg : t.cfg = s.cfg := hran.cfg.trans (sendByte_ran b s).cfg
      have hrest : (primitives t.cfg i).drop (k + 2) = sendPrims bytes ++ q :: rest := by
        rw [hcfg, ← List.drop_drop, hp']; rfl
      rw [ht] at hone
      have hk : k + 2 * (b :: bytes).length = k + 2 + 2 * bytes.length := by simp; omega
      rw [sendAcked, ht, hk]
      exact hone.trans (ih t hrest)
    · rw [ht] at hone
      rw [sendAcked, ht]
      exact hone

/-- `WRREG` (R87). -/
theorem wrreg_reaches (reg : RegAddr) (value : Half) (s : State) :
    Reaches (begin (.wrreg reg value) s) (execState (.wrreg reg value) s) := by
  have hsends : Reaches (begin (.wrreg reg value) s)
      (afterSends (.wrreg reg value) 9 (sendAcked (writeBytes s.cfg reg value) (start s))) :=
    (start_reaches s rfl).trans (sendAcked_reaches (k := 1) (writeBytes s.cfg reg value) .stop [] (start s) rfl)
  simp only [execState]
  generalize sendAcked (writeBytes s.cfg reg value) (start s) = r at hsends ⊢
  obtain ⟨t, _ | _⟩ := r
  · exact hsends.trans (stop_reaches t rfl)
  · exact hsends

/-- The data phase of `RDREG` (R88). -/
theorem readData_reaches (reg : RegAddr) (s : State) : Reaches (atLine (.rdreg reg) 8 0 s) (readData s) := by
  have hhigh : Reaches (atLine (.rdreg reg) 8 0 s)
      (atLine (.rdreg reg) 9 0 ((recvByte true s).setHold (recvByte true s).shift)) := recvByte_reaches true s rfl
  have hlow := hhigh.trans (recvByte_reaches false _ rfl)
  exact hlow.trans (stop_reaches _ rfl)

/-- The read phase of `RDREG`, from its repeated start (R88). -/
theorem readPhase_reaches (reg : RegAddr) (s : State) : Reaches (atLine (.rdreg reg) 5 0 s) (readPhase s) := by
  have hsends : Reaches (atLine (.rdreg reg) 5 0 s)
      (afterSends (.rdreg reg) 8 (sendAcked [readAddress s.cfg] (start s))) :=
    (start_reaches s rfl).trans
      (sendAcked_reaches (k := 6) [readAddress s.cfg] (.recvByte true) [.recvByte false, .stop] (start s) rfl)
  simp only [readPhase]
  generalize sendAcked [readAddress s.cfg] (start s) = r at hsends ⊢
  obtain ⟨t, _ | _⟩ := r
  · exact hsends.trans (readData_reaches reg t)
  · exact hsends

/-- `RDREG` (R88). -/
theorem rdreg_reaches (reg : RegAddr) (s : State) : Reaches (begin (.rdreg reg) s) (execState (.rdreg reg) s) := by
  have hsends : Reaches (begin (.rdreg reg) s)
      (afterSends (.rdreg reg) 5 (sendAcked [writeAddress s.cfg, reg] (start s))) :=
    (start_reaches s rfl).trans (sendAcked_reaches (k := 1) [writeAddress s.cfg, reg] .start
      [.sendByte (readAddress s.cfg), .waitAck, .recvByte true, .recvByte false, .stop] (start s) rfl)
  simp only [execState]
  generalize sendAcked [writeAddress s.cfg, reg] (start s) = r at hsends ⊢
  obtain ⟨t, _ | _⟩ := r
  · exact hsends.trans (readPhase_reaches reg t)
  · exact hsends

theorem waitack_reaches (s : State) : Reaches (begin .waitack s) (execState .waitack s) := by
  have h : Reaches (begin .waitack s) (afterPrimitive .waitack 0 (waitAck s)) := waitAck_reaches s rfl
  simp only [execState]
  generalize waitAck s = r at h ⊢
  obtain ⟨t, _ | _⟩ := r
  · exact h
  · exact h

/-- The sequencer, from a command's first position, goes to the state that the command's meaning gives (R60). -/
theorem begin_reaches (i : Instr) (s : State) : Reaches (begin i s) (execState i s) := by
  cases i with
  | start => exact start_reaches s rfl
  | stop => exact stop_reaches s rfl
  | sendbyte v => exact sendByte_reaches v s rfl
  | waitack => exact waitack_reaches s
  | sendack ack => exact sendAck_reaches ack s rfl
  | recvbyte ack => exact recvByte_reaches ack s rfl
  | wrreg reg value => exact wrreg_reaches reg value s
  | rdreg reg => exact rdreg_reaches reg s

/-- Settles O46, by composing the sequencer's runs of the primitives as the command's meaning calls them. -/
theorem engineStepsReachTheCommandsState : Obligations.EngineStepsReachTheCommandsState := by
  intro i s
  obtain ⟨n, hlen, hrun⟩ := begin_reaches i s
  exact ⟨n, execState i s, exec_eq i s, hlen, hrun⟩

/-! ### The reference slave keeps its canonical form -/

/-- The register space is in canonical form and the pulse count in range. -/
def Sensor.InRange (r : Sensor) : Prop := r.regs.wf = true ∧ r.n ≤ 9

theorem Sensor.riseReceiving_inRange {r : Sensor} (sda : Bit) (h : r.InRange) : (r.riseReceiving sda).InRange := by
  unfold Sensor.riseReceiving
  split_ifs with hn
  · exact ⟨h.1, Nat.le_succ_of_le hn⟩
  · exact ⟨h.1, Nat.le_refl 9⟩
  · exact h

theorem Sensor.riseSending_inRange {r : Sensor} (sda : Bit) (h : r.InRange) : (r.riseSending sda).InRange := by
  unfold Sensor.riseSending
  split_ifs with hn
  · exact ⟨h.1, Nat.le_succ_of_le hn⟩
  · exact ⟨h.1, Nat.le_refl 9⟩
  · exact h

theorem Sensor.onRise_inRange {r : Sensor} (sda : Bit) (h : r.InRange) : (r.onRise sda).InRange := by
  unfold Sensor.onRise
  split_ifs
  · exact h
  · exact Sensor.riseReceiving_inRange sda h
  · exact Sensor.riseSending_inRange sda h
  · exact h

theorem Sensor.consume_inRange {r : Sensor} (h : r.InRange) : r.consume.InRange := by
  obtain ⟨hregs, hn⟩ := h
  have hzero : (0 : Nat) ≤ 9 := Nat.zero_le 9
  unfold Sensor.consume
  simp only
  split
  · split
    · exact ⟨hregs, hzero⟩
    · exact ⟨hregs, hzero⟩
  · exact ⟨hregs, hzero⟩
  · exact ⟨hregs, hzero⟩
  · exact ⟨Regs.wf_write _ _ hregs, hzero⟩
  all_goals exact ⟨hregs, hzero⟩

theorem Sensor.fallReceiving_inRange {r : Sensor} (h : r.InRange) : r.fallReceiving.InRange := by
  unfold Sensor.fallReceiving Sensor.decideAck
  simp only
  split_ifs
  · exact h
  · exact h
  · exact Sensor.consume_inRange h
  · exact h

theorem Sensor.fallSending_inRange {r : Sensor} (h : r.InRange) : r.fallSending.InRange := by
  unfold Sensor.fallSending Sensor.nextByte
  split_ifs
  · exact h
  · exact h
  · split
    · exact ⟨h.1, Nat.zero_le 9⟩
    · exact h
  · exact h

theorem Sensor.onFall_inRange {r : Sensor} (h : r.InRange) : r.onFall.InRange := by
  unfold Sensor.onFall
  split_ifs
  · exact h
  · exact Sensor.fallReceiving_inRange h
  · exact Sensor.fallSending_inRange h
  · exact h

/-- Whatever the wire does, the reference slave stays in range (R32). -/
theorem Sensor.watch_inRange {r : Sensor} (before after : Wire) (h : r.InRange) : (r.watch before after).InRange := by
  unfold Sensor.watch
  split
  · split
    · exact ⟨h.1, Nat.zero_le 9⟩
    · exact h
    · exact h
  · exact Sensor.onRise_inRange _ h
  · exact Sensor.onFall_inRange h
  · exact h

theorem slaveOk_emit {s : State} (op : MicroOp) (h : slaveOk s) : slaveOk (emit op s) := by
  unfold slaveOk at h ⊢
  rw [emit_slave]
  cases hs : s.slave with
  | oracle o => trivial
  | sensor r =>
    rw [hs] at h
    exact Sensor.watch_inRange _ _ h

/-- A micro-operation records a read with the level of the data wire (R64). -/
theorem readsOk_emit {s : State} (op : MicroOp) (h : readsOk s) : readsOk (emit op s) := by
  intro e he b hb
  rcases List.mem_cons.mp he with rfl | he
  · cases op
    case read => exact (Event.read.inj hb).symm
    all_goals cases hb
  · exact h e he b hb

/-! ### The invariant without the position -/

/-- `Safe` but for the position: the counters and `STATUS` in range, the reads true to the wire, the slave canonical. -/
structure Ranged (s : State) : Prop where
  bitcnt : s.bitcnt ≤ 8
  pollcnt : s.pollcnt ≤ s.cfg.ackPollBound.val
  status : statusOk s
  reads : readsOk s
  slave : slaveOk s

theorem safe_iff (s : State) : Safe s ↔ Ranged s ∧ positionOk s :=
  ⟨fun ⟨hb, hp, hst, hpos, hr, hsl⟩ => ⟨⟨hb, hp, hst, hr, hsl⟩, hpos⟩,
    fun ⟨⟨hb, hp, hst, hr, hsl⟩, hpos⟩ => ⟨hb, hp, hst, hpos, hr, hsl⟩⟩

theorem positionOk_of_seq_none {s : State} (h : s.seq = none) : positionOk s := by
  unfold positionOk
  rw [h]
  trivial

theorem Ranged.emit {s : State} (h : Ranged s) (op : MicroOp) : Ranged (emit op s) :=
  ⟨h.bitcnt, h.pollcnt, h.status, readsOk_emit op h.reads, slaveOk_emit op h.slave⟩

theorem Ranged.finish {s : State} (h : Ranged s) (i : Instr) (missed : Bit) : Ranged (finish i missed s) := by
  obtain ⟨u, rfl | ⟨v, rfl⟩, hu | hu⟩ := finish_cases i missed s <;> rw [hu]
  · exact ⟨h.bitcnt, h.pollcnt, .inl ⟨rfl, rfl⟩, h.reads, h.slave⟩
  · exact ⟨h.bitcnt, h.pollcnt, .inr (.inl ⟨rfl, rfl⟩), h.reads, h.slave⟩
  · exact ⟨h.bitcnt, h.pollcnt, .inl ⟨rfl, rfl⟩, h.reads, h.slave⟩
  · exact ⟨h.bitcnt, h.pollcnt, .inr (.inl ⟨rfl, rfl⟩), h.reads, h.slave⟩

theorem finish_seq (i : Instr) (missed : Bit) (s : State) : (finish i missed s).seq = none := by
  obtain ⟨u, -, hu | hu⟩ := finish_cases i missed s <;> rw [hu] <;> rfl

theorem safe_finish {s : State} (h : Ranged s) (i : Instr) (missed : Bit) : Safe (finish i missed s) :=
  (safe_iff _).mpr ⟨h.finish i missed, positionOk_of_seq_none (finish_seq i missed s)⟩

theorem Ranged.keepHighByte {s : State} (h : Ranged s) (q : Seq) : Ranged (keepHighByte q s) := by
  rcases keepHighByte_cases q s with hq | hq <;> rw [hq]
  · exact h
  · exact ⟨h.bitcnt, h.pollcnt, h.status, h.reads, h.slave⟩

theorem Ranged.setSeq {s : State} (h : Ranged s) (q : Option Seq) : Ranged (s.setSeq q) :=
  ⟨h.bitcnt, h.pollcnt, h.status, h.reads, h.slave⟩

/-! ### The position -/

/-- The number of lines of a primitive's pseudocode. -/
def Prim.lineCount : Prim → Nat
  | .start | .stop | .sendByte _ => 6
  | .waitAck => 11
  | .sendAck _ => 7
  | .recvByte _ => 13

@[simp] theorem lines_length (p : Prim) (shift : Byte) : (p.lines shift).length = p.lineCount := by cases p <;> rfl

theorem lt_lineCount {p : Prim} {shift : Byte} {n : Nat} {op : MicroOp} (hop : (p.lines shift)[n]? = some op) :
    n < p.lineCount := by
  rw [← lines_length p shift]
  exact (List.getElem?_eq_some_iff.mp hop).1

/-- A line of a primitive with the direction and the counters as the pseudocode has them there. -/
def Prim.LineOk (p : Prim) (n : Nat) (s : State) : Prop :=
  n < p.lineCount ∧ (∀ d, p.dirAt n = some d → s.pins.sdaDir = d) ∧ p.countersAt n s

theorem positionOk_iff {s : State} {q : Seq} (hq : s.seq = some q) :
    positionOk s ↔ ∃ p, (primitives s.cfg q.cmd)[q.prim]? = some p ∧ p.LineOk q.uop s := by
  unfold positionOk
  rw [hq]
  cases hp : (primitives s.cfg q.cmd)[q.prim]? with
  | none => simp [hp]
  | some p => simp [hp, Prim.LineOk]

theorem safe_atLine {i : Instr} {k n : Nat} {p : Prim} {s : State} (h : Ranged s)
    (hp : (primitives s.cfg i)[k]? = some p) (hl : p.LineOk n s) : Safe (atLine i k n s) :=
  (safe_iff _).mpr ⟨h.setSeq _, (positionOk_iff (q := ⟨i, k, n⟩) rfl).mpr ⟨p, hp, hl⟩⟩

/-- The first line of a primitive asks nothing of the direction and the counters (R82). -/
theorem lineOk_zero (p : Prim) (s : State) : p.LineOk 0 s := by
  cases p <;> refine ⟨Nat.succ_pos _, fun d hd => ?_, ?_⟩ <;> simp_all [Prim.dirAt, Prim.countersAt]

/-- Between two lines the counters stay in range (R17, R18). -/
theorem after_ranged {p : Prim} {n : Nat} {s : State} (h : Ranged s) (hc : p.countersAt n s) :
    Ranged (p.after n s).1 := by
  have hkept := after_writes_counters p n s
  have hcounts : (p.after n s).1.bitcnt ≤ 8 ∧ (p.after n s).1.pollcnt ≤ s.cfg.ackPollBound.val := by
    obtain ⟨hb, hp, -⟩ := h
    cases p
    case start | stop | sendAck => exact ⟨hb, hp⟩
    case sendByte | recvByte =>
      simp only [Prim.after]
      split
      · exact ⟨Nat.le_refl 8, hp⟩
      · exact ⟨Nat.le_trans (Nat.sub_le _ _) hb, hp⟩
      · exact ⟨hb, hp⟩
    case waitAck =>
      simp only [Prim.after]
      split
      · exact ⟨hb, Nat.zero_le _⟩
      · exact ⟨hb, hp⟩
      · exact ⟨hb, hp⟩
      · exact ⟨hb, hc (by omega)⟩
      · exact ⟨hb, hp⟩
      · exact ⟨hb, hp⟩
  obtain ⟨hb, hp⟩ := hcounts
  rw [hkept]
  exact ⟨hb, hp, h.status, h.reads, h.slave⟩

theorem after_countersAt {p : Prim} {n m : Nat} {s t : State} (hc : p.countersAt n s)
    (ha : p.after n s = (t, .line m)) : p.countersAt m t := by
  cases p
  case start | stop | sendAck => trivial
  case sendByte =>
    simp only [Prim.after] at ha
    split at ha
    · cases ha
      exact fun _ => Nat.succ_pos 7
    · split at ha
      · cases ha
      · next hne => cases ha; exact fun _ => Nat.pos_of_ne_zero hne
    · next hn0 _ =>
      cases ha
      exact fun hm => hc ⟨Nat.pos_of_ne_zero hn0, by omega⟩
  case recvByte =>
    simp only [Prim.after] at ha
    split at ha
    · cases ha
      exact fun _ => Nat.succ_pos 7
    · split at ha
      · cases ha
        exact fun hm => absurd hm.2 (by decide)
      · next hne => cases ha; exact fun _ => Nat.pos_of_ne_zero hne
    · next hn0 _ =>
      simp only [straight] at ha
      split at ha
      · cases ha
        exact fun hm => hc ⟨Nat.pos_of_ne_zero hn0, by omega⟩
      · cases ha
  case waitAck =>
    simp only [Prim.after] at ha
    split at ha
    · cases ha
      exact fun _ => s.cfg.ackPollBound.property
    · split at ha <;> cases ha <;> exact fun _ => hc (by decide)
    · cases ha
    · have hlt := hc (by decide)
      split at ha
      · cases ha
        exact fun hm => absurd hm.2 (by decide)
      · next hne => cases ha; exact fun _ => Nat.lt_of_le_of_ne hlt hne
    · cases ha
    · next hn1 hn2 hn3 _ _ =>
      cases ha
      intro (hm : 2 ≤ n + 1 ∧ n + 1 ≤ 4)
      obtain h | h | h : n = 1 ∨ n = 2 ∨ n = 3 := by omega
      · exact (hn1 h).elim
      · exact (hn2 h).elim
      · exact (hn3 h).elim

/-- Where the pseudocode goes: to the line that follows, if there is one, but for the ends of the bit loops and the two
branches of the poll loop (R74, R76, R80). -/
theorem after_line_cases {p : Prim} {n m : Nat} {s t : State} (hn : n < p.lineCount)
    (ha : p.after n s = (t, .line m)) :
    (m = n + 1 ∧ n + 1 < p.lineCount) ∨ (n = 5 ∧ m = 1 ∧ ((∃ v, p = .sendByte v) ∨ ∃ k, p = .recvByte k)) ∨
      (p = .waitAck ∧ ((n = 2 ∧ m = 4) ∨ (n = 4 ∧ m = 2))) := by
  cases p <;> simp only [Prim.after, straight] at ha
  case start | stop | sendAck =>
    split at ha
    · next hlt => cases ha; exact .inl ⟨rfl, hlt⟩
    · cases ha
  case sendByte v =>
    split at ha
    · cases ha; exact .inl ⟨rfl, (by decide : 1 < 6)⟩
    · split at ha
      · cases ha
      · cases ha; exact .inr (.inl ⟨rfl, rfl, .inl ⟨v, rfl⟩⟩)
    · next _ hn5 => cases ha; exact .inl ⟨rfl, Nat.lt_of_le_of_ne hn fun h => hn5 (Nat.succ.inj h)⟩
  case recvByte k =>
    split at ha
    · cases ha; exact .inl ⟨rfl, (by decide : 1 < 13)⟩
    · split at ha
      · cases ha; exact .inl ⟨rfl, (by decide : 6 < 13)⟩
      · cases ha; exact .inr (.inl ⟨rfl, rfl, .inr ⟨k, rfl⟩⟩)
    · split at ha
      · next hlt => cases ha; exact .inl ⟨rfl, hlt⟩
      · cases ha
  case waitAck =>
    split at ha
    · cases ha; exact .inl ⟨rfl, by decide⟩
    · split at ha
      · cases ha; exact .inr (.inr ⟨rfl, .inl ⟨rfl, rfl⟩⟩)
      · cases ha; exact .inl ⟨rfl, by decide⟩
    · cases ha
    · split at ha
      · cases ha; exact .inl ⟨rfl, by decide⟩
      · cases ha; exact .inr (.inr ⟨rfl, .inr ⟨rfl, rfl⟩⟩)
    · cases ha
    · next _ _ _ _ hn10 => cases ha; exact .inl ⟨rfl, Nat.lt_of_le_of_ne hn fun h => hn10 (Nat.succ.inj h)⟩

/-- The pseudocode goes to lines of its own only. -/
theorem after_line_lt {p : Prim} {n m : Nat} {s t : State} (hn : n < p.lineCount)
    (ha : p.after n s = (t, .line m)) : m < p.lineCount := by
  rcases after_line_cases hn ha with ⟨rfl, hlt⟩ | ⟨-, rfl, ⟨w, rfl⟩ | ⟨k, rfl⟩⟩ | ⟨rfl, ⟨-, rfl⟩ | ⟨-, rfl⟩⟩
  · exact hlt
  · exact (by decide : 1 < 6)
  · exact (by decide : 1 < 13)
  · decide
  · decide

/-- The direction that the pseudocode has at the line after `n` is the one that the micro-operation at `n` leaves. -/
theorem dirAt_succ {p : Prim} {n : Nat} {op : MicroOp} {v : Byte} {pins : Pins} (hop : (p.lines v)[n]? = some op)
    (hd : ∀ d, p.dirAt n = some d → pins.sdaDir = d) :
    ∀ d, p.dirAt (n + 1) = some d → (op.drive pins).sdaDir = d := by
  have hn := lt_lineCount hop
  cases p
  all_goals
    simp only [Prim.lineCount] at hn
    interval_cases n <;> cases hop <;> simp_all [Prim.dirAt, MicroOp.drive]

/-- The direction at the line the pseudocode goes to is the one that the micro-operation leaves. -/
theorem after_dirAt {p : Prim} {n m : Nat} {op : MicroOp} {s t : State} (hop : (p.lines s.shift)[n]? = some op)
    (hd : ∀ d, p.dirAt n = some d → s.pins.sdaDir = d) (ha : p.after n (emit op s) = (t, .line m)) :
    ∀ d, p.dirAt m = some d → t.pins.sdaDir = d := by
  have hpins : t.pins = op.drive s.pins := by
    have h := (after_onlyBookkept p n (emit op s)).pins
    rwa [ha] at h
  rw [hpins]
  rcases after_line_cases (lt_lineCount hop) ha with
    ⟨rfl, -⟩ | ⟨rfl, rfl, ⟨v, rfl⟩ | ⟨k, rfl⟩⟩ | ⟨rfl, ⟨rfl, rfl⟩ | ⟨rfl, rfl⟩⟩
  · exact dirAt_succ hop hd
  all_goals cases hop; exact hd

theorem lineOk_after {p : Prim} {n m : Nat} {op : MicroOp} {s t : State} (h : p.LineOk n s)
    (hop : (p.lines s.shift)[n]? = some op) (ha : p.after n (emit op s) = (t, .line m)) : p.LineOk m t := by
  obtain ⟨hn, hd, hc⟩ := h
  have hc' : p.countersAt n (emit op s) := hc
  exact ⟨after_line_lt hn ha, after_dirAt hop hd ha, after_countersAt hc' ha⟩

/-! ### Every step keeps the invariant -/

theorem safe_nextPrimitive {s : State} {q : Seq} (h : Ranged s) : Safe (nextPrimitive q s) := by
  have hk := h.keepHighByte q
  unfold nextPrimitive
  split
  · next hlt =>
    rw [← (keepHighByte_onlyBookkept q s).cfg] at hlt
    exact safe_atLine hk (List.getElem?_eq_getElem hlt) (lineOk_zero _ _)
  · exact safe_finish hk _ _

theorem safe_advance {s : State} {q : Seq} {p : Prim} {op : MicroOp} (h : Ranged s)
    (hp : (primitives s.cfg q.cmd)[q.prim]? = some p) (hl : p.LineOk q.uop s)
    (hop : (p.lines s.shift)[q.uop]? = some op) : Safe (advance q p (emit op s)) := by
  have hc : p.countersAt q.uop (emit op s) := hl.2.2
  have ht := after_ranged (h.emit op) hc
  have hcfg := (after_onlyBookkept p q.uop (emit op s)).cfg
  unfold advance
  split
  · next t m ha =>
    rw [ha] at ht hcfg
    rw [← emit_cfg op s, ← hcfg] at hp
    exact safe_atLine ht hp (lineOk_after hl hop ha)
  · next ha => rw [ha] at ht; exact safe_nextPrimitive ht
  · next ha => rw [ha] at ht; exact safe_finish ht _ _

theorem engineStep_keeps_safe {s t : State} (h : Safe s) (ht : engineStep s = .next t) : Safe t := by
  rcases engineStep_cases ht with ⟨-, rfl⟩ | ⟨q, p, op, hq, hp, hop, -, rfl⟩
  · exact h
  · obtain ⟨hr, hpos⟩ := (safe_iff s).mp h
    obtain ⟨p', hp', hl⟩ := (positionOk_iff hq).mp hpos
    obtain rfl : p = p' := Option.some.inj (hp.symm.trans hp')
    exact safe_advance hr hp hl hop

theorem engineSteps_keep_safe {n : Nat} {s t : State} (h : Safe s) (ht : engineSteps n s = .next t) : Safe t := by
  induction n generalizing s with
  | zero => cases ht; exact h
  | succ n ih =>
    unfold engineSteps at ht
    split at ht
    · next u hu => exact ih (engineStep_keeps_safe h hu) ht
    · cases ht
    · cases ht

theorem begin_safe {s : State} (h : Ranged s) (i : Instr) : Safe (begin i s) := by
  obtain ⟨p, hp⟩ : ∃ p, (primitives s.cfg i)[0]? = some p := by cases i <;> exact ⟨_, rfl⟩
  exact safe_atLine h hp (lineOk_zero p s)

/-- A whole command keeps the invariant, because it is the end of a run of engine steps from its first position. -/
theorem execState_safe {s : State} (h : Ranged s) (i : Instr) : Safe (execState i s) := by
  obtain ⟨n, -, hrun⟩ := begin_reaches i s
  exact engineSteps_keep_safe (begin_safe h i) hrun

theorem illegalCommand_safe {s : State} (h : Ranged s) : Safe (illegalCommand s) :=
  (safe_iff _).mpr ⟨⟨h.bitcnt, h.pollcnt, .inr (.inr ⟨rfl, rfl⟩), h.reads, h.slave⟩, trivial⟩

theorem runCommand_safe {w : CmdWord} {s t : State} (h : Ranged s) (ht : runCommand w s = .next t) : Safe t := by
  unfold runCommand at ht
  split at ht
  · next i _ =>
    rw [exec_eq] at ht
    cases ht
    exact execState_safe h i
  · cases ht
    exact illegalCommand_safe h

theorem issueCommand_safe {s : State} (h : Ranged s) (w : CmdWord) : Safe (issueCommand w s) := by
  unfold issueCommand
  split
  · exact begin_safe h _
  · exact illegalCommand_safe h

/-- A read that answers only records what it gave back (R106). -/
theorem readRegister_cases {r : HostReg} {s t : State} (ht : readRegister r s = .next t) : ∃ v, t = s.addReturned v := by
  unfold readRegister at ht
  split at ht
  · cases ht
  · split at ht <;> cases ht <;> exact ⟨_, rfl⟩
  · cases ht; exact ⟨_, rfl⟩

theorem hardReset_safe {s : State} (h : slaveOk s) : Safe (hardReset s) :=
  ⟨Nat.zero_le 8, Nat.zero_le _, .inl ⟨rfl, rfl⟩, trivial, (fun _ he => absurd he List.not_mem_nil), h⟩

/-- Settles O48: the reset values are in range, `SEQ` is none and the trace is empty. -/
theorem resetIsSafe : Obligations.ResetIsSafe := hardReset_safe (s := State.reset) trivial

/-- Settles O49, by what a step can do: an engine step goes from a position to a position, and a whole command is a run of
engine steps. -/
theorem stepKeepsSafe : Obligations.StepKeepsSafe := by
  intro s t h ht
  obtain ⟨hr, hpos⟩ := (safe_iff s).mp h
  have hrest (rest : List HostOp) : Ranged (s.setPending rest) :=
    ⟨hr.bitcnt, hr.pollcnt, hr.status, hr.reads, hr.slave⟩
  rcases step_cases ht with ⟨rest, -, rfl⟩ | ⟨-, he⟩ | ⟨-, -, rfl⟩ | ⟨w, rest, -, -, hrun⟩ | ⟨w, rest, -, -, rfl⟩ |
    ⟨r, rest, hq, -, hread⟩
  · exact hardReset_safe (s := s.setPending rest) hr.slave
  · exact engineStep_keeps_safe h he
  · exact h
  · exact runCommand_safe (hrest rest) hrun
  · exact issueCommand_safe (hrest rest) w
  · obtain ⟨v, rfl⟩ := readRegister_cases hread
    exact (safe_iff _).mpr ⟨⟨hr.bitcnt, hr.pollcnt, hr.status, hr.reads, hr.slave⟩, positionOk_of_seq_none hq⟩

/-! ### The frame of every command -/

theorem engineStep_outsideKept {s t : State} (ht : engineStep s = .next t) : OutsideKept s t := by
  rcases engineStep_cases ht with ⟨-, rfl⟩ | ⟨q, p, op, -, -, -, -, rfl⟩
  · exact ⟨rfl, rfl, rfl⟩
  · have h := advance_onlyBookkept q p (emit op s)
    exact ⟨h.cfg, h.pending, h.returned⟩

theorem engineSteps_outsideKept {n : Nat} {s t : State} (ht : engineSteps n s = .next t) : OutsideKept s t := by
  induction n generalizing s with
  | zero => cases ht; exact ⟨rfl, rfl, rfl⟩
  | succ n ih =>
    unfold engineSteps at ht
    split at ht
    · next u hu =>
      obtain ⟨hcfg, hpend, hret⟩ := engineStep_outsideKept hu
      obtain ⟨hcfg', hpend', hret'⟩ := ih ht
      exact ⟨hcfg'.trans hcfg, hpend'.trans hpend, hret'.trans hret⟩
    · cases ht
    · cases ht

/-- No command touches the parameters and the host's side, because no engine step does (R5, R106). -/
theorem execState_outsideKept (i : Instr) (s : State) : OutsideKept s (execState i s) := by
  obtain ⟨n, -, hrun⟩ := begin_reaches i s
  have h := engineSteps_outsideKept hrun
  exact h

theorem sendbyte_keeps (v : Byte) (s : State) : (execState (.sendbyte v) s).pollcnt = s.pollcnt ∧
    (execState (.sendbyte v) s).hold = s.hold ∧ (execState (.sendbyte v) s).result = s.result := by
  have hran := sendByte_ran v s
  obtain ⟨-, -, hpoll, -⟩ := sendByte_registers v s
  obtain ⟨-, -, -, hcpoll, hchold, hcresult, -⟩ := complete_fields (sendByte v s)
  simp only [execState, hcpoll, hchold, hcresult]
  exact ⟨hpoll, hran.hold, hran.result⟩

theorem waitack_keeps (s : State) : (execState .waitack s).shift = s.shift ∧ (execState .waitack s).bitcnt = s.bitcnt ∧
    (execState .waitack s).hold = s.hold ∧ (execState .waitack s).result = s.result := by
  simp only [execState]
  rcases waitAck_cases s with ⟨j, t, -, ht, hran, -, hsh, hbc, -⟩ | ⟨t, ht, hran, -, hsh, hbc, -⟩
  · rw [ht]; exact ⟨hsh, hbc, hran.hold, hran.result⟩
  · rw [ht]; exact ⟨hsh, hbc, hran.hold, hran.result⟩

theorem recvbyte_keeps (ack : Bit) (s : State) : (execState (.recvbyte ack) s).pollcnt = s.pollcnt ∧
    (execState (.recvbyte ack) s).hold = s.hold := by
  obtain ⟨_, hran, -, -, hpoll, -⟩ := recvByte_cases ack s
  obtain ⟨-, -, -, hcpoll, hchold, -⟩ := complete_fields ((recvByte ack s).setResult (zextByte (recvByte ack s).shift))
  simp only [execState, endRecvByte, hcpoll, hchold, State.setResult_pollcnt, State.setResult_hold]
  exact ⟨hpoll, hran.hold⟩

theorem wrreg_keeps (reg : RegAddr) (value : Half) (s : State) :
    (execState (.wrreg reg value) s).hold = s.hold ∧ (execState (.wrreg reg value) s).result = s.result := by
  have hstart := start_ran s
  simp only [execState]
  rcases sendAcked_cases (writeBytes s.cfg reg value) (start s) with
    ⟨js, t, -, -, ht, hran, -⟩ | ⟨js, b, t, -, -, ht, hran, -⟩
  · have h := (hstart.trans hran).trans (stop_ran t)
    rw [ht]
    exact ⟨h.hold, h.result⟩
  · have h := hstart.trans hran
    rw [ht]
    exact ⟨h.hold, h.result⟩

/-- Settles O38, by what each primitive's run writes. -/
theorem eachCommandWritesOnlyItsRegisters : Obligations.EachCommandWritesOnlyItsRegisters := by
  intro i s
  refine ⟨execState i s, exec_eq i s, execState_outsideKept i s, ?_⟩
  cases i with
  | start =>
    obtain ⟨hsh, hbc, hpoll, hsample⟩ := start_registers s
    exact ⟨hsh, hbc, hpoll, (start_ran s).hold, (start_ran s).result, hsample⟩
  | stop =>
    obtain ⟨hsh, hbc, hpoll, hsample⟩ := stop_registers s
    exact ⟨hsh, hbc, hpoll, (stop_ran s).hold, (stop_ran s).result, hsample⟩
  | sendbyte v => exact sendbyte_keeps v s
  | waitack => exact waitack_keeps s
  | sendack ack =>
    obtain ⟨hsh, hbc, hpoll, hsample⟩ := sendAck_registers ack s
    exact ⟨hsh, hbc, hpoll, (sendAck_ran ack s).hold, (sendAck_ran ack s).result, hsample⟩
  | recvbyte ack => exact recvbyte_keeps ack s
  | wrreg reg value => exact wrreg_keeps reg value s
  | rdreg reg => trivial

/-! ### Reset and the host's accesses -/

theorem step_of_reset {s : State} {rest : List HostOp} (hp : s.pending = .reset :: rest) :
    step s = .next (hardReset (s.setPending rest)) := by
  simp only [step, move, hp]

theorem step_of_access {s : State} {o : HostOp} {rest : List HostOp} (hq : s.seq = none)
    (hp : s.pending = o :: rest) : step s = serve o (s.setPending rest) := by
  cases o <;> simp only [step, move, hp, hq, serve]

theorem step_of_command {s : State} {q : Seq} (hq : s.seq = some q) (hp : ∀ rest, s.pending ≠ .reset :: rest) :
    step s = engineStep s := by
  unfold step move
  split
  · next rest hreset => exact absurd hreset (hp rest)
  · rfl
  · next hnone => rw [hq] at hnone; cases hnone
  · next hnone => rw [hq] at hnone; cases hnone

theorem runCommand_of_decode {w : CmdWord} {i : Instr} (hw : decode w = .ok i) (s : State) :
    runCommand w s = exec i s := by
  simp only [runCommand, hw]

theorem decode_of_decodeTableWord {w : Nat} {i : Instr} (h : decodeTableWord 32 w = some i) :
    decode (BitVec.ofNat 32 (w % 2 ^ 32)) = .ok i := by
  have hword : tableWord 32 w = some (BitVec.ofNat 32 (w % 2 ^ 32)) := if_pos (Nat.mod_lt w (Nat.two_pow_pos 32))
  unfold decodeTableWord at h
  rw [hword] at h
  cases hd : decode (BitVec.ofNat 32 (w % 2 ^ 32)) with
  | ok j => simp only [hd, Option.some.injEq] at h; rw [h]
  | error e => simp only [hd, reduceCtorEq] at h

theorem readRegister_result {s : State} {v : Half} (h : s.result = some v) :
    readRegister .result s = .next (s.addReturned (.word (resultWord v))) := by
  simp only [readRegister, h]

theorem readRegister_unwritten {s : State} (h : s.result = none) :
    readRegister .result s = .next (s.addReturned .unwrittenResult) := by
  simp only [readRegister, h]

/-- The fields of the `STATUS` word (R22, R23). -/
theorem statusWord_fields (err : Bit) (cause : BitVec 2) : (statusWord err cause).getLsbD 0 = err ∧
    (statusWord err cause).extractLsb' 1 2 = cause ∧ (statusWord err cause).extractLsb' 3 29 = 0 := by
  revert err cause
  decide

/-- Settles O4: the reset values as the model writes them. -/
theorem resetLeavesTheEngineIdle : Obligations.ResetLeavesTheEngineIdle :=
  ⟨rfl, rfl, rfl, rfl, rfl, rfl, rfl, rfl, rfl, rfl, rfl⟩

/-- Settles O5: a reset that stands first in the list is taken before anything else is looked at. -/
theorem hardResetAtAnyMoment : Obligations.HardResetAtAnyMoment := fun _ _ hp =>
  ⟨_, step_of_reset hp, rfl, rfl, rfl, rfl, rfl, rfl, rfl, rfl, rfl, rfl, rfl, rfl⟩

/-- Settles O6: the access is served, and a word that decodes runs its command. -/
theorem stepRunsTheDecodedCommand : Obligations.StepRunsTheDecodedCommand := fun s _ rest _ hq hp hw =>
  (step_of_access hq hp).trans (runCommand_of_decode hw (s.setPending rest))

/-- Settles O7: the word placed is a pending write of `CMD`, so O6 speaks of it. -/
theorem placedWordRunsNext : Obligations.PlacedWordRunsNext := fun s w i hw =>
  stepRunsTheDecodedCommand (s.withFetchWord 32 w) _ s.pending i rfl rfl (decode_of_decodeTableWord hw)

/-- Settles O9: with a command in progress and no reset first, the step is the engine's, which keeps the host's side. -/
theorem hostIsBlockedWhileACommandRuns : Obligations.HostIsBlockedWhileACommandRuns := by
  intro s q hq hp
  have hstep := step_of_command hq hp
  refine ⟨hstep, fun t ht => ?_⟩
  obtain ⟨-, hpend, hret⟩ := engineStep_outsideKept (hstep.symm.trans ht)
  exact ⟨hpend, hret⟩

/-- Settles O10: each read is served as `readRegister` says. -/
theorem hostReadsOfTheRegisters : Obligations.HostReadsOfTheRegisters := by
  intro s rest hq
  refine ⟨fun hp => ⟨statusWord s.err s.cause, step_of_access hq hp, statusWord_fields s.err s.cause⟩,
    fun v hp hv => ?_, fun hp hv => ?_, fun hp => step_of_access hq hp⟩
  · exact (step_of_access hq hp).trans (readRegister_result hv)
  · exact (step_of_access hq hp).trans (readRegister_unwritten hv)

end Sys2Proof.Machine
end

section
/-! PROOFS. What the engine reads and what changes a register (20_memory.md): the bytes of a scripted slave (rules R35,
R36), and the one micro-operation that writes a register of the reference slave (R32, R39). -/

namespace Sys2Proof.Machine

/-! ### A byte read from a scripted slave -/

/-- The bits of a scripted slave's byte are its contributions at every fifth micro-operation, bit 7 first (R36, R80). -/
theorem Oracle.byteAt_bits (o : Oracle) (k : Nat) :
    (List.range 8).map (fun m => (o.byteAt k).getLsbD (7 - m)) = (List.range 8).map fun m => o.upcoming (k + 5 * m) := by
  have h := bits_of_shifted ((List.range 8).map fun m => o.upcoming (k + 5 * m)) (by simp)
  rwa [List.foldl_map] at h

theorem Oracle.byteAt_getLsbD (o : Oracle) (k : Nat) {m : Nat} (hm : m < 8) :
    (o.byteAt k).getLsbD (7 - m) = o.upcoming (k + 5 * m) :=
  List.map_inj_left.mp (o.byteAt_bits k) m (List.mem_range.mpr hm)

theorem zextByte_eq (v : Byte) : zextByte v = (0 : Byte) ++ v := by
  rw [zextByte, BitVec.setWidth_eq_append (show 8 ≤ 16 by decide)]
  rfl

/-- Settles O22: the loop shifts in the contributions at its eight samples, and the command copies `SHIFT` to `RESULT`. -/
theorem recvbyteReadsTheSlavesBits : Obligations.RecvbyteReadsTheSlavesBits := by
  intro ack s o ho
  obtain ⟨byte, -, hshift, -, -, hbyte⟩ := recvByte_cases ack s
  refine ⟨_, exec_eq _ s, ?_, complete_ended _, fun m hm => o.byteAt_getLsbD 3 hm⟩
  have hresult : (execState (.recvbyte ack) s).result = some (zextByte (recvByte ack s).shift) := rfl
  rw [hresult, hshift, hbyte o ho, zextByte_eq]

/-! ### A read from a scripted slave -/

/-- A list of counts split at a place: the acknowledge there comes within the bound. -/
theorem Oracle.acksFrom_append {o : Oracle} {bound k : Nat} {is js : List Nat} :
    o.acksFrom bound k (is ++ js) ↔
      o.acksFrom bound k is ∧ o.acksFrom bound (k + 45 * is.length + 2 * is.sum) js := by
  induction is generalizing k with
  | nil => simp [Oracle.acksFrom]
  | cons i is ih =>
    have e : k + 2 * i + 45 + 45 * is.length + 2 * is.sum = k + 45 * (i :: is).length + 2 * (i :: is).sum := by
      rw [List.length_cons, List.sum_cons]
      omega
    simp only [List.cons_append, Oracle.acksFrom, ih, e, and_assoc]

/-- A slave that acknowledges as counted misses none of these acknowledges. -/
theorem Oracle.acksFrom_not_missed {o : Oracle} {bound k : Nat} {is js : List Nat} (hj : o.acksFrom bound k js)
    (hi : o.acksFrom bound k is) (hlen : is.length < js.length) :
    ¬ o.missesAt (k + 45 * is.length + 2 * is.sum) bound := by
  have htake := Oracle.acksFrom_agree hi hj hlen.le
  rw [← List.take_append_drop is.length js, ← htake, List.drop_eq_getElem_cons hlen, Oracle.acksFrom_append] at hj
  obtain ⟨-, hlt, hack, -⟩ := hj
  exact Oracle.not_missesAt hack hlt

/-- Against a scripted slave that acknowledges every byte within the bound, an acknowledged send runs to its end (R86). -/
theorem sendAcked_of_acksFrom {o : Oracle} {js : List Nat} (bytes : List Byte) (s : State) (hs : s.slave = .oracle o)
    (hlen : js.length = bytes.length) (hjs : o.acksFrom s.cfg.ackPollBound.val 43 js) :
    ∃ t, sendAcked bytes s = (t, false) ∧ Ran s t (ackedTrace (bytes.zip js)) ∧
      (bytes ≠ [] → t.shift = 0 ∧ t.bitcnt = 0 ∧ some t.pollcnt = js.getLast?) := by
  rcases sendAcked_cases bytes s with ⟨is, t, hi, -, ht, hran, hreg, ho⟩ | ⟨is, b, t, hb, -, -, -, -, -, -, ho⟩
  · have hij : is = js := by
      have h := Oracle.acksFrom_agree (ho o hs) hjs (hi.trans hlen.symm).le
      rwa [hi, ← hlen, List.take_length] at h
    subst hij
    exact ⟨t, ht, hran, hreg⟩
  · obtain ⟨hacks, hmiss⟩ := ho o hs
    have hlt : is.length < js.length := by
      rw [hlen]
      exact (List.getElem?_eq_some_iff.mp hb).1
    exact absurd hmiss (Oracle.acksFrom_not_missed hjs hacks hlt)

/-- The low byte of a read is received with the high one in `HOLD` (R28, R88). -/
def lowByteRead (s : State) : State := recvByte false ((recvByte true s).setHold (recvByte true s).shift)

theorem lowByteRead_hold (s : State) : (lowByteRead s).hold = (recvByte true s).shift := by
  obtain ⟨_, hran, -⟩ := recvByte_cases false ((recvByte true s).setHold (recvByte true s).shift)
  exact hran.hold.trans (State.setHold_hold _ _)

/-- The data phase of `RDREG` joins the two bytes received (R88). -/
theorem readData_eq (s : State) : readData s =
    complete ((stop (lowByteRead s)).setResult (joinBytes (recvByte true s).shift (lowByteRead s).shift)) := by
  have hend : readData s = complete ((stop (lowByteRead s)).setResult
      (joinBytes (stop (lowByteRead s)).hold (stop (lowByteRead s)).shift)) := rfl
  rw [hend, (stop_ran _).hold, (stop_registers _).1, lowByteRead_hold]

/-- Everything the data phase of `RDREG` can do (R88): two bytes are read, the high one into `HOLD`, the low one into
`SHIFT`, and joined in `RESULT`; against a scripted slave they are the bytes it puts on the line. -/
theorem readData_cases (s : State) :
    ∃ hi lo, Performed s (readData s) (recvByteTrace hi true ++ recvByteTrace lo false ++ stopTrace) ∧
      (readData s).result = some (hi ++ lo) ∧ (readData s).hold = hi ∧ (readData s).shift = lo ∧
      (readData s).pollcnt = s.pollcnt ∧ (readData s).bitcnt = 0 ∧
      ∀ o, s.slave = .oracle o → hi = o.byteAt 3 ∧ lo = o.byteAt 51 := by
  obtain ⟨hi, hran, hhigh, -, hpoll, hbyte⟩ := recvByte_cases true s
  obtain ⟨lo, hran', hlow, hbit, hpoll', hbyte'⟩ :=
    recvByte_cases false ((recvByte true s).setHold (recvByte true s).shift)
  have hhold := lowByteRead_hold s
  rw [readData_eq]
  rw [← lowByteRead] at hran' hlow hbit hpoll'
  generalize recvByte true s = t at *
  generalize lowByteRead s = u at *
  refine ⟨hi, lo, ?_, ?_, hhold.trans hhigh, hlow, hpoll'.trans hpoll, hbit, fun o ho => ⟨hbyte o ho, ?_⟩⟩
  · rw [List.append_assoc]
    exact hran.performed.trans ((hran'.trans (stop_ran u)).performed.congr rfl)
  · rw [hhigh, hlow]
    rfl
  · rw [hbyte' _ (hran.slave o ho), Oracle.byteAt_after, recvByteTrace_length]

/-- `RDREG` whose acknowledges are all seen: the address and the register, the repeated start and the read address, then
the data phase (R88). -/
theorem execState_rdreg_of_acked {reg : RegAddr} {s t u : State}
    (ht : sendAcked [writeAddress s.cfg, reg] (start s) = (t, false))
    (hu : sendAcked [readAddress t.cfg] (start t) = (u, false)) : execState (.rdreg reg) s = readData u := by
  simp only [execState, ht, endPointer, readPhase, hu]

/-- Against a scripted slave that gives its three acknowledges within the bound, `RDREG` comes to its data phase (R88). -/
theorem execState_rdreg_of_acksFrom {o : Oracle} {s : State} {j1 j2 j3 : Nat} (reg : RegAddr) (hs : s.slave = .oracle o)
    (h12 : o.acksFrom s.cfg.ackPollBound.val 49 [j1, j2])
    (h3 : o.acksFrom s.cfg.ackPollBound.val (145 + 2 * (j1 + j2)) [j3]) :
    ∃ u, execState (.rdreg reg) s = readData u ∧
      Ran s u (pointerTrace s.cfg reg j1 j2 ++ startTrace ++ ackedTrace [(readAddress s.cfg, j3)]) ∧ u.pollcnt = j3 := by
  have hstart := start_ran s
  have hptr : (o.after startTrace.length).acksFrom (start s).cfg.ackPollBound.val 43 [j1, j2] :=
    Oracle.acksFrom_after.mpr h12
  obtain ⟨t, ht, hran, -⟩ := sendAcked_of_acksFrom [writeAddress s.cfg, reg] (start s) (hstart.slave o hs) rfl hptr
  have hst : Ran s t (pointerTrace s.cfg reg j1 j2) := hstart.trans hran
  have hrestart := hst.trans (start_ran t)
  have hrd : (o.after (pointerTrace s.cfg reg j1 j2 ++ startTrace).length).acksFrom
      (start t).cfg.ackPollBound.val 43 [j3] := by
    rw [Oracle.acksFrom_after, hrestart.cfg]
    convert h3 using 1
    simp [pointerTrace, ackedTrace, startTrace]
    omega
  obtain ⟨u, hu, hran', hreg⟩ := sendAcked_of_acksFrom [readAddress t.cfg] (start t) (hrestart.slave o hs) rfl hrd
  obtain ⟨-, -, hpoll⟩ := hreg (List.cons_ne_nil _ _)
  rw [hst.cfg] at hran'
  exact ⟨u, execState_rdreg_of_acked ht hu, hrestart.trans hran', Option.some.inj hpoll⟩

/-- Settles O31: the three acknowledges are the counted ones, and the data phase reads the slave's bytes. -/
theorem rdregReturnsTheSlavesBytes : Obligations.RdregReturnsTheSlavesBytes := by
  intro s o reg j1 j2 j3 hs h12 h3
  obtain ⟨u, hexec, hran, hpoll⟩ := execState_rdreg_of_acksFrom reg hs h12 h3
  obtain ⟨hi, lo, hperf, hresult, hhold, hshift, hpoll', hbit, hbytes⟩ := readData_cases u
  obtain ⟨hhi, hlo⟩ := hbytes _ (hran.slave o hs)
  have hlen : (pointerTrace s.cfg reg j1 j2 ++ startTrace ++ ackedTrace [(readAddress s.cfg, j3)]).length =
      147 + 2 * (j1 + j2 + j3) := by
    simp [pointerTrace, ackedTrace, startTrace]
    omega
  rw [Oracle.byteAt_after, hlen, Nat.add_right_comm] at hhi hlo
  subst hhi hlo
  refine ⟨readData u, (exec_eq _ s).trans (congrArg _ hexec), hresult, ?_, complete_ended _, ⟨rfl, rfl⟩, hhold, hshift,
    hpoll'.trans hpoll, hbit, hexec ▸ execState_outsideKept (.rdreg reg) s⟩
  have hall := hran.performed.trans hperf
  simpa only [readTrace, List.append_assoc, Nat.reduceAdd] using hall

/-! ### What changes a register of the reference slave -/

/-- A rising edge writes the bits received and the pulse count, nothing else of the slave. -/
theorem Sensor.onRise_writes (r : Sensor) (sda : Bit) :
    r.onRise sda = { r with sh := (r.onRise sda).sh, n := (r.onRise sda).n, acked := (r.onRise sda).acked } := by
  unfold Sensor.onRise Sensor.riseReceiving Sensor.riseSending
  split_ifs <;> rfl

theorem Sensor.onRise_regs (r : Sensor) (sda : Bit) : (r.onRise sda).regs = r.regs := by rw [r.onRise_writes]

theorem Sensor.fallSending_regs (r : Sensor) : r.fallSending.regs = r.regs := by
  unfold Sensor.fallSending Sensor.nextByte
  split_ifs
  · rfl
  · rfl
  · split <;> rfl
  · rfl

theorem Sensor.decideAck_regs (r : Sensor) : r.decideAck.regs = r.regs := by
  unfold Sensor.decideAck
  simp only
  split_ifs <;> rfl

/-- A received byte is stored only when it is a low byte. -/
theorem Sensor.consume_regs {r : Sensor} (h : r.phase ≠ .rxLo) : r.consume.regs = r.regs := by
  unfold Sensor.consume Sensor.beginSending
  cases hp : r.phase
  case rxLo => exact absurd hp h
  case rxAddr => simp only; split_ifs <;> rfl
  all_goals rfl

/-- The falling edge that ends the acknowledge pulse of a low byte: what is stored, and where (R32). -/
theorem Sensor.onFall_of_rxLo {r : Sensor} (hpresent : r.present = true) (hphase : r.phase = .rxLo) (hn : r.n = 9) :
    r.onFall.regs = r.regs.write r.ptr (r.hi ++ r.sh) := by
  simp [Sensor.onFall, Sensor.receiving, Sensor.fallReceiving, Sensor.consume, hpresent, hphase, hn, joinBytes]

theorem Sensor.onFall_regs {r : Sensor} (h : ¬ (r.present = true ∧ r.phase = .rxLo ∧ r.n = 9)) :
    r.onFall.regs = r.regs := by
  unfold Sensor.onFall Sensor.fallReceiving
  split_ifs with hpresent _ _ hn
  · rfl
  · exact r.decideAck_regs
  · exact Sensor.consume_regs fun hphase => h ⟨by simpa using hpresent, hphase, hn⟩
  · rfl
  · exact r.fallSending_regs
  · rfl

/-- Of all the slave sees on the wire, only a falling clock edge can change a register. -/
theorem Sensor.watch_regs (r : Sensor) (before after : Wire) :
    (r.watch before after).regs = r.regs ∨
      (before.scl = true ∧ after.scl = false ∧ r.watch before after = r.onFall) := by
  obtain ⟨bscl, bsda⟩ := before
  obtain ⟨ascl, asda⟩ := after
  cases bscl <;> cases ascl
  case true.false => exact .inr ⟨rfl, rfl, rfl⟩
  case true.true => cases bsda <;> cases asda <;> exact .inl rfl
  case false.true => exact .inl (r.onRise_regs asda)
  case false.false => exact .inl rfl

/-- Only `C0` takes the clock from high to low (R62). -/
theorem drive_lowers_clock {op : MicroOp} {p : Pins} (hp : p.sclOut = true) (h : (op.drive p).sclOut = false) :
    op = .clk false := by
  cases op
  case clk b => exact congrArg MicroOp.clk h
  all_goals exact absurd (hp.symm.trans h) (by decide)

/-- Settles O41: the slave stores at one falling edge only, and there in the register at the pointer. -/
theorem registersChangeOnlyByACompletedWrite : Obligations.RegistersChangeOnlyByACompletedWrite := by
  intro op s r hs
  have hslave : (emit op s).slave =
      .sensor (r.watch (s.pins.wire r.level) ((op.drive s.pins).wire r.level)) := by rw [emit_slave, hs]; rfl
  refine ⟨_, hslave, ?_, fun hnot => ?_⟩
  · rintro ⟨rfl, hscl, hpresent, hphase, hn⟩
    have hfall : r.watch (s.pins.wire r.level) ((MicroOp.drive (.clk false) s.pins).wire r.level) = r.onFall := by
      simp [Sensor.watch, Pins.wire, MicroOp.drive, hscl]
    rw [hfall, Sensor.onFall_of_rxLo hpresent hphase hn]
    exact ⟨Regs.read_write_self _ _ _, fun a ha => Regs.read_write_other _ _ ha⟩
  · rcases r.watch_regs (s.pins.wire r.level) ((op.drive s.pins).wire r.level) with hregs | ⟨hhigh, hlow, hfall⟩
    · exact hregs
    · rw [hfall]
      exact Sensor.onFall_regs fun ⟨hpresent, hphase, hn⟩ =>
        hnot ⟨drive_lowers_clock hhigh hlow, hhigh, hpresent, hphase, hn⟩

end Sys2Proof.Machine
end


section
/-! PROOFS. The two transactions on the reference slave (95_test_vectors.md section 2, test E6).  The slave and the reader
of the wire (30_encoding.md rule R57) are followed together, clock pulse by clock pulse: with the clock low the data line may
do anything, and a pulse is one bit to both. -/

namespace Sys2Proof.Machine

/-! ### Watching the wire -/

theorem Reader.walk_append (rd : Reader) (ws vs : List Wire) : rd.walk (ws ++ vs) = (rd.walk ws).walk vs := by
  induction ws generalizing rd with
  | nil => rfl
  | cons w ws ih => exact ih _

/-- A micro-operation shows the wire levels after it (R60). -/
theorem ShowedWires.after_emit {s t : State} {ws : List Wire} (h : ShowedWires s t ws) (op : MicroOp) :
    ShowedWires s (emit op t) (ws ++ [(op.drive t.pins).wire (emit op t).slave.level]) := by
  obtain ⟨new, hnew, rfl⟩ := h
  have htrace : (emit op t).trace =
      ⟨op.event (answer op t), (op.drive t.pins).wire (emit op t).slave.level⟩ :: t.trace := rfl
  exact ⟨new ++ [⟨op.event (answer op t), _⟩], by rw [htrace, hnew, List.reverse_concat, List.cons_append]; rfl,
    List.map_append⟩

/-- `t` comes from `s` with the parameters kept; the reference slave stands at `r`, and the reader of everything the wire
showed since `s` stands at `rd`. -/
structure Watched (s t : State) (r : Sensor) (rd : Reader) : Prop where
  cfg : t.cfg = s.cfg
  slave : t.slave = .sensor r
  wires : ∃ ws, ShowedWires s t ws ∧ Reader.fresh.walk ws = rd

section
variable {s t u : State} {r : Sensor} {rd : Reader}

theorem Watched.refl (hs : s.slave = .sensor r) : Watched s s r .fresh := ⟨rfl, hs, [], ⟨[], rfl, rfl⟩, rfl⟩

theorem Watched.congr (h : Watched s t r rd) (hcfg : u.cfg = t.cfg) (hslave : u.slave = t.slave)
    (htrace : u.trace = t.trace) : Watched s u r rd := by
  obtain ⟨hc, hs, ws, ⟨new, hnew, hws⟩, hrd⟩ := h
  exact ⟨hcfg.trans hc, hslave.trans hs, ws, ⟨new, htrace.trans hnew, hws⟩, hrd⟩

/-- A micro-operation: the slave sees the pins change against its own level, the reader sees the wire after both. -/
theorem Watched.after_emit (h : Watched s t r rd) (op : MicroOp) {r' : Sensor}
    (hr : r.watch (t.pins.wire r.level) ((op.drive t.pins).wire r.level) = r') :
    Watched s (emit op t) r' (rd.step ((op.drive t.pins).wire r'.level)) := by
  obtain ⟨hcfg, hslave, ws, hws, hrd⟩ := h
  have hslave' : (emit op t).slave = .sensor r' := by
    rw [emit_slave, hslave, ← hr]
    rfl
  refine ⟨hcfg, hslave', _, hws.after_emit op, ?_⟩
  rw [Reader.walk_append, hrd, hslave']
  rfl

end

/-! ### The clock low, the clock high -/

/-- Within a frame with the clock low: the reader has read `syms`, the last `bits` of them data bits of the present byte.
What the data line does here is nobody's concern. -/
structure ClockLow (s t : State) (r : Sensor) (bits : Nat) (syms : List Symbol) : Prop where
  scl : t.pins.sclOut = false
  watched : ∃ sda moved, Watched s t r ⟨some ⟨false, sda⟩, moved, true, bits, syms.reverse⟩

/-- The clock high and the data line not moved since the rise. -/
structure ClockHigh (s t : State) (r : Sensor) (inFrame : Bool) (bits : Nat) (syms : List Symbol) : Prop where
  scl : t.pins.sclOut = true
  watched : Watched s t r ⟨some (t.pins.wire r.level), false, inFrame, bits, syms.reverse⟩

theorem Sensor.watch_same (r : Sensor) (w : Wire) : r.watch w w = r := by
  obtain ⟨scl, sda⟩ := w
  cases scl <;> cases sda <;> rfl

theorem Sensor.onRise_present (r : Sensor) (sda : Bit) : (r.onRise sda).present = r.present := by
  rw [r.onRise_writes]

theorem Sensor.onRise_level (r : Sensor) (sda : Bit) : (r.onRise sda).level = r.level := by rw [r.onRise_writes]

/-- A clock pulse with the data line at `sda` throughout, as the slave sees it. -/
def Sensor.pulse (r : Sensor) (sda : Bit) : Sensor := (r.onRise sda).onFall

/-- What the reader makes of the level of a pulse: after eight bits of a byte the acknowledge (R57). -/
def pulseSymbol (bits : Nat) (sda : Bit) : Symbol := if bits = 8 then if sda then .nack else .ack else .bit sda

/-- A micro-operation that leaves every pin: `R` and `W(n)` (R64, R65). -/
def MicroOp.holds : MicroOp → Bool
  | .read | .wait _ => true
  | .dirOut | .dirIn | .clk _ | .dat _ => false

theorem MicroOp.drive_of_holds {op : MicroOp} (h : op.holds = true) (p : Pins) : op.drive p = p := by
  cases op
  case read | wait => rfl
  all_goals exact absurd h Bool.false_ne_true

theorem emits_pins_of_holds {ops : List MicroOp} (h : ops.all MicroOp.holds = true) (s : State) :
    (emits ops s).pins = s.pins := by
  induction ops generalizing s with
  | nil => rfl
  | cons op ops ih =>
    rw [List.all_cons, Bool.and_eq_true] at h
    rw [emits, ih h.2, emit_pins, MicroOp.drive_of_holds h.1]

section
variable {s t u : State} {r : Sensor} {f : Bool} {k : Nat} {syms : List Symbol}

theorem ClockLow.congr (h : ClockLow s t r k syms) (hpins : u.pins = t.pins) (hcfg : u.cfg = t.cfg)
    (hslave : u.slave = t.slave) (htrace : u.trace = t.trace) : ClockLow s u r k syms := by
  obtain ⟨hscl, sda, moved, hw⟩ := h
  exact ⟨hpins ▸ hscl, sda, moved, hw.congr hcfg hslave htrace⟩

theorem ClockLow.cfg (h : ClockLow s t r k syms) : t.cfg = s.cfg := by
  obtain ⟨_, _, _, hw⟩ := h
  exact hw.cfg

/-- With the clock staying low neither the slave nor the reader moves. -/
theorem ClockLow.after_emit (h : ClockLow s t r k syms) (op : MicroOp) (hop : (op.drive t.pins).sclOut = false) :
    ClockLow s (emit op t) r k syms := by
  obtain ⟨hscl, sda, moved, hw⟩ := h
  have hr : r.watch (t.pins.wire r.level) ((op.drive t.pins).wire r.level) = r := by
    simp [Sensor.watch, Pins.wire, hscl, hop]
  have h' := hw.after_emit op hr
  refine ⟨hop, ((op.drive t.pins).wire r.level).sda, moved, ?_⟩
  simpa [Reader.step, Pins.wire, hop] using h'

/-- The clock rises: the slave samples the line. -/
theorem ClockLow.rise (h : ClockLow s t r k syms) :
    ClockHigh s (emit (.clk true) t) (r.onRise (t.pins.master && r.level)) true k syms := by
  obtain ⟨hscl, sda, moved, hw⟩ := h
  have hr : r.watch (t.pins.wire r.level) ((MicroOp.drive (.clk true) t.pins).wire r.level) =
      r.onRise (t.pins.master && r.level) := by
    simp [Sensor.watch, Pins.wire, hscl, MicroOp.drive, Pins.master]
  have h' := hw.after_emit (.clk true) hr
  refine ⟨rfl, ?_⟩
  simpa [Reader.step, Pins.wire, MicroOp.drive] using h'

/-- A micro-operation that changes no pin changes nothing. -/
theorem ClockHigh.hold (h : ClockHigh s t r f k syms) (op : MicroOp) (hop : op.drive t.pins = t.pins) :
    ClockHigh s (emit op t) r f k syms := by
  obtain ⟨hscl, hw⟩ := h
  have hr : r.watch (t.pins.wire r.level) ((op.drive t.pins).wire r.level) = r := by
    rw [hop, Sensor.watch_same]
  have h' := hw.after_emit op hr
  refine ⟨by rw [emit_pins, hop, hscl], ?_⟩
  simpa [Reader.step, Pins.wire, hscl, hop] using h'

/-- What a read answers is the level of the line (R64). -/
theorem ClockHigh.sample (h : ClockHigh s t r f k syms) :
    (emit .read t).sample = (t.pins.master && r.level) := by
  have hslave := (h.hold .read rfl).watched.slave
  have hanswer : (emit .read t).sample = (t.pins.master && (emit .read t).slave.level) := rfl
  rw [hanswer, hslave]
  rfl

theorem ClockHigh.after_holds (h : ClockHigh s t r f k syms) {ops : List MicroOp} (hops : ops.all MicroOp.holds = true) :
    ClockHigh s (emits ops t) r f k syms := by
  induction ops generalizing t with
  | nil => exact h
  | cons op ops ih =>
    rw [List.all_cons, Bool.and_eq_true] at hops
    exact ih (h.hold op (MicroOp.drive_of_holds hops.1 _)) hops.2

/-- The clock falls: a bit is read. -/
theorem ClockHigh.fall (h : ClockHigh s t r true k syms) :
    ClockLow s (emit (.clk false) t) r.onFall (if k = 8 then 0 else k + 1)
      (syms ++ [pulseSymbol k (t.pins.master && r.level)]) := by
  obtain ⟨hscl, hw⟩ := h
  have hr : r.watch (t.pins.wire r.level) ((MicroOp.drive (.clk false) t.pins).wire r.level) = r.onFall := by
    simp [Sensor.watch, Pins.wire, hscl, MicroOp.drive]
  have h' := hw.after_emit (.clk false) hr
  refine ⟨rfl, ((MicroOp.drive (.clk false) t.pins).wire r.onFall.level).sda, false, ?_⟩
  by_cases hk : k = 8
  · simpa [Reader.step, Reader.onBit, Pins.wire, MicroOp.drive, hscl, pulseSymbol, hk] using h'
  · simpa [Reader.step, Reader.onBit, Pins.wire, MicroOp.drive, hscl, pulseSymbol, hk] using h'

/-- A whole clock pulse with the line at `d`: to the slave and to the reader it is one bit. -/
theorem ClockLow.after_pulse (h : ClockLow s t r k syms) {d : Bit} (hd : (t.pins.master && r.level) = d)
    {ops : List MicroOp} (hops : ops.all MicroOp.holds = true) :
    ClockLow s (emit (.clk false) (emits ops (emit (.clk true) t))) (r.pulse d) (if k = 8 then 0 else k + 1)
      (syms ++ [pulseSymbol k d]) := by
  have hfall := (h.rise.after_holds hops).fall
  have hmaster : (emits ops (emit (.clk true) t)).pins.master = t.pins.master := by
    rw [emits_pins_of_holds hops]
    rfl
  rw [hmaster, Sensor.onRise_level, hd] at hfall
  exact hfall

/-- A pulse that is a data bit. -/
theorem ClockLow.after_bit (h : ClockLow s t r k syms) (hk : k < 8) {d : Bit} (hd : (t.pins.master && r.level) = d)
    {ops : List MicroOp} (hops : ops.all MicroOp.holds = true) :
    ClockLow s (emit (.clk false) (emits ops (emit (.clk true) t))) (r.pulse d) (k + 1) (syms ++ [.bit d]) := by
  have hpulse := h.after_pulse hd hops
  rwa [if_neg hk.ne, pulseSymbol, if_neg hk.ne] at hpulse

/-- The start condition with the clock fall after it (R70): `S` outside a frame, `Sr` within. -/
theorem ClockHigh.startCondition (h : ClockHigh s t r f k syms) (hdir : t.pins.sdaDir = .output)
    (hsda : t.pins.sdaOut = true) (hl : r.level = true) (hpresent : r.present = true) :
    ClockLow s (emits [.dat false, .clk false] t) r.onStart 0 (syms ++ [if f then .repeatedStart else .start]) := by
  obtain ⟨hscl, hw⟩ := h
  have hr : r.watch (t.pins.wire r.level) ((MicroOp.drive (.dat false) t.pins).wire r.level) = r.onStart := by
    simp [Sensor.watch, Pins.wire, Pins.master, hscl, hdir, hsda, hl, MicroOp.drive]
  have h' := hw.after_emit (.dat false) hr
  have hr' : r.onStart.watch ((emit (.dat false) t).pins.wire r.onStart.level)
      ((MicroOp.drive (.clk false) (emit (.dat false) t).pins).wire r.onStart.level) = r.onStart := by
    simp [Sensor.watch, Pins.wire, hscl, MicroOp.drive, Sensor.onFall, Sensor.fallReceiving, Sensor.receiving,
      Sensor.onStart, hpresent]
  have h'' := h'.after_emit (.clk false) hr'
  refine ⟨rfl, false, true, ?_⟩
  simpa [Reader.step, Reader.onMove, Pins.wire, Pins.master, MicroOp.drive, hscl, hdir, hsda, hl, emits] using h''

/-- The stop condition (R72). -/
theorem ClockHigh.stopCondition (h : ClockHigh s t r f k syms) (hdir : t.pins.sdaDir = .output)
    (hsda : t.pins.sdaOut = false) (hl : r.level = true) :
    ∃ prev, Watched s (emit (.dat true) t) r.onStop ⟨prev, true, false, 0, (syms ++ [Symbol.stop]).reverse⟩ := by
  obtain ⟨hscl, hw⟩ := h
  have hr : r.watch (t.pins.wire r.level) ((MicroOp.drive (.dat true) t.pins).wire r.level) = r.onStop := by
    simp [Sensor.watch, Pins.wire, Pins.master, hscl, hdir, hsda, hl, MicroOp.drive]
  have h' := hw.after_emit (.dat true) hr
  refine ⟨some ⟨true, true⟩, ?_⟩
  simpa [Reader.step, Reader.onMove, Pins.wire, Pins.master, MicroOp.drive, hscl, hdir, hsda, hl,
    Sensor.onStop] using h'

end

/-! ### One clock pulse, as the slave sees it -/

section
variable {r : Sensor}

theorem Sensor.onRise_receiving (sda : Bit) (hpresent : r.present = true) (hrec : r.receiving = true) :
    r.onRise sda = r.riseReceiving sda := by simp [Sensor.onRise, hpresent, hrec]

theorem Sensor.onFall_receiving (hpresent : r.present = true) (hrec : r.receiving = true) :
    r.onFall = r.fallReceiving := by simp [Sensor.onFall, hpresent, hrec]

/-- The rising edge of a repeated start is a data bit to the slave, and the start condition forgets it. -/
theorem Sensor.onRise_onStart (sda : Bit) (hpresent : r.present = true) (hrec : r.receiving = true) :
    (r.onRise sda).onStart = r.onStart := by
  rw [Sensor.onRise_receiving sda hpresent hrec, Sensor.riseReceiving]
  split_ifs <;> rfl

theorem Sensor.onRise_of_idle (sda : Bit) (hphase : r.phase = .idle) : r.onRise sda = r := by
  simp [Sensor.onRise, Sensor.receiving, hphase]

/-- A rise leaves the slave receiving, so that the whole pulse is one of a receiving slave. -/
theorem Sensor.pulse_of_receiving (sda : Bit) (hpresent : r.present = true) (hrec : r.receiving = true) :
    r.pulse sda = (r.riseReceiving sda).fallReceiving := by
  have hrise : (r.riseReceiving sda).present = r.present ∧ (r.riseReceiving sda).receiving = r.receiving := by
    unfold Sensor.riseReceiving
    split_ifs <;> exact ⟨rfl, rfl⟩
  rw [Sensor.pulse, Sensor.onRise_receiving sda hpresent hrec,
    Sensor.onFall_receiving (hrise.1.trans hpresent) (hrise.2.trans hrec)]

/-- The first seven data bits are shifted in. -/
theorem Sensor.pulse_receiving (sda : Bit) (hpresent : r.present = true) (hrec : r.receiving = true) (hn : r.n < 7) :
    r.pulse sda = { r with sh := shiftIn r.sh sda, n := r.n + 1 } := by
  have hlt : r.n < 8 := by omega
  have hne : r.n ≠ 7 := by omega
  have hne' : r.n ≠ 8 := by omega
  simp [Sensor.pulse_of_receiving sda hpresent hrec, Sensor.riseReceiving, Sensor.fallReceiving, hlt, hne, hne']

/-- After the eighth the slave decides on its acknowledge. -/
theorem Sensor.pulse_receiving_eighth (sda : Bit) (hpresent : r.present = true) (hrec : r.receiving = true)
    (hn : r.n = 7) : r.pulse sda = Sensor.decideAck { r with sh := shiftIn r.sh sda, n := 8 } := by
  simp [Sensor.pulse_of_receiving sda hpresent hrec, Sensor.riseReceiving, Sensor.fallReceiving, hn]

/-- The acknowledge pulse consumes the byte. -/
theorem Sensor.pulse_receiving_ninth (sda : Bit) (hpresent : r.present = true) (hrec : r.receiving = true)
    (hn : r.n = 8) : r.pulse sda = Sensor.consume { r with n := 9 } := by
  simp [Sensor.pulse_of_receiving sda hpresent hrec, Sensor.riseReceiving, Sensor.fallReceiving, hn]

theorem Sensor.pulse_sending (sda : Bit) (hpresent : r.present = true) (hphase : r.phase = .tx) (hn : r.n < 7) :
    r.pulse sda = { r with n := r.n + 1, level := r.cur.getLsbD (7 - (r.n + 1)) } := by
  have h8 : r.n < 8 := by omega
  simp [Sensor.pulse, Sensor.onRise, Sensor.onFall, Sensor.receiving, Sensor.riseSending, Sensor.fallSending, hpresent,
    hphase, h8, hn]

theorem Sensor.pulse_sending_eighth (sda : Bit) (hpresent : r.present = true) (hphase : r.phase = .tx)
    (hn : r.n = 7) : r.pulse sda = { r with n := 8, level := true } := by
  simp [Sensor.pulse, Sensor.onRise, Sensor.onFall, Sensor.receiving, Sensor.riseSending, Sensor.fallSending, hpresent,
    hphase, hn]

theorem Sensor.pulse_sending_ninth (sda : Bit) (hpresent : r.present = true) (hphase : r.phase = .tx)
    (hn : r.n = 8) : r.pulse sda = Sensor.nextByte { r with acked := !sda, n := 9 } := by
  simp [Sensor.pulse, Sensor.onRise, Sensor.onFall, Sensor.receiving, Sensor.riseSending, Sensor.fallSending, hpresent,
    hphase, hn]

end

/-! ### The eight bits of a byte -/

/-- The bits that leave a shift register in `n` turns (R74). -/
def outBits : Nat → Byte → List Bit
  | 0, _ => []
  | n + 1, v => topBit v :: outBits n (shiftOut v)

theorem outBits_eight (v : Byte) : outBits 8 v = (List.range 8).map fun i => v.getLsbD (7 - i) := by
  have h : outBits 8 v = (List.range 8).map fun i => topBit (v <<< i) := by
    simp [outBits, shiftOut, ← BitVec.shiftLeft_add, List.range, List.range.loop]
  rw [h]
  exact List.map_congr_left fun i hi => topBit_shiftOut v i (List.mem_range.mp hi)

theorem outBits_shifted (n : Nat) (v : Byte) {k : Nat} (hk : k < 8) :
    outBits (n + 1) (v <<< k) = v.getLsbD (7 - k) :: outBits n (v <<< (k + 1)) := by
  rw [outBits, topBit_shiftOut v k hk, shiftOut, ← BitVec.shiftLeft_add]

theorem outBits_symbols (v : Byte) : (outBits 8 v).map Symbol.bit = byteSymbols v := by
  rw [outBits_eight]
  rfl

theorem foldl_shiftIn (bits : List Bit) (v : Byte) :
    bits.foldl shiftIn v = (v <<< bits.length) ||| bits.foldl shiftIn 0 := by
  induction bits generalizing v with
  | nil => simp
  | cons b bits ih =>
    rw [List.foldl_cons, List.foldl_cons, ih, ih (shiftIn 0 b), List.length_cons]
    simp only [shiftIn, BitVec.shiftLeft_or_distrib, Nat.add_comm bits.length 1, BitVec.shiftLeft_add]
    simp [BitVec.or_assoc]

/-- Shifting in the eight bits of a byte gives the byte, whatever was there before. -/
theorem foldl_shiftIn_outBits (v w : Byte) : (outBits 8 v).foldl shiftIn w = v := by
  have hlen : (outBits 8 v).length = 8 := rfl
  have hbits := bits_of_shifted (outBits 8 v) hlen
  have hzero : (outBits 8 v).foldl shiftIn 0 = v := by
    refine BitVec.eq_of_getLsbD_eq fun i hi => ?_
    have h := List.map_inj_left.mp (hbits.trans (outBits_eight v)) (7 - i) (List.mem_range.mpr (by omega))
    rwa [show 7 - (7 - i) = i by omega] at h
  rw [foldl_shiftIn, hlen, hzero, BitVec.shiftLeft_eq_zero (by decide)]
  exact BitVec.zero_or

/-! ### SENDBYTE and WAITACK -/

/-- The slave waits for a byte: receiving, none of its bits there yet, the line released. -/
structure Sensor.AwaitsByte (r : Sensor) : Prop where
  present : r.present = true
  receiving : r.receiving = true
  n : r.n = 0
  level : r.level = true
  refuse : r.refuse = none

/-- The slave after a byte that it acknowledges, the acknowledge pulse over. -/
def Sensor.took (r : Sensor) (v : Byte) : Sensor :=
  Sensor.consume { r with sh := v, n := 9, given := r.given + 1, level := false }

/-- A slave that refuses nothing acknowledges every byte but an address of another. -/
theorem Sensor.decideAck_of_addressed {r : Sensor} (hrefuse : r.refuse = none)
    (haddr : r.phase = .rxAddr → r.sh.extractLsb' 1 7 = r.addr) :
    r.decideAck = { r with given := r.given + 1, level := false } := by
  by_cases hphase : r.phase = .rxAddr
  · simp [Sensor.decideAck, hrefuse, haddr hphase]
  · simp [Sensor.decideAck, hrefuse, hphase]

section
variable {s t : State} {r : Sensor} {k : Nat} {syms : List Symbol}

/-- One turn of `SENDBYTE`'s loop is a pulse with the shift register's top bit on the line (R74). -/
theorem ClockLow.after_sendBit (h : ClockLow s t r k syms) (hk : k < 8) (hdir : t.pins.sdaDir = .output)
    (hl : r.level = true) :
    ClockLow s (sendBit t) (r.pulse (topBit t.shift)) (k + 1) (syms ++ [.bit (topBit t.shift)]) := by
  have hset := (h.after_emit (.dat (topBit t.shift)) h.scl).after_emit (.wait .tSu) h.scl
  have hline : ((emit (.wait .tSu) (emit (.dat (topBit t.shift)) t)).pins.master && r.level) = topBit t.shift := by
    simp [Pins.master, MicroOp.drive, hdir, hl]
  have hbit := hset.after_bit hk hline (ops := [.wait .tHigh]) rfl
  exact hbit.congr rfl rfl rfl rfl

/-- The last turns of the loop, from a slave that has the bits before them. -/
theorem ClockLow.after_sendBits (n : Nat) (h : ClockLow s t r r.n syms) (hn : r.n + (n + 1) = 8)
    (hdir : t.pins.sdaDir = .output) (hpresent : r.present = true) (hrec : r.receiving = true)
    (hl : r.level = true) :
    ClockLow s (sendBits (n + 1) t)
      (Sensor.decideAck { r with sh := (outBits (n + 1) t.shift).foldl shiftIn r.sh, n := 8 }) 8
      (syms ++ (outBits (n + 1) t.shift).map .bit) := by
  induction n generalizing t r syms with
  | zero =>
    have hbit := h.after_sendBit (by omega) hdir hl
    rwa [Sensor.pulse_receiving_eighth _ hpresent hrec (by omega), show r.n + 1 = 8 by omega] at hbit
  | succ n ih =>
    have hbit := h.after_sendBit (by omega) hdir hl
    rw [Sensor.pulse_receiving _ hpresent hrec (by omega)] at hbit
    have hrest := ih hbit (by simp only; omega) hdir hpresent hrec hl
    rwa [List.append_assoc] at hrest

/-- `SENDBYTE` to a slave that waits for a byte: it has the byte and holds the line for its acknowledge. -/
theorem ClockLow.after_sendByte (h : ClockLow s t r 0 syms) (hr : r.AwaitsByte) (v : Byte)
    (haddr : r.phase = .rxAddr → v.extractLsb' 1 7 = r.addr) :
    ClockLow s (sendByte v t) { r with sh := v, n := 8, given := r.given + 1, level := false } 8
      (syms ++ byteSymbols v) := by
  have hset : ClockLow s (((emit .dirOut t).setShift v).setBitcnt 8) r r.n syms := by
    rw [hr.n]
    exact (h.after_emit .dirOut h.scl).congr rfl rfl rfl rfl
  have hbits := hset.after_sendBits 7 (by rw [hr.n]) rfl hr.present hr.receiving hr.level
  rw [State.setBitcnt_shift, State.setShift_shift, foldl_shiftIn_outBits, outBits_symbols,
    Sensor.decideAck_of_addressed (r := { r with sh := v, n := 8 }) hr.refuse haddr] at hbits
  exact hbits

/-- `WAITACK` with the line held low ends at its first sample (R76). -/
theorem ClockLow.after_waitAck (h : ClockLow s t r 8 syms) (hl : r.level = false) :
    ∃ u, waitAck t = (u, false) ∧ ClockLow s u (r.pulse false) 0 (syms ++ [.ack]) := by
  have hset := h.after_emit .dirIn h.scl
  have hline : ((emit .dirIn t).pins.master && r.level) = false := by rw [hl, Bool.and_false]
  have hsample := hset.rise.sample
  rw [Sensor.onRise_level, hl, Bool.and_false] at hsample
  have hlow := hset.after_pulse hline (ops := [.read]) rfl
  obtain ⟨left, hleft⟩ := Nat.exists_eq_add_of_le t.cfg.ackPollBound.property
  refine ⟨_, ?_, hlow.congr (u := emit (.clk false) (emit .read ((emits [.dirIn, .clk true] t).setPollcnt 0)))
    rfl rfl rfl rfl⟩
  have hsample' : (emit .read ((emits [.dirIn, .clk true] t).setPollcnt 0)).sample = false := hsample
  rw [waitAck, hleft, Nat.add_comm, pollAck]
  simp only [hsample']

/-- A byte sent to a slave that waits for one is acknowledged (R86). -/
theorem ClockLow.after_sendAcked (h : ClockLow s t r 0 syms) (hr : r.AwaitsByte) (v : Byte)
    (haddr : r.phase = .rxAddr → v.extractLsb' 1 7 = r.addr) :
    ∃ u, (∀ bytes, sendAcked (v :: bytes) t = sendAcked bytes u) ∧
      ClockLow s u (r.took v) 0 (syms ++ byteFrame v .ack) := by
  obtain ⟨u, hu, hlow⟩ := (h.after_sendByte hr v haddr).after_waitAck rfl
  refine ⟨u, fun bytes => by rw [sendAcked, hu], ?_⟩
  rw [Sensor.pulse_receiving_ninth (r := { r with sh := v, n := 8, given := r.given + 1, level := false })
      false hr.present hr.receiving rfl, List.append_assoc] at hlow
  exact hlow

/-! ### RECVBYTE -/

/-- One turn of `RECVBYTE`'s loop is a pulse with the slave's level on the line, which is shifted in (R80). -/
theorem ClockLow.after_recvBit (h : ClockLow s t r k syms) (hk : k < 8) (hdir : t.pins.sdaDir = .input) :
    ClockLow s (recvBit t) (r.pulse r.level) (k + 1) (syms ++ [.bit r.level]) ∧
      (recvBit t).shift = shiftIn t.shift r.level := by
  have hset := h.after_emit (.wait .tSu) h.scl
  have hline : ((emit (.wait .tSu) t).pins.master && r.level) = r.level := by simp [Pins.master, MicroOp.drive, hdir]
  have hsample := hset.rise.sample
  rw [Sensor.onRise_level] at hsample
  have hbit := hset.after_bit hk hline (ops := [.read, .wait .tHigh]) rfl
  exact ⟨hbit.congr rfl rfl rfl rfl, congrArg (shiftIn t.shift) (hsample.trans hline)⟩

/-- The last turns of the loop, from a slave that has the next bit on the line: the bits left of its byte come in. -/
theorem ClockLow.after_recvBits (n : Nat) (h : ClockLow s t r r.n syms) (hn : r.n + (n + 1) = 8)
    (hdir : t.pins.sdaDir = .input) (hpresent : r.present = true) (hphase : r.phase = .tx)
    (hl : r.level = r.cur.getLsbD (7 - r.n)) :
    ClockLow s (recvBits (n + 1) t) { r with n := 8, level := true } 8
        (syms ++ (outBits (n + 1) (r.cur <<< r.n)).map .bit) ∧
      (recvBits (n + 1) t).shift = (outBits (n + 1) (r.cur <<< r.n)).foldl shiftIn t.shift := by
  induction n generalizing t r syms with
  | zero =>
    obtain ⟨hbit, hshift⟩ := h.after_recvBit (by omega) hdir
    rw [Sensor.pulse_sending_eighth _ hpresent hphase (by omega), show r.n + 1 = 8 by omega, hl] at hbit
    rw [outBits_shifted _ _ (by omega)]
    exact ⟨hbit, hl ▸ hshift⟩
  | succ n ih =>
    obtain ⟨hbit, hshift⟩ := h.after_recvBit (by omega) hdir
    rw [Sensor.pulse_sending _ hpresent hphase (by omega), hl] at hbit
    obtain ⟨hlow, hrest⟩ := ih hbit (by simp only; omega) hdir hpresent hphase rfl
    rw [outBits_shifted _ _ (by omega)]
    rw [List.append_assoc] at hlow
    rw [hshift, hl] at hrest
    exact ⟨hlow, hrest⟩

/-- `SENDACK` is the ninth pulse, low for an acknowledge (R78). -/
theorem ClockLow.after_sendAck (h : ClockLow s t r 8 syms) (hl : r.level = true) (ack : Bit) :
    ClockLow s (sendAck ack t) (r.pulse !ack) 0 (syms ++ [if ack then .ack else .nack]) := by
  have hset := ((h.after_emit .dirOut h.scl).after_emit (.dat !ack) h.scl).after_emit (.wait .tSu) h.scl
  have hline : ((emit (.wait .tSu) (emit (.dat !ack) (emit .dirOut t))).pins.master && r.level) = !ack := by
    rw [hl, Bool.and_true]
    rfl
  have hpulse := hset.after_pulse hline (ops := [.wait .tHigh]) rfl
  have hlow := hpulse.after_emit (.dat true) hpulse.scl
  cases ack <;> exact hlow

/-- `RECVBYTE` from a slave that sends: its present byte is in `SHIFT`, and it goes on as the ninth bit says (R80). -/
theorem ClockLow.after_recvByte (h : ClockLow s t r 0 syms) (hpresent : r.present = true) (hphase : r.phase = .tx)
    (hn : r.n = 0) (hl : r.level = topBit r.cur) (ack : Bit) :
    ClockLow s (recvByte ack t) (Sensor.nextByte { r with n := 9, level := true, acked := ack }) 0
        (syms ++ byteFrame r.cur (if ack then .ack else .nack)) ∧
      (recvByte ack t).shift = r.cur := by
  have hset : ClockLow s (((emit .dirIn t).setShift 0).setBitcnt 8) r r.n syms := by
    rw [hn]
    exact (h.after_emit .dirIn h.scl).congr rfl rfl rfl rfl
  have hl' : r.level = r.cur.getLsbD (7 - r.n) := by rw [hl, hn]; rfl
  obtain ⟨hbits, hshift⟩ := hset.after_recvBits 7 (by rw [hn]) rfl hpresent hphase hl'
  rw [hn, BitVec.shiftLeft_zero, outBits_symbols] at hbits
  rw [hn, BitVec.shiftLeft_zero, foldl_shiftIn_outBits] at hshift
  have hninth := hbits.after_sendAck rfl ack
  rw [Sensor.pulse_sending_ninth (r := { r with n := 8, level := true }) _ hpresent hphase rfl, Bool.not_not,
    List.append_assoc] at hninth
  exact ⟨hninth, hshift⟩

/-- The parameters and the registers of the slave are as they were. -/
structure Sensor.SameDevice (r r' : Sensor) : Prop where
  present : r'.present = r.present
  addr : r'.addr = r.addr
  refuse : r'.refuse = r.refuse
  regs : r'.regs = r.regs

/-- The slave is about to send the two bytes of a register, the top bit of the high one on the line. -/
structure Sensor.Sends (r : Sensor) (v : Half) : Prop where
  phase : r.phase = .tx
  n : r.n = 0
  cur : r.cur = highByte v
  queue : r.queue = [lowByte v]
  level : r.level = topBit r.cur

/-- The two bytes of a read, the first acknowledged and the second not: the slave sends both and is at rest (R50, R88). -/
theorem ClockLow.after_lowByteRead (h : ClockLow s t r 0 syms) (hpresent : r.present = true) {v : Half}
    (hr : r.Sends v) :
    ∃ r', ClockLow s (lowByteRead t) r' 0 (syms ++ byteFrame (highByte v) .ack ++ byteFrame (lowByte v) .nack) ∧
      r'.phase = .idle ∧ r'.level = true ∧ r.SameDevice r' ∧
      (recvByte true t).shift = highByte v ∧ (lowByteRead t).shift = lowByte v := by
  obtain ⟨hhigh, hshift⟩ := h.after_recvByte hpresent hr.phase hr.n hr.level true
  have hnext : Sensor.nextByte { r with n := 9, level := true, acked := true } =
      { r with n := 0, level := topBit (lowByte v), acked := true, cur := lowByte v, queue := [] } := by
    simp [Sensor.nextByte, hr.queue]
  rw [hnext, hr.cur] at hhigh
  have hkept := hhigh.congr (State.setHold_pins _ (recvByte true t).shift) (State.setHold_cfg _ _)
    (State.setHold_slave _ _) (State.setHold_trace _ _)
  obtain ⟨hlow, hshift'⟩ := hkept.after_recvByte hpresent hr.phase rfl rfl false
  exact ⟨_, hlow, rfl, rfl, ⟨rfl, rfl, rfl, rfl⟩, hshift.trans hr.cur, hshift'⟩

/-! ### START and STOP -/

/-- The first micro-operation watched, the clock high and no pin changed. -/
theorem clockHigh_of_unmoved (hs : s.slave = .sensor r) (hscl : s.pins.sclOut = true) (op : MicroOp)
    (hop : op.drive s.pins = s.pins) : ClockHigh s (emit op s) r false 0 [] := by
  have hr : r.watch (s.pins.wire r.level) ((op.drive s.pins).wire r.level) = r := by
    rw [hop, Sensor.watch_same]
  exact ⟨(congrArg Pins.sclOut hop).trans hscl, (Watched.refl hs).after_emit op hr⟩

/-- `START` from `Idle` (R70). -/
theorem clockLow_start (hidle : s.pins = Pins.idle) (hs : s.slave = .sensor r) (hl : r.level = true)
    (hpresent : r.present = true) : ClockLow s (start s) r.onStart 0 [.start] := by
  have h1 := clockHigh_of_unmoved hs (by rw [hidle]; rfl) .dirOut (by rw [hidle]; rfl)
  have hpins : (emit .dirOut s).pins = Pins.idle := by rw [emit_pins, hidle]; rfl
  have h2 := h1.hold (.dat true) (by rw [hpins]; rfl)
  have hpins' : (emit (.dat true) (emit .dirOut s)).pins = Pins.idle := by rw [emit_pins, hpins]; rfl
  have h3 := h2.hold (.clk true) (by rw [hpins']; rfl)
  exact (h3.hold (.wait .tStart) rfl).startCondition rfl rfl hl hpresent

/-- `START` within a frame, with the line released (R70). -/
theorem ClockLow.after_start (h : ClockLow s t r k syms) (hl : r.level = true) (hpresent : r.present = true)
    (hrec : r.receiving = true) : ClockLow s (start t) r.onStart 0 (syms ++ [.repeatedStart]) := by
  have hset := (h.after_emit .dirOut h.scl).after_emit (.dat true) h.scl
  have hmaster : (emit (.dat true) (emit .dirOut t)).pins.master = true := rfl
  have hrise := hset.rise
  rw [hmaster, hl, Bool.true_and] at hrise
  have hhold := hrise.hold (.wait .tStart) rfl
  have hlow := hhold.startCondition rfl rfl ((r.onRise_level true).trans hl) ((r.onRise_present true).trans hpresent)
  rwa [Sensor.onRise_onStart true hpresent hrec] at hlow

/-- `STOP` within a frame, the slave at rest: the frame is closed and the pins are idle (R72). -/
theorem ClockLow.after_stop (h : ClockLow s t r k syms) (hl : r.level = true) (hphase : r.phase = .idle) :
    ∃ prev, Watched s (stop t) r.onStop ⟨prev, true, false, 0, (syms ++ [Symbol.stop]).reverse⟩ := by
  have hset := ((h.after_emit (.clk false) rfl).after_emit .dirOut rfl).after_emit (.dat false) rfl
  have hmaster : (emit (.dat false) (emit .dirOut (emit (.clk false) t))).pins.master = false := rfl
  have hrise := hset.rise
  rw [hmaster, Bool.false_and, Sensor.onRise_of_idle false hphase] at hrise
  exact (hrise.hold (.wait .tStop) rfl).stopCondition rfl rfl hl

end

/-! ### The bytes of a frame, as the slave takes them -/

section
variable {r : Sensor}

/-- The write address (R47). -/
theorem Sensor.took_writeAddress (v : Byte) (hphase : r.phase = .rxAddr) (hv : v.getLsbD 0 = false) :
    r.took v = { r with phase := .rxPtr, n := 0, sh := v, given := r.given + 1, level := true } := by
  have hv' : ¬ v.getLsbD 0 = true := by simp only [hv, Bool.false_eq_true, not_false_eq_true]
  simp only [Sensor.took, Sensor.consume, hphase, if_neg hv']

/-- The read address: the slave begins to send the register at its pointer. -/
theorem Sensor.took_readAddress (v : Byte) (hphase : r.phase = .rxAddr) (hv : v.getLsbD 0 = true) :
    r.took v = Sensor.beginSending { r with sh := v, n := 0, given := r.given + 1, level := true } := by
  simp [Sensor.took, Sensor.consume, hphase, hv]

theorem Sensor.took_pointer (v : Byte) (hphase : r.phase = .rxPtr) :
    r.took v = { r with phase := .rxHi, n := 0, sh := v, ptr := v, given := r.given + 1, level := true } := by
  simp [Sensor.took, Sensor.consume, hphase]

theorem Sensor.took_high (v : Byte) (hphase : r.phase = .rxHi) :
    r.took v = { r with phase := .rxLo, n := 0, sh := v, hi := v, given := r.given + 1, level := true } := by
  simp [Sensor.took, Sensor.consume, hphase]

/-- The low byte completes the write of a register (R32). -/
theorem Sensor.took_low (v : Byte) (hphase : r.phase = .rxLo) :
    r.took v = { r with phase := .idle, n := 0, sh := v, given := r.given + 1, level := true,
                        regs := r.regs.write r.ptr (joinBytes r.hi v) } := by
  simp [Sensor.took, Sensor.consume, hphase]

/-- The slave after its address and a register number: the pointer phase that both transactions begin with. -/
def Sensor.pointed (r : Sensor) (reg : RegAddr) : Sensor :=
  { r.onStart with phase := .rxHi, sh := reg, ptr := reg, given := r.onStart.given + 2 }

/-- A stop condition leaves the slave at rest. -/
theorem Sensor.onStop_ready {cfg : Config} (hpresent : r.present = true) (haddr : r.addr = cfg.slaveAddr)
    (hrefuse : r.refuse = none) (hwf : r.regs.wf = true) : r.onStop.ready cfg :=
  ⟨hpresent, haddr, hrefuse, rfl, rfl, rfl, hwf⟩

end

theorem joinBytes_high_low (v : Half) : joinBytes (highByte v) (lowByte v) = v := by
  refine BitVec.eq_of_getLsbD_eq fun i hi => ?_
  rw [joinBytes, highByte, lowByte, BitVec.getLsbD_append, BitVec.getLsbD_extractLsb', BitVec.getLsbD_extractLsb']
  by_cases h : i < 8
  · simp [h]
  · rw [if_neg h]
    simp only [show 8 + (i - 8) = i by omega, show i - 8 < 8 by omega, decide_true, Bool.true_and]

/-- The fields of an address byte (R47). -/
theorem addressByte_fields (cfg : Config) (b : Bit) :
    (addressByte cfg b).extractLsb' 1 7 = cfg.slaveAddr ∧ (addressByte cfg b).getLsbD 0 = b := by
  constructor
  · refine BitVec.eq_of_getLsbD_eq fun i hi => ?_
    rw [BitVec.getLsbD_extractLsb', addressByte, BitVec.getLsbD_append]
    simp [hi]
  · rw [addressByte, BitVec.getLsbD_append]
    simp

/-! ### The transactions -/

section
variable {s : State} {r : Sensor}

/-- The pointer phase: `S`, the write address and the register number, both acknowledged (R49, R50). -/
theorem clockLow_pointed (reg : RegAddr) (hidle : s.pins = Pins.idle) (hs : s.slave = .sensor r)
    (hr : r.ready s.cfg) (hbit : s.cfg.writeBit = false) :
    ∃ u, (∀ bytes, sendAcked (writeAddress s.cfg :: reg :: bytes) (start s) = sendAcked bytes u) ∧
      ClockLow s u (r.pointed reg) 0
        (.start :: byteFrame (writeAddress s.cfg) .ack ++ byteFrame reg .ack) := by
  obtain ⟨hpresent, haddr, hrefuse, -, hl, -, -⟩ := hr
  obtain ⟨hfield, hlast⟩ : (writeAddress s.cfg).extractLsb' 1 7 = s.cfg.slaveAddr ∧
      (writeAddress s.cfg).getLsbD 0 = s.cfg.writeBit := addressByte_fields s.cfg s.cfg.writeBit
  have hstart := clockLow_start hidle hs hl hpresent
  obtain ⟨u, hu, hlow⟩ := hstart.after_sendAcked ⟨hpresent, rfl, rfl, rfl, hrefuse⟩ (writeAddress s.cfg)
    fun _ => hfield.trans haddr.symm
  rw [Sensor.took_writeAddress _ rfl (hlast.trans hbit)] at hlow
  obtain ⟨u', hu', hlow'⟩ := hlow.after_sendAcked ⟨hpresent, rfl, rfl, rfl, hrefuse⟩ reg nofun
  refine ⟨u', fun bytes => (hu _).trans (hu' bytes), ?_⟩
  rwa [Sensor.took_pointer _ rfl] at hlow'

/-- The symbols of the wire are those the reader has read (R57). -/
theorem Watched.symbols {t : State} {rd : Reader} (h : Watched s t r rd) :
    ∃ ws, ShowedWires s t ws ∧ symbolsOf ws = rd.symbols.reverse := by
  obtain ⟨-, -, ws, hws, rfl⟩ := h
  exact ⟨ws, hws, rfl⟩

/-- The read phase up to the data: `Sr` and the read address, acknowledged; the slave then sends the register at its
pointer (R50). -/
theorem ClockLow.after_readAddress {t : State} {reg : RegAddr} {syms : List Symbol}
    (h : ClockLow s t (r.pointed reg) 0 syms) (hr : r.ready s.cfg) (hbit : s.cfg.readBit = true) :
    ∃ u r', sendAcked [readAddress t.cfg] (start t) = (u, false) ∧
      ClockLow s u r' 0 (syms ++ .repeatedStart :: byteFrame (readAddress s.cfg) .ack) ∧
      r'.Sends (r.regs.read reg) ∧ r.SameDevice r' := by
  obtain ⟨hpresent, haddr, hrefuse, -, -, -, -⟩ := hr
  obtain ⟨hfield, hlast⟩ : (readAddress s.cfg).extractLsb' 1 7 = s.cfg.slaveAddr ∧
      (readAddress s.cfg).getLsbD 0 = s.cfg.readBit := addressByte_fields s.cfg s.cfg.readBit
  obtain ⟨u, hu, hlow⟩ := (h.after_start rfl hpresent rfl).after_sendAcked ⟨hpresent, rfl, rfl, rfl, hrefuse⟩
    (readAddress s.cfg) fun _ => hfield.trans haddr.symm
  rw [Sensor.took_readAddress _ rfl (hlast.trans hbit), List.append_assoc] at hlow
  refine ⟨u, _, ?_, hlow, ⟨rfl, rfl, rfl, rfl, rfl⟩, ⟨rfl, rfl, rfl, rfl⟩⟩
  rw [h.cfg, hu, sendAcked]

end

/-- Settles O39: the slave takes the four bytes, and the last of them completes the write of the register pointed at. -/
theorem sensorStoresWhatIsWritten : Obligations.SensorStoresWhatIsWritten := by
  intro s r reg value ⟨hpins, _⟩ hs hr ⟨hbit, _⟩
  obtain ⟨u, hu, hlow⟩ := clockLow_pointed reg hpins hs hr hbit
  obtain ⟨hpresent, haddr, hrefuse, -, -, -, hwf⟩ := hr
  obtain ⟨v, hv, hhigh⟩ := hlow.after_sendAcked ⟨hpresent, rfl, rfl, rfl, hrefuse⟩ (highByte value) nofun
  rw [Sensor.took_high _ rfl] at hhigh
  obtain ⟨w, hw, hdone⟩ := hhigh.after_sendAcked ⟨hpresent, rfl, rfl, rfl, hrefuse⟩ (lowByte value) nofun
  rw [Sensor.took_low _ rfl, joinBytes_high_low] at hdone
  obtain ⟨prev, hstop⟩ := hdone.after_stop rfl rfl
  have hexec : execState (.wrreg reg value) s = complete (stop w) := by
    have hsent : sendAcked (writeBytes s.cfg reg value) (start s) = (w, false) := (hu _).trans ((hv _).trans (hw []))
    rw [execState, hsent, endWrite]
  obtain ⟨ws, hws, hsyms⟩ := (hstop.congr (u := complete (stop w)) rfl rfl rfl).symbols
  refine ⟨_, _, ws, (exec_eq _ s).trans (congrArg _ hexec), complete_ended _, ⟨rfl, rfl⟩, hstop.slave,
    Sensor.onStop_ready hpresent haddr hrefuse (Regs.wf_write _ _ hwf), Regs.read_write_self _ _ _,
    fun a ha => Regs.read_write_other _ _ ha, hws, ?_⟩
  rw [hsyms, List.reverse_reverse]
  simp [writeFrame]

/-- Settles O40: after the pointer phase the slave sends the register pointed at, and no byte it takes writes one. -/
theorem sensorReturnsWhatItHolds : Obligations.SensorReturnsWhatItHolds := by
  intro s r reg ⟨hpins, _⟩ hs hr ⟨hwrite, hread⟩
  obtain ⟨t, ht, hpointed⟩ := clockLow_pointed reg hpins hs hr hwrite
  obtain ⟨u, r₁, hu, haddressed, hsends, hsame⟩ := hpointed.after_readAddress hr hread
  obtain ⟨hpresent, haddr, hrefuse, -, -, -, hwf⟩ := hr
  obtain ⟨r₂, hdone, hphase, hl, hsame', hhigh, hlow⟩ :=
    haddressed.after_lowByteRead (hsame.present.trans hpresent) hsends
  obtain ⟨prev, hstop⟩ := hdone.after_stop hl hphase
  have hexec := execState_rdreg_of_acked (ht []) hu
  rw [readData_eq, hhigh, hlow, joinBytes_high_low] at hexec
  generalize lowByteRead u = w at hexec hstop
  have hregs := hsame'.regs.trans hsame.regs
  obtain ⟨ws, hws, hsyms⟩ := (hstop.congr (u := (stop w).setResult (r.regs.read reg)) rfl rfl rfl).symbols
  refine ⟨_, r₂.onStop, ws, (exec_eq _ s).trans (congrArg _ hexec), complete_ended _, ⟨rfl, rfl⟩, rfl, hstop.slave,
    Sensor.onStop_ready ?_ ?_ ?_ ?_, hregs, hws, ?_⟩
  · exact hsame'.present.trans (hsame.present.trans hpresent)
  · exact hsame'.addr.trans (hsame.addr.trans haddr)
  · exact hsame'.refuse.trans (hsame.refuse.trans hrefuse)
  · rw [hregs, hwf]
  · rw [hsyms, List.reverse_reverse]
    simp [readFrame]

/-- Settles O42: the write of O39 leaves the slave at rest, so the read of O40 follows and returns the word. -/
theorem bootSequenceSucceedsOnTheSensor : Obligations.BootSequenceSucceedsOnTheSensor := by
  intro s r word hidle hs hr hbits
  obtain ⟨t, r', -, hwrite, ⟨herr, -, -⟩, hidle', ht, hr', hreg, -, -, -⟩ :=
    sensorStoresWhatIsWritten s r SensorReg.configuration.address word hidle hs hr hbits
  have hcfg : t.cfg = s.cfg := by
    obtain ⟨hcfg, -, -⟩ := execState_outsideKept (.wrreg SensorReg.configuration.address word) s
    rw [exec_eq] at hwrite
    rwa [Host.Outcome.next.inj hwrite] at hcfg
  rw [← hcfg] at hr' hbits
  obtain ⟨u, r'', -, hread, -, hidle'', hresult, hu, -, hregs, -, -⟩ :=
    sensorReturnsWhatItHolds t r' SensorReg.configuration.address hidle' ht hr' hbits
  refine ⟨u, r'', ?_, hidle'', hu, ?_⟩
  · simp [bootSensor, hwrite, herr, hread, hresult, hreg]
  · rw [hregs]
    exact hreg

end Sys2Proof.Machine
end

section
/-! PROOFS. The command word (30_encoding.md rules R51 to R54): a word is its three fields, each row of the table is a
condition on them, and so decoding and encoding are inverse to each other. -/

namespace Sys2Proof

/-! ### The fields of a word -/

@[simp] theorem opField_cmdWord (op a : Byte) (d : Half) : opField (cmdWord op a d) = op := by
  refine BitVec.eq_of_getLsbD_eq fun i hi => ?_
  rw [opField, cmdWord, BitVec.getLsbD_extractLsb', BitVec.getLsbD_append, BitVec.getLsbD_append]
  simp only [hi, decide_true, Bool.true_and, show ¬ 24 + i < 16 by omega, show ¬ 24 + i - 16 < 8 by omega, if_false,
    show 24 + i - 16 - 8 = i by omega]

@[simp] theorem aField_cmdWord (op a : Byte) (d : Half) : aField (cmdWord op a d) = a := by
  refine BitVec.eq_of_getLsbD_eq fun i hi => ?_
  rw [aField, cmdWord, BitVec.getLsbD_extractLsb', BitVec.getLsbD_append, BitVec.getLsbD_append]
  simp only [hi, decide_true, Bool.true_and, show ¬ 16 + i < 16 by omega, show 16 + i - 16 = i by omega, if_true,
    if_false]

@[simp] theorem dField_cmdWord (op a : Byte) (d : Half) : dField (cmdWord op a d) = d := by
  refine BitVec.eq_of_getLsbD_eq fun i hi => ?_
  rw [dField, cmdWord, BitVec.getLsbD_extractLsb', BitVec.getLsbD_append]
  simp only [hi, decide_true, Bool.true_and, Nat.zero_add, if_true]

/-- A word is made of its fields (R51). -/
theorem cmdWord_fields (w : CmdWord) : cmdWord (opField w) (aField w) (dField w) = w := by
  refine BitVec.eq_of_getLsbD_eq fun i hi => ?_
  rw [cmdWord, BitVec.getLsbD_append, BitVec.getLsbD_append, dField, aField, opField, BitVec.getLsbD_extractLsb',
    BitVec.getLsbD_extractLsb', BitVec.getLsbD_extractLsb']
  split_ifs with hd ha
  · simp only [hd, decide_true, Bool.true_and, Nat.zero_add]
  · simp only [ha, decide_true, Bool.true_and, show 16 + (i - 16) = i by omega]
  · simp only [show i - 16 - 8 < 8 by omega, decide_true, Bool.true_and, show 24 + (i - 16 - 8) = i by omega]

theorem cmdWord_inj {op op' a a' : Byte} {d d' : Half} :
    cmdWord op a d = cmdWord op' a' d' ↔ op = op' ∧ a = a' ∧ d = d' := by
  refine ⟨fun h => ?_, fun ⟨hop, ha, hd⟩ => by rw [hop, ha, hd]⟩
  have hop := congrArg opField h
  have ha := congrArg aField h
  have hd := congrArg dField h
  rw [opField_cmdWord, opField_cmdWord] at hop
  rw [aField_cmdWord, aField_cmdWord] at ha
  rw [dField_cmdWord, dField_cmdWord] at hd
  exact ⟨hop, ha, hd⟩

/-! ### The acknowledge operand -/

@[simp] theorem ackOnly_ackByte (ack : Bit) : ackOnly (ackByte ack) = true := by cases ack <;> rfl

@[simp] theorem getElem_ackByte (ack : Bit) : (ackByte ack)[0] = ack := by cases ack <;> rfl

/-- An acknowledge operand is its bit 0 (R52). -/
theorem ackByte_of_ackOnly {a : Byte} (h : ackOnly a = true) : ackByte (a.getLsbD 0) = a := by
  revert a
  decide

/-! ### Decoding -/

/-- The decoder reads the fields (R51, R52). -/
theorem decode_encode (i : Instr) : decode (encode i) = .ok i := by
  cases i with
  | start => rfl
  | stop => rfl
  | sendbyte v => simp [decode, encode]
  | waitack => rfl
  | sendack k => simp [decode, encode]
  | recvbyte k => simp [decode, encode]
  | wrreg r v => simp [decode, encode]
  | rdreg r => simp [decode, encode]

/-- Settles O2: the decoder finds the three fields as the encoder wrote them, and they satisfy the conditions of the
command's row. -/
theorem decodeEncodeRoundTrip : Obligations.DecodeEncodeRoundTrip := decode_encode

/-- What the decoder accepts has the code of a row, and its must-be-zero fields are zero (R52). -/
theorem encode_of_decode_fields {op a : Byte} {d : Half} {i : Instr} (h : decode (cmdWord op a d) = .ok i) :
    encode i = cmdWord op a d := by
  simp only [decode, opField_cmdWord, aField_cmdWord, dField_cmdWord] at h
  split at h
  case h_1 hop | h_2 hop | h_4 hop =>
    split at h
    · next hzero =>
      cases h
      rw [Bool.and_eq_true, beq_iff_eq, beq_iff_eq] at hzero
      exact cmdWord_inj.mpr ⟨BitVec.eq_of_toNat_eq hop.symm, hzero.1.symm, hzero.2.symm⟩
    · cases h
  case h_3 hop | h_8 hop =>
    split at h
    · next hzero =>
      cases h
      exact cmdWord_inj.mpr ⟨BitVec.eq_of_toNat_eq hop.symm, rfl, (beq_iff_eq.mp hzero).symm⟩
    · cases h
  case h_5 hop | h_6 hop =>
    split at h
    · next hzero =>
      cases h
      rw [Bool.and_eq_true, beq_iff_eq] at hzero
      exact cmdWord_inj.mpr ⟨BitVec.eq_of_toNat_eq hop.symm, ackByte_of_ackOnly hzero.1, hzero.2.symm⟩
    · cases h
  case h_7 hop =>
    cases h
    exact cmdWord_inj.mpr ⟨BitVec.eq_of_toNat_eq hop.symm, rfl, rfl⟩
  case h_9 => cases h

/-- The word is the encoding of what it decodes to (R52, R54). -/
theorem encode_of_decode {w : CmdWord} {i : Instr} (h : decode w = .ok i) : encode i = w := by
  rw [← cmdWord_fields w] at h
  exact (encode_of_decode_fields h).trans (cmdWord_fields w)

/-- The two directions together: a word decodes to a command exactly when it is the command's encoding. -/
theorem decode_eq_ok_iff {w : CmdWord} {i : Instr} : decode w = .ok i ↔ encode i = w :=
  ⟨encode_of_decode, fun h => h ▸ decode_encode i⟩

/-! ### The rows of the table -/

/-- What a row of the table demands of the fields of a word (R52). -/
theorem selects_cmdWord (name : String) (op a op' a' mo ma : Byte) (d d' md : Half) :
    Row.selects ⟨name, cmdWord op' a' d', cmdWord mo ma md⟩ (cmdWord op a d) = true ↔
      op &&& mo = op' ∧ a &&& ma = a' ∧ d &&& md = d' := by
  rw [Row.selects, beq_iff_eq, Laws.EncodeRow.and_word, cmdWord_inj]

theorem rowOf_mem (i : Instr) : rowOf i ∈ opcodeTable := by cases i <;> simp [rowOf, opcodeTable]

/-- The word of a command selects its row (R52). -/
theorem rowOf_selects (i : Instr) : (rowOf i).selects (encode i) = true := by
  cases i with
  | start => exact Laws.EncodeRow.start.1
  | stop => exact Laws.EncodeRow.stop.1
  | sendbyte v => exact (Laws.EncodeRow.sendbyte v).1
  | waitack => exact Laws.EncodeRow.waitack.1
  | sendack k => exact (Laws.EncodeRow.sendack k).1
  | recvbyte k => exact (Laws.EncodeRow.recvbyte k).1
  | wrreg r v => exact (Laws.EncodeRow.wrreg r v).1
  | rdreg r => exact (Laws.EncodeRow.rdreg r).1

/-- Every row compares the whole code, so a word that selects it has the row's code. -/
theorem opField_of_selects {r : Row} {w : CmdWord} (hr : r ∈ opcodeTable) (h : r.selects w = true) :
    opField w = opField r.pattern := by
  have hmask : ∀ r ∈ opcodeTable, r.mask = cmdWord 0xFF (aField r.mask) (dField r.mask) := by decide
  obtain ⟨name, pattern, mask⟩ := r
  have hm : mask = cmdWord 0xFF (aField mask) (dField mask) := hmask _ hr
  rw [hm, ← cmdWord_fields pattern, ← cmdWord_fields w, selects_cmdWord] at h
  rw [← h.1]
  exact BitVec.and_allOnes.symm

/-- No two rows have the same code. -/
theorem row_eq_of_opField_eq : ∀ r ∈ opcodeTable, ∀ r' ∈ opcodeTable,
    opField r.pattern = opField r'.pattern → r = r' := by decide

/-- A word selects one row at most (R52). -/
theorem row_unique {r r' : Row} {w : CmdWord} (hr : r ∈ opcodeTable) (hr' : r' ∈ opcodeTable)
    (h : r.selects w = true) (h' : r'.selects w = true) : r = r' :=
  row_eq_of_opField_eq r hr r' hr' ((opField_of_selects hr h).symm.trans (opField_of_selects hr' h'))

/-- The fields that a row leaves free are operands: a word that selects it is the encoding of a command (R52, R53). -/
theorem encode_of_selects {op a : Byte} {d : Half} {r : Row} (hr : r ∈ opcodeTable)
    (h : r.selects (cmdWord op a d) = true) : ∃ i, encode i = cmdWord op a d := by
  have hcode : opField r.pattern = op := ((opField_cmdWord op a d).symm.trans (opField_of_selects hr h)).symm
  have hbyte (hz : a &&& 0xFF = 0) : 0 = a := (BitVec.and_allOnes.symm.trans hz).symm
  have hhalf (hz : d &&& 0xFFFF = 0) : 0 = d := (BitVec.and_allOnes.symm.trans hz).symm
  have hack (hz : a &&& 0xFE = 0) : ackByte (a.getLsbD 0) = a := ackByte_of_ackOnly (beq_iff_eq.mpr hz)
  simp only [opcodeTable, List.mem_cons, List.not_mem_nil, or_false] at hr
  rcases hr with rfl | rfl | rfl | rfl | rfl | rfl | rfl | rfl
  · obtain ⟨-, ha, hd⟩ := (selects_cmdWord "START" op a 0x01 0 0xFF 0xFF d 0 0xFFFF).mp h
    exact ⟨.start, cmdWord_inj.mpr ⟨hcode, hbyte ha, hhalf hd⟩⟩
  · obtain ⟨-, ha, hd⟩ := (selects_cmdWord "STOP" op a 0x02 0 0xFF 0xFF d 0 0xFFFF).mp h
    exact ⟨.stop, cmdWord_inj.mpr ⟨hcode, hbyte ha, hhalf hd⟩⟩
  · obtain ⟨-, -, hd⟩ := (selects_cmdWord "SENDBYTE" op a 0x03 0 0xFF 0 d 0 0xFFFF).mp h
    exact ⟨.sendbyte a, cmdWord_inj.mpr ⟨hcode, rfl, hhalf hd⟩⟩
  · obtain ⟨-, ha, hd⟩ := (selects_cmdWord "WAITACK" op a 0x04 0 0xFF 0xFF d 0 0xFFFF).mp h
    exact ⟨.waitack, cmdWord_inj.mpr ⟨hcode, hbyte ha, hhalf hd⟩⟩
  · obtain ⟨-, ha, hd⟩ := (selects_cmdWord "SENDACK" op a 0x05 0 0xFF 0xFE d 0 0xFFFF).mp h
    exact ⟨.sendack (a.getLsbD 0), cmdWord_inj.mpr ⟨hcode, hack ha, hhalf hd⟩⟩
  · obtain ⟨-, ha, hd⟩ := (selects_cmdWord "RECVBYTE" op a 0x06 0 0xFF 0xFE d 0 0xFFFF).mp h
    exact ⟨.recvbyte (a.getLsbD 0), cmdWord_inj.mpr ⟨hcode, hack ha, hhalf hd⟩⟩
  · exact ⟨.wrreg a d, cmdWord_inj.mpr ⟨hcode, rfl, rfl⟩⟩
  · obtain ⟨-, -, hd⟩ := (selects_cmdWord "RDREG" op a 0x11 0 0xFF 0 d 0 0xFFFF).mp h
    exact ⟨.rdreg a, cmdWord_inj.mpr ⟨hcode, rfl, hhalf hd⟩⟩

/-- Settles O3: the words that decode are the encodings; an encoding selects its command's row, every word that selects a
row is an encoding, and the codes tell the rows apart. -/
theorem decodeAcceptsExactlyTheTable : Obligations.DecodeAcceptsExactlyTheTable := by
  refine fun w => ⟨⟨?_, ?_⟩, ?_⟩
  · rintro ⟨i, hi⟩
    obtain rfl := encode_of_decode hi
    exact ⟨rowOf i, rowOf_mem i, rowOf_selects i⟩
  · rintro ⟨r, hr, h⟩
    rw [← cmdWord_fields w] at h ⊢
    obtain ⟨i, hi⟩ := encode_of_selects hr h
    exact ⟨i, decode_eq_ok_iff.mpr hi⟩
  · intro i hi
    obtain rfl := encode_of_decode hi
    exact ⟨rfl, fun r hr h => row_unique hr (rowOf_mem i) h (rowOf_selects i)⟩

/-- Settles O1: each of the nine words is the encoding of the command it stands for, so O2 speaks of it. -/
theorem writtenWordsDecode : Obligations.WrittenWordsDecode :=
  ⟨decode_encode .start, decode_encode .stop, decode_encode (.sendbyte 0x88), decode_encode .waitack,
    decode_encode (.sendack true), decode_encode (.sendack false), decode_encode (.recvbyte true),
    decode_encode (.wrreg 0x01 0xC410), decode_encode (.rdreg 0x7E)⟩

end Sys2Proof
end

section
/-! PROOFS. The two transactions from any state and against any slave (42_register_protocol.md rules R87 to R90): every way
the acknowledged sends can end, followed by the transaction's own end. -/

namespace Sys2Proof.Machine

/-- Where a trace ends with the six micro-operations of `STOP`, the pins are idle (R73, R102). -/
theorem Ran.pins_of_stopTrace {s t : State} {es : List Event} (h : Ran s t (es ++ stopTrace)) : t.pins = Pins.idle := by
  rw [h.pins, pinsAfter_append]
  rfl

theorem Ran.pins_of_timeoutTrace {s t : State} {es : List Event} {n : Nat} (h : Ran s t (es ++ timeoutTrace n)) :
    t.pins = Pins.idle := by
  rw [timeoutTrace, ← List.append_assoc] at h
  exact h.pins_of_stopTrace

/-- Everything `WRREG` can do (R87, R89): four acknowledges and the `STOP`, or the first missing one with the `STOP` inside
its `WAITACK`. -/
theorem wrreg_cases (reg : RegAddr) (value : Half) (s : State) :
    (∃ js u, js.length = 4 ∧ (∀ j ∈ js, j < s.cfg.ackPollBound.val) ∧ execState (.wrreg reg value) s = complete u ∧
        Ran s u (writeTrace s.cfg reg value js) ∧ some u.pollcnt = js.getLast? ∧ u.shift = 0 ∧ u.bitcnt = 0) ∨
      (∃ js b u, (writeBytes s.cfg reg value)[js.length]? = some b ∧ (∀ j ∈ js, j < s.cfg.ackPollBound.val) ∧
        execState (.wrreg reg value) s = takeFault .busAcknowledgeTimeout u ∧
        Ran s u (abortedTrace (writeBytes s.cfg reg value) js b s.cfg.ackPollBound.val) ∧
        u.pollcnt = s.cfg.ackPollBound.val ∧ u.shift = 0 ∧ u.bitcnt = 0) := by
  have hstart := start_ran s
  rcases sendAcked_cases (writeBytes s.cfg reg value) (start s) with
    ⟨js, t, hlen, hjs, ht, hran, hreg, -⟩ | ⟨js, b, t, hb, hjs, ht, hran, hshift, hbit, hpoll, -⟩
  · obtain ⟨hshift, hbit, hpoll⟩ := hreg (List.cons_ne_nil _ _)
    refine .inl ⟨js, stop t, hlen, hjs, ?_, (hstart.trans hran).trans (stop_ran t), hpoll, hshift, hbit⟩
    simp only [execState, ht, endWrite]
  · have hall := hstart.trans hran
    rw [← List.append_assoc, ← List.append_assoc] at hall
    refine .inr ⟨js, b, t, hb, hjs, ?_, hall, hpoll, hshift, hbit⟩
    simp only [execState, ht, endWrite]

/-- Settles O29, by the two ways `WRREG` can end. -/
theorem wrregSucceedsOrAborts : Obligations.WrregSucceedsOrAborts := by
  intro s reg value
  have hout := execState_outsideKept (.wrreg reg value) s
  rcases wrreg_cases reg value s with
    ⟨js, u, hlen, hjs, hexec, hran, hpoll, hshift, hbit⟩ | ⟨js, b, u, hb, hjs, hexec, hran, hpoll, hshift, hbit⟩
  · refine ⟨complete u, js, (exec_eq _ s).trans (congrArg _ hexec), hjs,
      .inl ⟨hlen, hran.performed.congr rfl, complete_ended u, hpoll.symm⟩, ⟨hran.pins_of_stopTrace, rfl⟩, hran.result,
      hran.hold, hshift, hbit, hexec ▸ hout⟩
  · have hlt : js.length < 4 := (List.getElem?_eq_some_iff.mp hb).1
    refine ⟨takeFault .busAcknowledgeTimeout u, js, (exec_eq _ s).trans (congrArg _ hexec), hjs,
      .inr ⟨b, hlt, hb, hran.performed.congr rfl, takeFault_timedOut u, hpoll⟩, ⟨hran.pins_of_timeoutTrace, rfl⟩,
      hran.result, hran.hold, hshift, hbit, hexec ▸ hout⟩

/-- The data phase of `RDREG` ends with its `STOP` (R88). -/
theorem readData_pins (s : State) : (readData s).pins = Pins.idle := rfl

/-- A read aborted by a missed acknowledge leaves `HOLD` and writes the sentinel (R88, R89, R102). -/
theorem abortRead_fields {s u : State} {es : List Event} {n : Nat} (h : Ran s u (es ++ timeoutTrace n)) :
    (abortRead u).result = some 0xFFFF ∧ (abortRead u).hold = s.hold ∧ TimedOut (abortRead u) ∧
      (abortRead u).pins = Pins.idle ∧ Performed s (abortRead u) (es ++ timeoutTrace n) :=
  ⟨rfl, h.hold, takeFault_timedOut _, h.pins_of_timeoutTrace, h.performed.congr rfl⟩

/-- Everything `RDREG` can do (R88, R89): the data phase after three acknowledges, or the abort at the first missing one,
in the pointer phase or at the read address. -/
theorem rdreg_cases (reg : RegAddr) (s : State) :
    (∃ j1 j2 j3 u, j1 < s.cfg.ackPollBound.val ∧ j2 < s.cfg.ackPollBound.val ∧ j3 < s.cfg.ackPollBound.val ∧
        execState (.rdreg reg) s = readData u ∧
        Ran s u (pointerTrace s.cfg reg j1 j2 ++ startTrace ++ ackedTrace [(readAddress s.cfg, j3)]) ∧ u.pollcnt = j3) ∨
      (∃ es u, execState (.rdreg reg) s = abortRead u ∧ Ran s u (es ++ timeoutTrace s.cfg.ackPollBound.val) ∧
        u.shift = 0 ∧ u.bitcnt = 0 ∧ u.pollcnt = s.cfg.ackPollBound.val ∧
        ((∃ js b, (∀ j ∈ js, j < s.cfg.ackPollBound.val) ∧ [writeAddress s.cfg, reg][js.length]? = some b ∧
            es = startTrace ++ ackedTrace ([writeAddress s.cfg, reg].zip js) ++ sendByteTrace b) ∨
          ∃ j1 j2, j1 < s.cfg.ackPollBound.val ∧ j2 < s.cfg.ackPollBound.val ∧
            es = pointerTrace s.cfg reg j1 j2 ++ startTrace ++ sendByteTrace (readAddress s.cfg))) := by
  have hstart := start_ran s
  rcases sendAcked_cases [writeAddress s.cfg, reg] (start s) with
    ⟨js, t, hlen, hjs, ht, hran, -, -⟩ | ⟨js, b, t, hb, hjs, ht, hran, hshift, hbit, hpoll, -⟩
  · obtain ⟨j1, j2, rfl⟩ := List.length_eq_two.mp hlen
    have hj1 := hjs j1 (by simp)
    have hj2 := hjs j2 (by simp)
    have hst : Ran s t (pointerTrace s.cfg reg j1 j2) := hstart.trans hran
    have hrestart := hst.trans (start_ran t)
    have hcfg : (start t).cfg = s.cfg := hrestart.cfg
    rcases sendAcked_cases [readAddress t.cfg] (start t) with
      ⟨ks, u, hlen', hks, hu, hran', hreg, -⟩ | ⟨ks, c, u, hc, -, hu, hran', hshift, hbit, hpoll, -⟩
    · obtain ⟨j3, rfl⟩ := List.length_eq_one_iff.mp hlen'
      obtain ⟨-, -, hpoll⟩ := hreg (List.cons_ne_nil _ _)
      rw [hst.cfg] at hran'
      rw [hcfg] at hks
      exact .inl ⟨j1, j2, j3, u, hj1, hj2, hks j3 (by simp), execState_rdreg_of_acked ht hu, hrestart.trans hran',
        Option.some.inj hpoll⟩
    · rw [hst.cfg, List.getElem?_singleton, Option.ite_none_right_eq_some, Option.some.injEq] at hc
      obtain ⟨hlen', rfl⟩ := hc
      obtain rfl := List.eq_nil_of_length_eq_zero hlen'
      rw [hcfg] at hran' hpoll
      refine .inr ⟨_, u, ?_, ?_, hshift, hbit, hpoll, .inr ⟨j1, j2, hj1, hj2, rfl⟩⟩
      · simp only [execState, ht, endPointer, readPhase, hu]
      · rw [List.append_assoc]
        exact hrestart.trans hran'
  · have hall := hstart.trans hran
    rw [← List.append_assoc, ← List.append_assoc] at hall
    refine .inr ⟨_, t, ?_, hall, hshift, hbit, hpoll, .inl ⟨js, b, hjs, hb, rfl⟩⟩
    simp only [execState, ht, endPointer]

/-- Settles O32, by the ways `RDREG` can end and what its data phase reads. -/
theorem rdregReturnsDataOrTheSentinel : Obligations.RdregReturnsDataOrTheSentinel := by
  intro s reg
  have hout := execState_outsideKept (.rdreg reg) s
  rcases rdreg_cases reg s with
    ⟨j1, j2, j3, u, hj1, hj2, hj3, hexec, hran, hpoll⟩ | ⟨es, u, hexec, hran, hshift, hbit, hpoll, hes⟩
  · obtain ⟨hi, lo, hperf, hresult, hhold, hshift, hpoll', hbit, -⟩ := readData_cases u
    have hall := hran.performed.trans hperf
    rw [← List.append_assoc, ← List.append_assoc] at hall
    exact ⟨readData u, (exec_eq _ s).trans (congrArg _ hexec),
      .inl ⟨j1, j2, j3, hi, lo, hj1, hj2, hj3, hall, hresult, hhold, hshift, hpoll'.trans hpoll, complete_ended _⟩,
      ⟨readData_pins u, rfl⟩, hbit, hexec ▸ hout⟩
  · obtain ⟨hresult, hhold, htimed, hpins, hperf⟩ := abortRead_fields hran
    refine ⟨abortRead u, (exec_eq _ s).trans (congrArg _ hexec), .inr ?_, ⟨hpins, rfl⟩, hbit, hexec ▸ hout⟩
    rcases hes with ⟨js, b, hjs, hb, rfl⟩ | ⟨j1, j2, hj1, hj2, rfl⟩
    · exact .inl ⟨js, b, (List.getElem?_eq_some_iff.mp hb).1, hjs, hb, hperf, hresult, hhold, hshift, hpoll, htimed⟩
    · exact .inr ⟨j1, j2, hj1, hj2, hperf, hresult, hhold, hshift, hpoll, htimed⟩

end Sys2Proof.Machine
end

section
/-! PROOFS. Who makes the conditions on the wire (30_encoding.md rules R46 and R57, 41_bus_primitives.md rule R83).  A command
is a run of micro-operations.  While the slave keeps its level with the clock high, every change of the data wire in a
clock-high period is the master's; and the master's own, command by command, are those of `START` and `STOP`. -/

namespace Sys2Proof.Machine

/-! ### A command as a run of micro-operations -/

/-- The entry a micro-operation appends to the trace (R60). -/
def entryOf (op : MicroOp) (s : State) : Entry :=
  ⟨op.event (answer op s), (op.drive s.pins).wire (emit op s).slave.level⟩

theorem emit_trace (op : MicroOp) (s : State) : (emit op s).trace = entryOf op s :: s.trace := rfl

@[simp] theorem op_event (op : MicroOp) (b : Bit) : (op.event b).op = op := by cases op <;> rfl

@[simp] theorem entryOf_op (op : MicroOp) (s : State) : (entryOf op s).event.op = op := op_event op _

/-- From `s` to `t` by micro-operations with bookkeeping between them; `new` are the entries they append, oldest first. -/
inductive MicroRun : State → State → List Entry → Prop where
  | done (s : State) : MicroRun s s []
  | keep {s t u : State} {new : List Entry} (h : OnlyBookkept s u) (k : MicroRun u t new) : MicroRun s t new
  | op {s t : State} {new : List Entry} (op : MicroOp) (k : MicroRun (emit op s) t new) :
      MicroRun s t (entryOf op s :: new)

theorem MicroRun.trace {s t : State} {new : List Entry} (h : MicroRun s t new) : t.trace = new.reverse ++ s.trace := by
  induction h with
  | done => rfl
  | keep hkept _ ih => rw [ih, hkept.trace]
  | op op _ ih => rw [ih, emit_trace, List.reverse_cons, List.append_assoc]; rfl

theorem engineSteps_microRun {n : Nat} {s t : State} (h : engineSteps n s = .next t) : ∃ new, MicroRun s t new := by
  induction n generalizing s with
  | zero => cases h; exact ⟨[], .done _⟩
  | succ n ih =>
    unfold engineSteps at h
    split at h
    · next u hu =>
      obtain ⟨new, hnew⟩ := ih h
      rcases engineStep_cases hu with ⟨-, rfl⟩ | ⟨q, p, op, -, -, -, -, rfl⟩
      · exact ⟨new, hnew⟩
      · exact ⟨_, .op op (.keep (advance_onlyBookkept q p (emit op s)) hnew)⟩
    · cases h
    · cases h

/-- Every command is a run of micro-operations, as the sequencer performs it (R60). -/
theorem execState_microRun (i : Instr) (s : State) : ∃ new, MicroRun s (execState i s) new := by
  obtain ⟨n, -, hrun⟩ := begin_reaches i s
  obtain ⟨new, hnew⟩ := engineSteps_microRun hrun
  exact ⟨new, .keep (u := begin i s) ⟨rfl, rfl, rfl, rfl, rfl, rfl⟩ hnew⟩

/-- The events of a run are those of any description of what was performed. -/
theorem MicroRun.events_eq {s t : State} {new : List Entry} {es : List Event} (h : MicroRun s t new)
    (hes : Performed s t es) : new.map Entry.event = es := by
  obtain ⟨new', hnew', rfl⟩ := hes
  rw [h.trace] at hnew'
  rw [List.reverse_injective (List.append_cancel_right hnew')]

/-! ### The conditions of the wire and those of the master -/

/-- The condition between two pairs of wire levels: a change of the data wire with the clock high in both (R46; log entry
18). -/
def Wire.condition (w v : Wire) : Option Condition :=
  match w.scl && v.scl, w.sda, v.sda with
  | true, true, false => some .start
  | true, false, true => some .stop
  | _, _, _ => none

theorem Wire.condition_eq_some {w v : Wire} {c : Condition} :
    w.condition v = some c ↔ (w.scl = true ∧ v.scl = true) ∧
      ((w.sda = true ∧ v.sda = false ∧ c = .start) ∨ (w.sda = false ∧ v.sda = true ∧ c = .stop)) := by
  rw [Wire.condition]
  split <;> simp_all [eq_comm (a := c)]

theorem Event.condition_eq_some {p : Pins} {e : Event} {c : Condition} :
    e.condition p = some c ↔ p.sclOut = true ∧ ((p.master = true ∧ (e.op.drive p).master = false ∧ c = .start) ∨
      (p.master = false ∧ (e.op.drive p).master = true ∧ c = .stop)) := by
  rw [Event.condition]
  split
  · split <;> simp_all [eq_comm (a := c)]
  · simp_all

theorem wireConditions_cons (w v : Wire) (n : Nat) (vs : List Wire) :
    wireConditions w n (v :: vs) =
      ((w.condition v).map fun c => (n, c)).toList ++ wireConditions v (n + 1) vs := by
  rw [wireConditions, Wire.condition]
  split <;> simp_all

theorem conditions_cons (p : Pins) (n : Nat) (e : Event) (es : List Event) :
    conditions p n (e :: es) =
      ((e.condition p).map fun c => (n, c)).toList ++ conditions (e.op.drive p) (n + 1) es := by
  rw [conditions]
  split <;> simp_all

/-- Entries performed from the pins `p`, the wire at `w` before them: each shows the clock as the pins have it, and every
condition on the wire is one the master makes there (R68). -/
def MasterMade : Pins → Wire → List Entry → Prop
  | _, _, [] => True
  | p, w, e :: es =>
    e.wire.scl = (e.event.op.drive p).sclOut ∧ (∀ c, w.condition e.wire = some c → e.event.condition p = some c) ∧
      MasterMade (e.event.op.drive p) e.wire es

theorem MasterMade.wireConditions_subset {p : Pins} {w : Wire} {new : List Entry} (h : MasterMade p w new) (n : Nat) :
    ∀ c ∈ wireConditions w n (new.map Entry.wire), c ∈ conditions p n (new.map Entry.event) := by
  induction new generalizing p w n with
  | nil => exact fun _ hc => absurd hc List.not_mem_nil
  | cons e new ih =>
    obtain ⟨-, hmaster, hrest⟩ := h
    intro c hc
    rw [List.map_cons, wireConditions_cons, List.mem_append, Option.mem_toList, Option.map_eq_some_iff] at hc
    rw [List.map_cons, conditions_cons, List.mem_append, Option.mem_toList, Option.map_eq_some_iff]
    exact hc.imp (fun ⟨k, hk, hkc⟩ => ⟨k, hmaster k hk, hkc⟩) (ih hrest (n + 1) c)

/-- A micro-operation at which the slave keeps its level, if the clock is high before and after: what changes the data wire
is the master's contribution. -/
theorem entryOf_masterMade {op : MicroOp} {s : State} {new : List Entry} (hrun : MasterMade (emit op s).pins
      ((emit op s).pins.wire (emit op s).slave.level) new)
    (hkept : s.pins.sclOut = true → (op.drive s.pins).sclOut = true → (emit op s).slave.level = s.slave.level) :
    MasterMade s.pins (s.pins.wire s.slave.level) (entryOf op s :: new) := by
  refine ⟨by rw [entryOf_op]; rfl, fun c hc => ?_, by rw [entryOf_op]; exact hrun⟩
  rw [Wire.condition_eq_some] at hc
  obtain ⟨⟨hbefore, hafter⟩, hsda⟩ := hc
  rw [Event.condition_eq_some, entryOf_op]
  refine ⟨hbefore, ?_⟩
  simp only [entryOf, Pins.wire, hkept hbefore hafter] at hsda
  cases hl : s.slave.level <;> simp_all

/-! ### Slaves that keep their level with the clock high -/

theorem Oracle.quiet_draw {o : Oracle} {scl level : Bit} {k : Nat} {ws : List Wire} :
    o.draw.quiet scl level k ws ↔ o.quiet scl level (k + 1) ws := by
  induction ws generalizing scl level k with
  | nil => exact Iff.rfl
  | cons w ws ih => simp only [Oracle.quiet, Oracle.upcoming_draw, ih]

/-- A slave that is quiet along the wire trace (R83's premise). -/
theorem MicroRun.masterMade_of_quiet {s t : State} {new : List Entry} (h : MicroRun s t new) {o : Oracle}
    (hs : s.slave = .oracle o) (hq : o.quiet s.pins.sclOut o.level 0 (new.map Entry.wire)) :
    MasterMade s.pins (s.pins.wire o.level) new := by
  induction h generalizing o with
  | done s => trivial
  | keep hkept _ ih =>
    rw [← hkept.pins] at hq ⊢
    exact ih (hkept.slave.trans hs) hq
  | @op s t new op _ ih =>
    obtain ⟨hkept, hrest⟩ := hq
    have hslave : (emit op s).slave = .oracle o.draw := by rw [emit_slave, hs]; rfl
    have hlevel : (emit op s).slave.level = o.upcoming 0 := by rw [hslave]; exact o.level_draw
    have hrun := ih hslave (Oracle.quiet_draw.mpr (o.level_draw ▸ hrest))
    have hsl : s.slave.level = o.level := by rw [hs]; rfl
    rw [← hsl]
    refine entryOf_masterMade ?_ fun hbefore hafter => ?_
    · rw [hslave]
      exact hrun
    · rw [hlevel, hsl]
      exact hkept hbefore hafter

/-- The reference slave moves its level only at a falling clock edge: a condition on the wire finds the line released. -/
theorem Sensor.watch_level {r : Sensor} {p p' : Pins} (hbefore : p.sclOut = true) (hafter : p'.sclOut = true) :
    (r.watch (p.wire r.level) (p'.wire r.level)).level = r.level := by
  simp only [Sensor.watch, Pins.wire, hbefore, hafter]
  cases hl : r.level
  · simp only [Bool.and_false]
    exact hl
  · simp only [Bool.and_true]
    split
    · rfl
    · rfl
    · exact hl

theorem MicroRun.masterMade_of_sensor {s t : State} {new : List Entry} (h : MicroRun s t new) {r : Sensor}
    (hs : s.slave = .sensor r) : MasterMade s.pins (s.pins.wire s.slave.level) new := by
  induction h generalizing r with
  | done => trivial
  | keep hkept _ ih =>
    rw [← hkept.pins, ← hkept.slave]
    exact ih (hkept.slave.trans hs)
  | @op s t new op _ ih =>
    have hslave : (emit op s).slave = .sensor (r.watch (s.pins.wire r.level) ((op.drive s.pins).wire r.level)) := by
      rw [emit_slave, hs]; rfl
    refine entryOf_masterMade (ih hslave) fun hbefore hafter => ?_
    rw [hslave, hs]
    exact Sensor.watch_level hbefore hafter

/-- Settles O36: a command is a run of micro-operations, at each of which a quiet slave leaves the wire to the master. -/
theorem quietSlaveAddsNoCondition : Obligations.QuietSlaveAddsNoCondition := by
  intro i s o hs
  obtain ⟨new, hrun⟩ := execState_microRun i s
  exact ⟨execState i s, new.map Entry.event, new.map Entry.wire, exec_eq i s, ⟨new, hrun.trace, rfl⟩,
    ⟨new, hrun.trace, rfl⟩, fun hq => (hrun.masterMade_of_quiet hs hq).wireConditions_subset 0⟩

end Sys2Proof.Machine
end

section
/-! PROOFS. The timing invariant of the wire (30_encoding.md rule R57, 41_bus_primitives.md rules R82 and R83).  The master's
own conditions are audited on the events alone: a piece of a trace that begins and ends with the clock low raises no
condition but `START`'s.  With a slave that leaves the clock-high periods to the master, the checker then finds no more. -/

namespace Sys2Proof.Machine

/-! ### The audit of the master's conditions -/

/-- The events `es` after the event `before`, from the pins `p`: every condition the master makes is the one that `START` or
`STOP` is meant to make at that micro-operation, and no clock-high period has two; `moved` says whether the present one has
had its condition. -/
def Audited : Event → Pins → Bool → List Event → Prop
  | _, _, _, [] => True
  | before, p, moved, e :: es =>
    match p.sclOut, (e.op.drive p).sclOut with
    | false, true => Audited e (e.op.drive p) false es
    | true, true =>
      match e.condition p with
      | some c => moved = false ∧ ownCondition before e = some c ∧ Audited e (e.op.drive p) true es
      | none => Audited e (e.op.drive p) moved es
    | _, false => Audited e (e.op.drive p) moved es

/-- The audit of a whole trace: its first event is compared with nothing (R57). -/
def AuditedFrom (p : Pins) : List Event → Prop
  | [] => True
  | e :: es => Audited e (e.op.drive p) false es

/-! ### The checker finds no more than the audit -/

/-- What the checker does at an entry: a rise begins a clock-high period, a condition is recorded, and anything else
changes nothing. -/
theorem Checker.step_cases {c : Checker} {b e : Entry} (hprev : c.prev = some b) :
    (b.wire.scl = false ∧ e.wire.scl = true ∧ c.step e = ⟨some e, [], c.broken⟩) ∨
      (b.wire.scl = true ∧ e.wire.scl = true ∧ ∃ k, b.wire.condition e.wire = some k ∧
        c.step e = { c.onMove k (ownCondition b.event e.event) with prev := some e }) ∨
      (¬ (b.wire.scl = false ∧ e.wire.scl = true) ∧ b.wire.condition e.wire = none ∧
        c.step e = { c with prev := some e }) := by
  obtain ⟨be, bc, bd⟩ := b
  obtain ⟨ee, ec, ed⟩ := e
  cases bc <;> cases ec
  case false.true => exact .inl ⟨rfl, rfl, by simp [Checker.step, hprev]⟩
  case true.true =>
    cases bd <;> cases ed
    case false.true => exact .inr (.inl ⟨rfl, rfl, .stop, rfl, by simp [Checker.step, hprev]⟩)
    case true.false => exact .inr (.inl ⟨rfl, rfl, .start, rfl, by simp [Checker.step, hprev]⟩)
    all_goals exact .inr (.inr ⟨by simp, rfl, by simp [Checker.step, hprev]⟩)
  all_goals exact .inr (.inr ⟨by simp, rfl, by simp [Checker.step, hprev]⟩)

/-- Where every condition of the wire is the master's, an audited trace leaves the checker content. -/
theorem Checker.walk_not_broken {c : Checker} {b : Entry} {p : Pins} {moved : Bool} {new : List Entry}
    (hprev : c.prev = some b) (hscl : b.wire.scl = p.sclOut) (hchanges : moved = false → c.changes = [])
    (hbroken : c.broken = false) (hmaster : MasterMade p b.wire new)
    (haudit : Audited b.event p moved (new.map Entry.event)) : (c.walk new).broken = false := by
  induction new generalizing c b p moved with
  | nil => exact hbroken
  | cons e new ih =>
    obtain ⟨hclock, hcond, hrest⟩ := hmaster
    rw [Checker.walk]
    rw [List.map_cons, Audited, ← hscl, ← hclock] at haudit
    rcases Checker.step_cases (e := e) hprev with ⟨hb, he, hstep⟩ | ⟨hb, he, k, hk, hstep⟩ | ⟨hne, hk, hstep⟩
    · rw [hb, he] at haudit
      exact ih (hstep ▸ rfl) hclock (fun _ => hstep ▸ rfl) (hstep ▸ hbroken) hrest haudit
    · rw [hb, he] at haudit
      simp only [hcond k hk] at haudit
      obtain ⟨rfl, hown, haudit⟩ := haudit
      refine ih (hstep ▸ rfl) hclock (fun h => absurd h (by decide)) ?_ hrest haudit
      rw [hstep]
      simp [Checker.onMove, hbroken, hown, hchanges rfl, periodOk]
    · have hnext (moved' : Bool) (hmoved : moved' = false → c.changes = [])
          (ha : Audited e.event (e.event.op.drive p) moved' (new.map Entry.event)) :
          ((c.step e).walk new).broken = false :=
        ih (hstep ▸ rfl) hclock (hstep ▸ hmoved) (hstep ▸ hbroken) hrest ha
      split at haudit
      · next hb he => exact absurd ⟨hb, he⟩ hne
      · split at haudit
        · obtain ⟨-, -, haudit⟩ := haudit
          exact hnext true nofun haudit
        · exact hnext moved hchanges haudit
      · exact hnext moved hchanges haudit

/-- The entries of a trace whose audit holds, every condition of the wire being the master's, keep the invariant (R57). -/
theorem keepsTimingInvariant_of_audited {p : Pins} {w : Wire} {new : List Entry} (hmaster : MasterMade p w new)
    (haudit : AuditedFrom p (new.map Entry.event)) : keepsTimingInvariant new = true := by
  cases new with
  | nil => rfl
  | cons e new =>
    obtain ⟨hclock, -, hrest⟩ := hmaster
    have hbroken := Checker.walk_not_broken (c := Checker.fresh.step e) rfl hclock (fun _ => rfl) rfl hrest haudit
    rw [keepsTimingInvariant, Checker.walk, hbroken]
    rfl

/-! ### Traces that begin with the clock low -/

/-- A trace that passes the audit from any pins with the clock low. -/
def LowOk (es : List Event) : Prop := ∀ before p moved, p.sclOut = false → Audited before p moved es

/-- A piece of a trace that begins and ends with the clock low, and raises no condition but `START`'s. -/
def LowToLow (es : List Event) : Prop := ∀ rest, LowOk rest → LowOk (es ++ rest)

theorem LowOk.nil : LowOk [] := fun _ _ _ _ => trivial

theorem LowToLow.append {es fs : List Event} (h : LowToLow es) (k : LowToLow fs) : LowToLow (es ++ fs) := fun rest hr => by
  rw [List.append_assoc]
  exact h _ (k rest hr)

theorem LowToLow.flatMap {α : Type} {f : α → List Event} (h : ∀ a, LowToLow (f a)) (l : List α) :
    LowToLow (l.flatMap f) := by
  induction l with
  | nil => exact fun _ hr => hr
  | cons a l ih => exact (h a).append ih

/-- With the clock low only `C1` raises it. -/
theorem LowOk.cons {e : Event} {es : List Event} (he : e ≠ .clk true) (h : LowOk es) : LowOk (e :: es) := by
  intro before p moved hp
  have hlow : (e.op.drive p).sclOut = false := by
    cases e
    case clk b =>
      cases b with
      | false => rfl
      | true => exact absurd rfl he
    all_goals exact hp
  simp only [Audited, hp, hlow]
  exact h _ _ _ hlow

/-- With the clock high and no pin changed the audit goes on to the falling edge (R64, R65). -/
theorem audited_holds {es rest : List Event} (hes : es.all (fun e => e.op.holds) = true) (h : LowOk rest)
    {before : Event} {p : Pins} {moved : Bool} (hp : p.sclOut = true) : Audited before p moved (es ++ .clk false :: rest) := by
  induction es generalizing before with
  | nil => simp only [List.nil_append, Audited, hp]; exact h _ _ _ rfl
  | cons e es ih =>
    rw [List.all_cons, Bool.and_eq_true] at hes
    obtain ⟨he, hes⟩ := hes
    have hpins : e.op.drive p = p := MicroOp.drive_of_holds he p
    have hcond : e.condition p = none := by
      rw [Event.condition, hpins]
      cases p.master <;> simp
    simp only [List.cons_append, Audited, hpins, hp, hcond]
    exact ih hes

/-- A clock pulse with no pin changed while the clock is high. -/
theorem lowToLow_pulse {es : List Event} (hes : es.all (fun e => e.op.holds) = true) :
    LowToLow (.clk true :: es ++ [.clk false]) := by
  intro rest hr before p moved hp
  rw [List.append_assoc]
  simp only [List.cons_append, Audited, hp]
  exact audited_holds hes hr rfl

theorem lowToLow_singleton {e : Event} (he : e ≠ .clk true) : LowToLow [e] := fun _ hr => hr.cons he

/-! ### The primitives -/

/-- `START`'s condition, its clock high and the line released (R70). -/
theorem audited_start {before : Event} {rest : List Event} (h : LowOk rest) :
    Audited before ⟨true, true, .output⟩ false (.wait .tStart :: .dat false :: .clk false :: rest) :=
  ⟨rfl, rfl, h _ _ _ rfl⟩

theorem lowToLow_start : LowToLow startTrace := by
  rintro rest hr before ⟨_, _, _⟩ moved rfl
  exact audited_start (before := .clk true) hr

theorem auditedFrom_start {rest : List Event} (h : LowOk rest) : AuditedFrom Pins.idle (startTrace ++ rest) :=
  audited_start (before := .clk true) h

/-- `STOP` after its first micro-operation (R72). -/
theorem lowOk_stop_tail : LowOk [.dirOut, .dat false, .clk true, .wait .tStop, .dat true] := by
  rintro before ⟨_, _, _⟩ moved rfl
  exact ⟨rfl, rfl, trivial⟩

theorem auditedFrom_stop (p : Pins) : AuditedFrom p stopTrace :=
  lowOk_stop_tail (.clk false) { p with sclOut := false } false rfl

theorem lowOk_stop : LowOk stopTrace := lowOk_stop_tail.cons (by decide)

theorem lowToLow_sentBit (b : Bit) : LowToLow (sentBit b) :=
  ((lowToLow_singleton (e := .dat b) nofun).append (lowToLow_singleton (e := .wait .tSu) nofun)).append
    (lowToLow_pulse (es := [.wait .tHigh]) rfl)

theorem lowToLow_sendByte (v : Byte) : LowToLow (sendByteTrace v) :=
  (lowToLow_singleton (e := .dirOut) nofun).append (.flatMap (fun _ => lowToLow_sentBit _) _)

theorem lowToLow_sendAck (ack : Bit) : LowToLow (sendAckTrace ack) :=
  (lowToLow_singleton (e := .dirOut) nofun).append ((lowToLow_sentBit (!ack)).append
    (lowToLow_singleton (e := .dat true) nofun))

theorem lowToLow_receivedBit (b : Bit) : LowToLow (receivedBit b) :=
  (lowToLow_singleton (e := .wait .tSu) nofun).append (lowToLow_pulse (es := [.read b, .wait .tHigh]) rfl)

theorem lowToLow_recvByte (v : Byte) (ack : Bit) : LowToLow (recvByteTrace v ack) :=
  ((lowToLow_singleton (e := .dirIn) nofun).append (.flatMap (fun _ => lowToLow_receivedBit _) _)).append
    (lowToLow_sendAck ack)

theorem highSamples_holds (j : Nat) : (highSamples j).all (fun e => e.op.holds) = true := by
  induction j with
  | zero => rfl
  | succ j ih => rw [highSamples_succ, List.all_append, ih]; rfl

theorem lowToLow_ack (j : Nat) : LowToLow (ackTrace j) := by
  have hpulse := lowToLow_pulse (es := highSamples j ++ [.read false])
    (by rw [List.all_append, highSamples_holds]; rfl)
  have h := (lowToLow_singleton (e := .dirIn) nofun).append hpulse
  simpa [ackTrace] using h

/-- The poll that runs out and its `STOP` (R76). -/
theorem lowOk_timeout (n : Nat) : LowOk (timeoutTrace n) := by
  have hpulse := lowToLow_pulse (highSamples_holds n) _ lowOk_stop_tail
  have h := hpulse.cons (e := .dirIn) nofun
  simpa [timeoutTrace, stopTrace] using h

theorem lowToLow_acked (l : List (Byte × Nat)) : LowToLow (ackedTrace l) := by
  induction l with
  | nil => exact fun _ hr => hr
  | cons a l ih => exact ((lowToLow_sendByte a.1).append (lowToLow_ack a.2)).append ih

/-! ### The commands -/

theorem LowOk.auditedFrom {es : List Event} (h : LowOk es) {p : Pins} (hp : p.sclOut = false) : AuditedFrom p es := by
  cases es with
  | nil => trivial
  | cons e es =>
    have he := h e p false hp
    rw [Audited, hp] at he
    rw [AuditedFrom]
    split at he
    · exact he
    · next hhigh _ => exact absurd hhigh (by decide)
    · exact he

theorem LowToLow.auditedFrom {es : List Event} (h : LowToLow es) {p : Pins} (hp : p.sclOut = false) :
    AuditedFrom p es := by
  have hes := h [] .nil
  rw [List.append_nil] at hes
  exact hes.auditedFrom hp

/-- The frame of a transaction from `Idle`, cut at the missed acknowledge of the byte `b` (R89). -/
theorem auditedFrom_aborted (first : List Byte) (js : List Nat) (b : Byte) (n : Nat) :
    AuditedFrom Pins.idle (startTrace ++ ackedTrace (first.zip js) ++ sendByteTrace b ++ timeoutTrace n) := by
  rw [List.append_assoc, List.append_assoc]
  exact auditedFrom_start (lowToLow_acked _ _ (lowToLow_sendByte b _ (lowOk_timeout n)))

theorem wrreg_audited (reg : RegAddr) (value : Half) {s : State} (hpins : s.pins = Pins.idle) :
    ∃ es, Performed s (execState (.wrreg reg value) s) es ∧ AuditedFrom s.pins es := by
  rw [hpins]
  rcases wrreg_cases reg value s with ⟨js, u, -, -, hexec, hran, -⟩ | ⟨js, b, u, -, -, hexec, hran, -⟩
  · rw [hexec]
    refine ⟨_, hran.performed.congr rfl, ?_⟩
    rw [writeTrace, List.append_assoc]
    exact auditedFrom_start (lowToLow_acked _ _ lowOk_stop)
  · rw [hexec]
    exact ⟨_, hran.performed.congr rfl, auditedFrom_aborted _ js b _⟩

/-- The pointer phase of `RDREG` from `Idle` and its repeated start (R88). -/
theorem auditedFrom_pointer (cfg : Config) (reg : RegAddr) (j1 j2 : Nat) {rest : List Event} (h : LowOk rest) :
    AuditedFrom Pins.idle (pointerTrace cfg reg j1 j2 ++ startTrace ++ rest) := by
  rw [pointerTrace, List.append_assoc, List.append_assoc]
  exact auditedFrom_start (lowToLow_acked _ _ (lowToLow_start _ h))

theorem rdreg_audited (reg : RegAddr) {s : State} (hpins : s.pins = Pins.idle) :
    ∃ es, Performed s (execState (.rdreg reg) s) es ∧ AuditedFrom s.pins es := by
  rw [hpins]
  rcases rdreg_cases reg s with ⟨j1, j2, j3, u, -, -, -, hexec, hran, -⟩ | ⟨es, u, hexec, hran, -, -, -, hes⟩
  · obtain ⟨hi, lo, hperf, -⟩ := readData_cases u
    have hdata := (lowToLow_recvByte hi true).append (lowToLow_recvByte lo false)
    rw [hexec]
    refine ⟨_, hran.performed.trans hperf, ?_⟩
    rw [List.append_assoc]
    exact auditedFrom_pointer _ reg j1 j2 (lowToLow_acked _ _ (hdata _ lowOk_stop))
  · rw [hexec]
    refine ⟨_, hran.performed.congr rfl, ?_⟩
    rcases hes with ⟨js, b, -, -, rfl⟩ | ⟨j1, j2, -, -, rfl⟩
    · exact auditedFrom_aborted _ js b _
    · rw [List.append_assoc]
      exact auditedFrom_pointer _ reg j1 j2 (lowToLow_sendByte _ _ (lowOk_timeout _))

/-- Every trace of every command entered clean passes the audit (R82, R83). -/
theorem execState_audited {i : Instr} {s : State} (hclean : cleanEntry i s) :
    ∃ es, Performed s (execState i s) es ∧ AuditedFrom s.pins es := by
  cases i with
  | start =>
    refine ⟨startTrace, (start_ran s).performed.congr rfl, ?_⟩
    rcases hclean with ⟨hpins, -⟩ | hlow
    · rw [hpins]
      exact auditedFrom_start .nil
    · exact lowToLow_start.auditedFrom hlow
  | stop => exact ⟨stopTrace, (stop_ran s).performed.congr rfl, auditedFrom_stop s.pins⟩
  | sendbyte v => exact ⟨_, (sendByte_ran v s).performed.congr rfl, (lowToLow_sendByte v).auditedFrom hclean⟩
  | waitack =>
    rcases waitAck_cases s with ⟨j, t, -, ht, hran, -⟩ | ⟨t, ht, hran, -⟩
    · rw [execState, ht]
      exact ⟨_, hran.performed.congr rfl, (lowToLow_ack j).auditedFrom hclean⟩
    · rw [execState, ht]
      exact ⟨_, hran.performed.congr rfl, (lowOk_timeout _).auditedFrom hclean⟩
  | sendack ack => exact ⟨_, (sendAck_ran ack s).performed.congr rfl, (lowToLow_sendAck ack).auditedFrom hclean⟩
  | recvbyte ack =>
    obtain ⟨v, hran, -⟩ := recvByte_cases ack s
    exact ⟨_, hran.performed.congr rfl, (lowToLow_recvByte v ack).auditedFrom hclean⟩
  | wrreg reg value => exact wrreg_audited reg value hclean.1
  | rdreg reg => exact rdreg_audited reg hclean.1

/-- The entries of a command entered clean keep the invariant where the slave leaves the conditions to the master. -/
theorem MicroRun.keepsTimingInvariant {i : Instr} {s : State} {w : Wire} {new : List Entry}
    (h : MicroRun s (execState i s) new) (hclean : cleanEntry i s) (hmaster : MasterMade s.pins w new) :
    keepsTimingInvariant new = true := by
  obtain ⟨es, hperf, haudit⟩ := execState_audited hclean
  exact keepsTimingInvariant_of_audited hmaster (h.events_eq hperf ▸ haudit)

/-- Settles O52: a quiet slave leaves every condition to the master, whose own pass the audit. -/
theorem timingInvariantHoldsForAQuietSlave : Obligations.TimingInvariantHoldsForAQuietSlave := by
  intro i s o hs hclean
  obtain ⟨new, hrun⟩ := execState_microRun i s
  exact ⟨execState i s, new, exec_eq i s, hrun.trace,
    fun hq => hrun.keepsTimingInvariant hclean (hrun.masterMade_of_quiet hs hq)⟩

/-- The reference slave, in whatever state, leaves every condition to the master. -/
theorem exec_keepsTimingInvariant_on_sensor {i : Instr} {s : State} {r : Sensor} (hs : s.slave = .sensor r)
    (hclean : cleanEntry i s) :
    ∃ t new, exec i s = .next t ∧ t.trace = new.reverse ++ s.trace ∧ keepsTimingInvariant new = true := by
  obtain ⟨new, hrun⟩ := execState_microRun i s
  exact ⟨execState i s, new, exec_eq i s, hrun.trace,
    hrun.keepsTimingInvariant hclean (hrun.masterMade_of_sensor hs)⟩

/-- Settles O53: the reference slave moves its level at falling clock edges only, so the argument of O52 holds for it. -/
theorem transactionsOnTheSensorKeepTheTimingInvariant :
    Obligations.TransactionsOnTheSensorKeepTheTimingInvariant := by
  intro s r reg value hidle hs _ _
  exact ⟨exec_keepsTimingInvariant_on_sensor (i := .wrreg reg value) hs hidle,
    exec_keepsTimingInvariant_on_sensor (i := .rdreg reg) hs hidle⟩

end Sys2Proof.Machine
end

section
/-! PROOFS. The pseudo-commands and their transactions (30_encoding.md rule R56).  A host that issues the primitives itself
has `STATUS`, `RESULT` and `SEQ` written after each, and `HOLD` never; a primitive reads none of them, so the two sides
agree in everything else all along. -/

namespace Sys2Proof.Machine

/-! ### What no primitive reads -/

/-- The state without what only the end of a command or the framer writes: `SEQ`, `HOLD`, `RESULT`, `ERR`, `CAUSE`. -/
def bare (s : State) : State := { s with seq := none, hold := 0, result := none, err := false, cause := 0 }

@[simp] theorem bare_complete (s : State) : bare (complete s) = bare s := rfl

@[simp] theorem bare_setHold (s : State) (v : Byte) : bare (s.setHold v) = bare s := rfl

@[simp] theorem bare_setResult (s : State) (v : Half) : bare (s.setResult v) = bare s := rfl

@[simp] theorem bare_endRecvByte (s : State) : bare (endRecvByte s) = bare s := rfl

@[simp] theorem bare_start (s : State) : bare (start s) = start (bare s) := rfl

@[simp] theorem bare_stop (s : State) : bare (stop s) = stop (bare s) := rfl

theorem bare_sendAck (ack : Bit) (s : State) : bare (sendAck ack s) = sendAck ack (bare s) := rfl

theorem bare_sendBits (n : Nat) (s : State) : bare (sendBits n s) = sendBits n (bare s) := by
  induction n generalizing s with
  | zero => rfl
  | succ n ih => exact ih (sendBit s)

@[simp] theorem bare_sendByte (v : Byte) (s : State) : bare (sendByte v s) = sendByte v (bare s) := bare_sendBits 8 _

theorem bare_recvBits (n : Nat) (s : State) : bare (recvBits n s) = recvBits n (bare s) := by
  induction n generalizing s with
  | zero => rfl
  | succ n ih => exact ih (recvBit s)

@[simp] theorem bare_recvByte (ack : Bit) (s : State) : bare (recvByte ack s) = recvByte ack (bare s) := by
  rw [recvByte, bare_sendAck, bare_recvBits]
  rfl

theorem bare_pollAck (left : Nat) (s : State) : (pollAck left s).map bare id = pollAck left (bare s) := by
  induction left generalizing s with
  | zero => rfl
  | succ left ih =>
    have hsample : (emit .read (bare s)).sample = (emit .read s).sample := rfl
    simp only [pollAck, hsample]
    cases (emit .read s).sample
    · rfl
    · exact ih _

theorem bare_waitAck (s : State) : (waitAck s).map bare id = waitAck (bare s) := bare_pollAck _ _

/-- A `WAITACK` reads the same on two states that agree but for what no primitive reads. -/
theorem waitAck_of_bare {s t u : State} {missed : Bit} (h : bare s = bare t) (hu : waitAck s = (u, missed)) :
    ∃ v, waitAck t = (v, missed) ∧ bare u = bare v := by
  have hboth : (waitAck s).map bare id = (waitAck t).map bare id := by rw [bare_waitAck, h, bare_waitAck]
  rw [hu] at hboth
  obtain ⟨hstate, hmissed⟩ := Prod.mk.inj hboth
  exact ⟨(waitAck t).1, Prod.ext rfl hmissed.symm, hstate⟩

/-! ### Issuing -/

theorem issueAll_cons (i : Instr) (is : List Instr) (s : State) : issueAll (i :: is) s =
    if (execState i s).err then .next (execState i s) else issueAll is (execState i s) := by
  rw [issueAll, exec_eq]

/-- After a command that ends with `ERR = 0` the host issues the next. -/
theorem issueAll_of_ended {i : Instr} {s : State} (is : List Instr) (h : Ended (execState i s)) :
    issueAll (i :: is) s = issueAll is (execState i s) := by
  obtain ⟨herr, -, -⟩ := h
  rw [issueAll_cons, herr]
  rfl

theorem issueAll_start (is : List Instr) (s : State) : issueAll (.start :: is) s = issueAll is (complete (start s)) :=
  issueAll_of_ended is (complete_ended _)

theorem issueAll_stop (s : State) : issueAll [.stop] s = .next (complete (stop s)) :=
  issueAll_of_ended [] (complete_ended _)

theorem issueAll_sendbyte (v : Byte) (is : List Instr) (s : State) :
    issueAll (.sendbyte v :: is) s = issueAll is (complete (sendByte v s)) := issueAll_of_ended is (complete_ended _)

theorem issueAll_recvbyte (ack : Bit) (is : List Instr) (s : State) :
    issueAll (.recvbyte ack :: is) s = issueAll is (endRecvByte (recvByte ack s)) :=
  issueAll_of_ended is (complete_ended _)

theorem issueAll_waitack {is : List Instr} {s u : State} {missed : Bit} (h : waitAck s = (u, missed)) :
    issueAll (.waitack :: is) s =
      if missed then .next (takeFault .busAcknowledgeTimeout u) else issueAll is (complete u) := by
  rw [issueAll_cons, execState, h]
  cases missed <;> rfl

/-- The primitives of acknowledged sends, as a host issues them (R56). -/
def sendCommands (bytes : List Byte) : List Instr := bytes.flatMap fun b => [.sendbyte b, .waitack]

/-- Sends issued by the host go as the framer's go (R86): all acknowledged, and the host issues the rest; or one missed,
and the host stops at `ERR = 1`. -/
theorem issueAll_sends (bytes : List Byte) (rest : List Instr) {s t : State} (h : bare s = bare t) :
    (∃ u v, sendAcked bytes t = (v, false) ∧ issueAll (sendCommands bytes ++ rest) s = issueAll rest u ∧
        bare u = bare v) ∨
      (∃ u v, sendAcked bytes t = (v, true) ∧
        issueAll (sendCommands bytes ++ rest) s = .next (takeFault .busAcknowledgeTimeout u) ∧ bare u = bare v) := by
  induction bytes generalizing s t with
  | nil => exact .inl ⟨s, t, rfl, rfl, h⟩
  | cons b bytes ih =>
    have hsent : bare (complete (sendByte b s)) = bare (sendByte b t) := by simp [h]
    obtain ⟨u, missed, hu⟩ : ∃ u missed, waitAck (complete (sendByte b s)) = (u, missed) := ⟨_, _, rfl⟩
    obtain ⟨v, hv, huv⟩ := waitAck_of_bare hsent hu
    have hissue : issueAll (sendCommands (b :: bytes) ++ rest) s =
        issueAll (.waitack :: (sendCommands bytes ++ rest)) (complete (sendByte b s)) := issueAll_sendbyte b _ s
    rw [hissue, issueAll_waitack hu, sendAcked, hv]
    cases missed with
    | false => exact ih (s := complete u) huv
    | true => exact .inr ⟨u, v, rfl, rfl, huv⟩

/-- What the framer's sends leave of the parameters. -/
theorem sendAcked_cfg {bytes : List Byte} {s t : State} {missed : Bit} (h : sendAcked bytes s = (t, missed)) :
    t.cfg = s.cfg := by
  rcases sendAcked_cases bytes s with ⟨_, u, -, -, hu, hran, -⟩ | ⟨_, _, u, -, -, hu, hran, -⟩
  · rw [hu] at h
    exact (Prod.mk.inj h).1 ▸ hran.cfg
  · rw [hu] at h
    exact (Prod.mk.inj h).1 ▸ hran.cfg

/-- Two ends of commands that agree on the bus and in `STATUS`. -/
def SameEnd (t u : State) : Prop :=
  t.trace = u.trace ∧ t.pins = u.pins ∧ t.slave = u.slave ∧ t.err = u.err ∧ t.cause = u.cause

theorem sameEnd_of_bare {t u : State} (h : bare t = bare u) (herr : t.err = u.err) (hcause : t.cause = u.cause) :
    SameEnd t u :=
  ⟨(congrArg State.trace h :), (congrArg State.pins h :), (congrArg State.slave h :), herr, hcause⟩

theorem complete_sameEnd {t u : State} (h : bare t = bare u) : SameEnd (complete t) (complete u) :=
  sameEnd_of_bare h rfl rfl

theorem takeFault_sameEnd {t u : State} (c : FaultCause) (h : bare t = bare u) :
    SameEnd (takeFault c t) (takeFault c u) := sameEnd_of_bare h rfl rfl

theorem expand_write16 (cfg : Config) (reg : RegAddr) (value : Half) : expand cfg (.write16 reg value) =
    .start :: (sendCommands (writeBytes cfg reg value) ++ [.stop]) := rfl

/-- The data phase of a read, as a host issues it (R56). -/
def dataCommands : List Instr := [.recvbyte true, .recvbyte false, .stop]

theorem expand_read16 (cfg : Config) (reg : RegAddr) : expand cfg (.read16 reg) =
    .start :: (sendCommands [writeAddress cfg, reg] ++
      .start :: (sendCommands [readAddress cfg] ++ dataCommands)) := rfl

/-- `WRITE16` and `WRREG` (R56, R87). -/
theorem write16_sameEnd (reg : RegAddr) (value : Half) (s : State) :
    ∃ t, issueAll (expand s.cfg (.write16 reg value)) s = .next t ∧ SameEnd t (execState (.wrreg reg value) s) := by
  rw [expand_write16, issueAll_start, execState]
  rcases issueAll_sends (writeBytes s.cfg reg value) [.stop] (bare_complete (start s)) with
    ⟨u, v, hv, hu, huv⟩ | ⟨u, v, hv, hu, huv⟩
  · rw [hu, hv, issueAll_stop]
    exact ⟨_, rfl, complete_sameEnd (by rw [bare_stop, bare_stop, huv])⟩
  · rw [hu, hv]
    exact ⟨_, rfl, takeFault_sameEnd _ huv⟩

/-- The data phase, issued and called (R56, R88): the host assembles the value from two reads of `RESULT`. -/
theorem data_sameEnd {u v : State} (h : bare u = bare v) :
    ∃ t, issueAll dataCommands u = .next t ∧ SameEnd t (readData v) := by
  rw [dataCommands, issueAll_recvbyte, issueAll_recvbyte, issueAll_stop, readData_eq, lowByteRead]
  refine ⟨_, rfl, complete_sameEnd ?_⟩
  rw [bare_setResult, bare_stop, bare_stop, bare_endRecvByte, bare_recvByte, bare_recvByte, bare_endRecvByte,
    bare_setHold, bare_recvByte, bare_recvByte, h]

/-- The read phase from its repeated start, issued and called (R56, R88). -/
theorem readPhase_sameEnd {u v : State} (h : bare u = bare v) :
    ∃ t, issueAll (.start :: (sendCommands [readAddress v.cfg] ++ dataCommands)) u = .next t ∧
      SameEnd t (readPhase v) := by
  have hstart : bare (complete (start u)) = bare (start v) := by rw [bare_complete, bare_start, bare_start, h]
  rw [issueAll_start, readPhase]
  rcases issueAll_sends [readAddress v.cfg] dataCommands hstart with ⟨u', v', hv, hu, huv⟩ | ⟨u', v', hv, hu, huv⟩
  · rw [hu, hv]
    exact data_sameEnd huv
  · rw [hu, hv]
    exact ⟨_, rfl, takeFault_sameEnd _ huv⟩

/-- `READ16` and `RDREG` (R56, R88). -/
theorem read16_sameEnd (reg : RegAddr) (s : State) :
    ∃ t, issueAll (expand s.cfg (.read16 reg)) s = .next t ∧ SameEnd t (execState (.rdreg reg) s) := by
  rw [expand_read16, issueAll_start, execState]
  rcases issueAll_sends [writeAddress s.cfg, reg] (.start :: (sendCommands [readAddress s.cfg] ++ dataCommands))
      (bare_complete (start s)) with ⟨u, v, hv, hu, huv⟩ | ⟨u, v, hv, hu, huv⟩
  · have hcfg : v.cfg = s.cfg := (sendAcked_cfg hv).trans (start_ran s).cfg
    rw [hu, hv, ← hcfg]
    exact readPhase_sameEnd huv
  · rw [hu, hv]
    exact ⟨_, rfl, takeFault_sameEnd _ huv⟩

/-- Settles O44: the primitives issued and the primitives called read the same, and the host stops where the framer
aborts. -/
theorem expansionsEqualTheirTransactions : Obligations.ExpansionsEqualTheirTransactions := by
  intro p s
  cases p with
  | write16 reg value =>
    obtain ⟨t, ht, hend⟩ := write16_sameEnd reg value s
    exact ⟨t, _, ht, exec_eq _ s, hend⟩
  | read16 reg =>
    obtain ⟨t, ht, hend⟩ := read16_sameEnd reg s
    exact ⟨t, _, ht, exec_eq _ s, hend⟩

end Sys2Proof.Machine
end

section
/-! PROOFS. The micro-operations (40_pin_microops.md rules R60 to R69).  What one of them does to the pins, the trace and the
registers; what the sequencer refuses, and that it refuses nothing at a position of the pseudocode; and, from one engine step
to every command, that the pins are a function of the trace and that the trace keeps the two disciplines. -/

namespace Sys2Proof.Machine

/-! ### One micro-operation -/

theorem Ran.outsideKept {s t : State} {es : List Event} (h : Ran s t es) : OutsideKept s t :=
  ⟨h.cfg, h.pending, h.returned⟩

theorem MicroOp.latch_of_not_read {op : MicroOp} (h : op ≠ .read) (answer old : Bit) : op.latch answer old = old := by
  cases op
  case read => exact absurd rfl h
  all_goals rfl

theorem emit_registersKept {op : MicroOp} (h : op ≠ .read) (s : State) : RegistersKept s (emit op s) :=
  ⟨rfl, rfl, rfl, rfl, rfl, MicroOp.latch_of_not_read h _ _⟩

theorem Pins.master_of_output {p : Pins} (h : p.sdaDir = .output) : p.master = p.sdaOut := by rw [Pins.master, h]

theorem Pins.master_of_input {p : Pins} (h : p.sdaDir = .input) : p.master = true := by rw [Pins.master, h]

/-- Settles O12, by what one micro-operation can do and the direction it leaves. -/
theorem microOperationsDriveThePins : Obligations.MicroOperationsDriveThePins := by
  intro s
  refine ⟨fun op hop => ?_, ?_, ?_, fun b => ?_, fun b => ?_, fun d => ?_⟩
  · have hran := emit_ran op s
    exact ⟨emit_registersKept hop s, hran.err, hran.cause, hran.seq, hran.outsideKept⟩
  · exact ⟨rfl, Pins.master_of_output rfl, (emit_ran .dirOut s).performed⟩
  · exact ⟨rfl, Pins.master_of_input rfl, (emit_ran .dirIn s).performed⟩
  · exact ⟨rfl, (emit_ran (.clk b) s).performed, fun _ => rfl⟩
  · exact ⟨rfl, (emit_ran (.dat b) s).performed, fun hout => Pins.master_of_output hout⟩
  · exact ⟨rfl, (emit_ran (.wait d) s).performed⟩

theorem answer_read (s : State) : answer .read s = (s.pins.master && (emit .read s).slave.level) := rfl

/-- Settles O13: the bit is the data wire, where with the direction `IN` the master adds nothing. -/
theorem readAnswersTheDataWire : Obligations.ReadAnswersTheDataWire := by
  intro s
  have hran := emit_ran .read s
  refine ⟨answer .read s, answer_read s, fun hin => ?_, rfl, hran.performed, rfl, rfl, rfl, hran.hold, hran.result,
    hran.err, hran.cause, hran.seq, hran.outsideKept⟩
  rw [answer_read, Pins.master_of_input hin, Bool.true_and]

/-! ### What the sequencer refuses -/

theorem perform_dat_of_input {s : State} (h : s.pins.sdaDir = .input) (b : Bit) :
    perform (.dat b) s = .refused .driveWhileInput := by simp only [perform, h]

theorem perform_read_of_output {s : State} (h : s.pins.sdaDir = .output) :
    perform .read s = .refused .readWhileOutput := by simp only [perform, h]

/-- Settles O14: of the three things the sequencer can do, the premises exclude the two refusals. -/
theorem sequencerRefusesMisuse : Obligations.SequencerRefusesMisuse := by
  refine fun s => ⟨fun b hin => perform_dat_of_input hin b, perform_read_of_output, fun op hread hdat => ?_⟩
  rcases perform_cases op s with ⟨hperf, -, -⟩ | ⟨-, hin, b, hop⟩ | ⟨-, hout, hop⟩
  · exact hperf
  · exact absurd hop (hdat hin b)
  · exact absurd hop (hread hout)

/-- A micro-operation that the sequencer performs keeps the disciplines (R67). -/
theorem event_allowed_of_perform {op : MicroOp} {s : State} (h : perform op s = .next (emit op s)) (b : Bit) :
    (op.event b).allowed s.pins.sdaDir = true := by
  cases hdir : s.pins.sdaDir <;> cases op
  case input.dat => rw [perform_dat_of_input hdir] at h; cases h
  case output.read => rw [perform_read_of_output hdir] at h; cases h
  all_goals rfl

/-! ### At a position of the pseudocode nothing is refused -/

/-- In the direction that the pseudocode has at a line, the line's micro-operation is permitted (R67). -/
theorem permitted_of_dirAt {p : Prim} {n : Nat} {v : Byte} {op : MicroOp} {dir : Dir} (hop : (p.lines v)[n]? = some op)
    (hd : ∀ d, p.dirAt n = some d → dir = d) : op.permitted dir = true := by
  have hn := lt_lineCount hop
  cases p
  all_goals
    simp only [Prim.lineCount] at hn
    interval_cases n <;> cases hop <;> simp_all [Prim.dirAt, MicroOp.permitted]

theorem engineStep_of_permitted {s : State} {q : Seq} {p : Prim} {op : MicroOp} (hq : s.seq = some q)
    (hp : (primitives s.cfg q.cmd)[q.prim]? = some p) (hop : (p.lines s.shift)[q.uop]? = some op)
    (hd : op.permitted s.pins.sdaDir = true) : engineStep s = .next (advance q p (emit op s)) := by
  simp only [engineStep, hq, hp, performAt, hop, perform_of_permitted hd]

theorem engineStep_of_positionOk {s : State} {q : Seq} (hq : s.seq = some q) (h : positionOk s) :
    ∃ t, engineStep s = .next t := by
  obtain ⟨p, hp, hn, hd, -⟩ := (positionOk_iff hq).mp h
  rw [← lines_length p s.shift] at hn
  have hop := List.getElem?_eq_getElem hn
  exact ⟨_, engineStep_of_permitted hq hp hop (permitted_of_dirAt hop hd)⟩

/-- Settles O50: a reset is always taken, and otherwise the step is the engine's, from a position of the pseudocode. -/
theorem safeEngineIsNeverStopped : Obligations.SafeEngineIsNeverStopped := by
  intro s q hsafe hq
  by_cases hreset : ∃ rest, s.pending = .reset :: rest
  · obtain ⟨rest, hp⟩ := hreset
    exact ⟨_, step_of_reset hp⟩
  · rw [step_of_command hq fun rest hp => hreset ⟨rest, hp⟩]
    exact engineStep_of_positionOk hq ((safe_iff s).mp hsafe).2

/-! ### From one engine step to every command -/

theorem disciplined_append (d : Dir) (es fs : List Event) :
    disciplined d (es ++ fs) = (disciplined d es && disciplined (lastDir d es) fs) := by
  induction es generalizing d with
  | nil => rfl
  | cons e es ih =>
    have hdir : lastDir d (e :: es) = lastDir (lastDir d [e]) es := rfl
    rw [List.cons_append, disciplined, disciplined, ih, hdir, Bool.and_assoc]

/-- From `s` to `t` by the micro-operations `es`: the pins are those the trace gives (R69), and no drive is performed while
`IN` and no read while `OUT` (R67). -/
structure Orderly (s t : State) (es : List Event) : Prop where
  performed : Performed s t es
  pins : t.pins = pinsAfter s.pins es
  disciplined : disciplined s.pins.sdaDir es = true

theorem Orderly.refl (s : State) : Orderly s s [] := ⟨.refl s, rfl, rfl⟩

theorem Orderly.trans {s t u : State} {es fs : List Event} (h : Orderly s t es) (k : Orderly t u fs) :
    Orderly s u (es ++ fs) where
  performed := h.performed.trans k.performed
  pins := by rw [k.pins, h.pins, pinsAfter_append]
  disciplined := by
    have hk := k.disciplined
    rw [h.pins] at hk
    rw [disciplined_append, h.disciplined, Bool.true_and]
    exact hk

/-- An engine step with a command in progress is one micro-operation (R60). -/
theorem engineStep_orderly {s t : State} {q : Seq} (hq : s.seq = some q) (ht : engineStep s = .next t) :
    ∃ e, Orderly s t [e] := by
  rcases engineStep_cases ht with ⟨hnone, -⟩ | ⟨q', p, op, -, -, -, hperf, rfl⟩
  · rw [hq] at hnone
    cases hnone
  · have hran := emit_ran op s
    have hkept := advance_onlyBookkept q' p (emit op s)
    refine ⟨_, hran.performed.congr hkept.trace, hkept.pins.trans hran.pins, ?_⟩
    rw [disciplined, event_allowed_of_perform hperf]
    rfl

theorem engineSteps_orderly {n : Nat} {s t : State} (ht : engineSteps n s = .next t) : ∃ es, Orderly s t es := by
  induction n generalizing s with
  | zero => cases ht; exact ⟨[], .refl _⟩
  | succ n ih =>
    unfold engineSteps at ht
    split at ht
    · next u hu =>
      obtain ⟨es, hes⟩ := ih ht
      rcases engineStep_cases hu with ⟨-, rfl⟩ | ⟨q, _, _, hq, -⟩
      · exact ⟨es, hes⟩
      · obtain ⟨e, he⟩ := engineStep_orderly hq hu
        exact ⟨_, he.trans hes⟩
    · cases ht
    · cases ht

/-- Every command is performed in order, since the sequencer performs it (R60). -/
theorem execState_orderly (i : Instr) (s : State) : ∃ es, Orderly s (execState i s) es := by
  obtain ⟨n, -, hrun⟩ := begin_reaches i s
  obtain ⟨es, hperf, hpins, hdisc⟩ := engineSteps_orderly hrun
  exact ⟨es, hperf, hpins, hdisc⟩

/-- Settles O47: the step performs one micro-operation and keeps what is outside. -/
theorem engineStepIsOneMicroOperation : Obligations.EngineStepIsOneMicroOperation := by
  intro s t q hq ht
  obtain ⟨e, he⟩ := engineStep_orderly hq ht
  obtain ⟨hcfg, -⟩ := engineStep_outsideKept ht
  exact ⟨e, he.performed, he.pins, hcfg⟩

/-- Settles O15: every micro-operation of a command moves the pins as its trace entry says. -/
theorem pinsFollowTheTrace : Obligations.PinsFollowTheTrace := by
  intro i s
  obtain ⟨es, hes⟩ := execState_orderly i s
  exact ⟨_, es, exec_eq i s, hes.performed, hes.pins⟩

/-- Settles O16: the sequencer comes through the command without a refusal, and it refuses what breaks the disciplines. -/
theorem commandsKeepTheTwoDisciplines : Obligations.CommandsKeepTheTwoDisciplines := by
  intro i s
  obtain ⟨es, hes⟩ := execState_orderly i s
  exact ⟨_, es, exec_eq i s, hes.performed, hes.disciplined⟩

end Sys2Proof.Machine
end

section
/-! PROOFS. The conditions the master makes (40_pin_microops.md rule R68, 41_bus_primitives.md rule R82).  A piece of a trace
that moves the data line only with the clock low, entered and left with the clock low, makes none; so each command's
conditions are those of its `START`s and of the `STOP` at its end. -/

namespace Sys2Proof.Machine

/-! ### Pieces of a trace -/

theorem drive_eq_pinsAfter (p : Pins) (e : Event) : e.op.drive p = pinsAfter p [e] := by cases e <;> rfl

theorem pinsAfter_cons (p : Pins) (e : Event) (es : List Event) :
    pinsAfter p (e :: es) = pinsAfter (pinsAfter p [e]) es := pinsAfter_append p [e] es

theorem conditions_append (p : Pins) (n : Nat) (es fs : List Event) :
    conditions p n (es ++ fs) = conditions p n es ++ conditions (pinsAfter p es) (n + es.length) fs := by
  induction es generalizing p n with
  | nil => rfl
  | cons e es ih =>
    rw [List.cons_append, conditions_cons, conditions_cons, ih, pinsAfter_cons, drive_eq_pinsAfter, List.append_assoc,
      List.length_cons, Nat.add_assoc, Nat.add_comm 1]

/-- A trace entry that moves neither the data latch nor its direction (R62, R64, R65). -/
def Event.keepsData : Event → Bool
  | .clk _ | .read _ | .wait _ => true
  | .dirOut | .dirIn | .dat _ => false

theorem Event.condition_eq_none {p : Pins} {e : Event} (h : p.sclOut = true → e.keepsData = true) :
    e.condition p = none := by
  cases hclk : p.sclOut with
  | false => simp only [Event.condition, hclk, Bool.false_eq_true, if_false]
  | true =>
    have hmaster : (e.op.drive p).master = p.master := by
      have hkeeps := h hclk
      cases e
      case clk | read | wait => rfl
      all_goals cases hkeeps
    rw [Event.condition, hmaster]
    cases p.master <;> simp

/-- Entered with the clock at `c`, the trace moves the data line only with the clock low, and leaves the clock low. -/
def dataStable : Bit → List Event → Bool
  | c, [] => !c
  | c, e :: es => (!c || e.keepsData) && dataStable (lastClock c [e]) es

/-- A piece of a trace that moves the data line only with the clock low makes no condition (R68). -/
theorem conditions_of_dataStable {p : Pins} {es : List Event} (h : dataStable p.sclOut es = true) (n : Nat) :
    conditions p n es = [] ∧ (pinsAfter p es).sclOut = false := by
  induction es generalizing p n with
  | nil => exact ⟨rfl, by rwa [dataStable, Bool.not_eq_true'] at h⟩
  | cons e es ih =>
    rw [dataStable, Bool.and_eq_true, Bool.or_eq_true, Bool.not_eq_true'] at h
    obtain ⟨hdata, hrest⟩ := h
    have hnone : e.condition p = none :=
      Event.condition_eq_none fun hhigh => hdata.resolve_left (by rw [hhigh]; decide)
    obtain ⟨hconds, hlow⟩ := ih (p := pinsAfter p [e]) hrest (n + 1)
    rw [conditions_cons, hnone, drive_eq_pinsAfter, hconds, pinsAfter_cons]
    exact ⟨rfl, hlow⟩

theorem dataStable_append {c : Bit} {es fs : List Event} (h : dataStable c es = true) (k : dataStable false fs = true) :
    dataStable c (es ++ fs) = true := by
  induction es generalizing c with
  | nil =>
    cases c
    · exact k
    · cases h
  | cons e es ih =>
    rw [dataStable, Bool.and_eq_true] at h
    rw [List.cons_append, dataStable, h.1, ih h.2]
    rfl

/-! ### The primitives between a start and a stop -/

theorem dataStable_sendByte (v : Byte) : dataStable false (sendByteTrace v) = true := rfl

theorem dataStable_sendAck (ack : Bit) : dataStable false (sendAckTrace ack) = true := rfl

theorem dataStable_recvByte (v : Byte) (ack : Bit) : dataStable false (recvByteTrace v ack) = true := rfl

/-- A poll's high samples change no pin (R76). -/
theorem dataStable_highSamples (j : Nat) {es : List Event} (h : dataStable true es = true) :
    dataStable true (highSamples j ++ es) = true := by
  induction j with
  | zero => exact h
  | succ j ih => exact ih

theorem dataStable_ack (j : Nat) : dataStable false (ackTrace j) = true := by
  rw [ackTrace, List.append_assoc]
  exact dataStable_highSamples j (es := [.read false, .clk false]) rfl

theorem dataStable_acked (l : List (Byte × Nat)) : dataStable false (ackedTrace l) = true := by
  induction l with
  | nil => rfl
  | cons a l ih => exact dataStable_append (dataStable_append (dataStable_sendByte a.1) (dataStable_ack a.2)) ih

/-! ### Starts and stops -/

/-- `START`, from `Idle` or with the clock low, makes one condition, by its `D0`, and leaves the clock low (R70, R82). -/
theorem conditions_start {p : Pins} (hp : p = Pins.idle ∨ p.sclOut = false) (n : Nat) (rest : List Event) :
    conditions p n (startTrace ++ rest) = (n + 4, .start) :: conditions ⟨false, false, .output⟩ (n + 6) rest := by
  have hstart : conditions p n startTrace = [(n + 4, .start)] := by
    rcases hp with rfl | hlow
    · rfl
    · obtain ⟨_, _ | _, _ | _⟩ := p <;> cases hlow <;> rfl
  rw [conditions_append, hstart]
  rfl

/-- Entered with the clock low, the trace makes one condition, a stop, by its last micro-operation (R68, R72). -/
def StopsLast (es : List Event) : Prop :=
  ∃ k, es.length = k + 1 ∧ ∀ p n, p.sclOut = false → conditions p n es = [(n + k, .stop)]

theorem StopsLast.conditions {es : List Event} (h : StopsLast es) {p : Pins} (hp : p.sclOut = false) :
    conditions p 0 es = [(es.length - 1, .stop)] := by
  obtain ⟨k, hlen, hstop⟩ := h
  rw [hstop p 0 hp, hlen, Nat.add_sub_cancel, Nat.zero_add]

theorem StopsLast.append {es fs : List Event} (h : dataStable false es = true) (k : StopsLast fs) :
    StopsLast (es ++ fs) := by
  obtain ⟨k, hlen, hstop⟩ := k
  refine ⟨es.length + k, by rw [List.length_append, hlen, Nat.add_assoc], fun p n hp => ?_⟩
  rw [← hp] at h
  obtain ⟨hconds, hlow⟩ := conditions_of_dataStable h n
  rw [conditions_append, hconds, hstop _ _ hlow, Nat.add_assoc]
  rfl

/-- `STOP` after its first micro-operation (R72). -/
theorem conditions_stop_tail {p : Pins} (hp : p.sclOut = false) (n : Nat) :
    conditions p n [.dirOut, .dat false, .clk true, .wait .tStop, .dat true] = [(n + 4, .stop)] := by
  obtain ⟨_, _ | _, _ | _⟩ := p <;> cases hp <;> rfl

theorem stopsLast_tail : StopsLast [.dirOut, .dat false, .clk true, .wait .tStop, .dat true] :=
  ⟨4, rfl, fun _ n hp => conditions_stop_tail hp n⟩

theorem stopsLast_stop : StopsLast stopTrace := stopsLast_tail.append (es := [.clk false]) rfl

/-- `STOP` makes its condition from any pins: its first micro-operation lowers the clock (R72). -/
theorem conditions_stop (p : Pins) : conditions p 0 stopTrace = [(5, .stop)] := by
  have hfall : (Event.clk false).condition p = none := Event.condition_eq_none fun _ => rfl
  rw [stopTrace, conditions_cons, hfall]
  exact conditions_stop_tail (p := { p with sclOut := false }) rfl 1

/-- The poll that runs out keeps the data line to the falling edge of its `STOP` (R76). -/
theorem stopsLast_timeout (n : Nat) : StopsLast (timeoutTrace n) := by
  have hpoll : dataStable false ([.dirIn, .clk true] ++ (highSamples n ++ [.clk false])) = true :=
    dataStable_highSamples n (es := [.clk false]) rfl
  have h := stopsLast_tail.append hpoll
  simpa [timeoutTrace, stopTrace] using h

/-! ### The transactions -/

/-- A transaction with one start (R87, R89). -/
theorem conditions_of_one_start {rest : List Event} (h : StopsLast rest) :
    conditions Pins.idle 0 (startTrace ++ rest) = [(4, .start), ((startTrace ++ rest).length - 1, .stop)] := by
  obtain ⟨k, hlen, hstop⟩ := h
  rw [conditions_start (.inl rfl), hstop _ _ rfl]
  simp [startTrace, hlen]
  omega

/-- A read that comes to its repeated start (R88). -/
theorem conditions_of_two_starts {ptr rest : List Event} (hptr : dataStable false ptr = true) (h : StopsLast rest) :
    ∃ k, 4 < k ∧ k < (startTrace ++ ptr ++ (startTrace ++ rest)).length - 1 ∧
      conditions Pins.idle 0 (startTrace ++ ptr ++ (startTrace ++ rest)) =
        [(4, .start), (k, .start), ((startTrace ++ ptr ++ (startTrace ++ rest)).length - 1, .stop)] := by
  obtain ⟨hconds, hlow⟩ := conditions_of_dataStable (p := ⟨false, false, .output⟩) hptr 6
  obtain ⟨k, hlen, hstop⟩ := h
  refine ⟨6 + ptr.length + 4, by omega, by simp [startTrace, hlen]; omega, ?_⟩
  rw [List.append_assoc, conditions_start (.inl rfl), conditions_append, hconds, conditions_start (.inr hlow),
    hstop _ _ rfl]
  simp [startTrace, hlen]
  omega

/-- The frame cut at the missed acknowledge of the byte `b` (R89). -/
theorem stopsLast_aborted (l : List (Byte × Nat)) (b : Byte) (n : Nat) :
    StopsLast (ackedTrace l ++ (sendByteTrace b ++ timeoutTrace n)) :=
  ((stopsLast_timeout n).append (dataStable_sendByte b)).append (dataStable_acked l)

theorem wrreg_conditions (reg : RegAddr) (value : Half) {s : State} (hpins : s.pins = Pins.idle) :
    ∃ es, Performed s (execState (.wrreg reg value) s) es ∧
      conditions s.pins 0 es = [(4, .start), (es.length - 1, .stop)] := by
  rw [hpins]
  rcases wrreg_cases reg value s with ⟨js, u, -, -, hexec, hran, -⟩ | ⟨js, b, u, -, -, hexec, hran, -⟩
  · rw [writeTrace, List.append_assoc] at hran
    rw [hexec]
    exact ⟨_, hran.performed.congr rfl, conditions_of_one_start (stopsLast_stop.append (dataStable_acked _))⟩
  · rw [abortedTrace, List.append_assoc, List.append_assoc] at hran
    rw [hexec]
    exact ⟨_, hran.performed.congr rfl, conditions_of_one_start (stopsLast_aborted _ b _)⟩

theorem rdreg_conditions (reg : RegAddr) {s : State} (hpins : s.pins = Pins.idle) :
    ∃ es, Performed s (execState (.rdreg reg) s) es ∧
      (conditions s.pins 0 es = [(4, .start), (es.length - 1, .stop)] ∨
        ∃ k, 4 < k ∧ k < es.length - 1 ∧
          conditions s.pins 0 es = [(4, .start), (k, .start), (es.length - 1, .stop)]) := by
  rw [hpins]
  rcases rdreg_cases reg s with ⟨j1, j2, j3, u, -, -, -, hexec, hran, -⟩ | ⟨es, u, hexec, hran, -, -, -, hes⟩
  · obtain ⟨hi, lo, hperf, -⟩ := readData_cases u
    have hdata : dataStable false (recvByteTrace hi true ++ recvByteTrace lo false) = true :=
      dataStable_append (dataStable_recvByte hi true) (dataStable_recvByte lo false)
    have hall := hran.performed.trans hperf
    rw [List.append_assoc, List.append_assoc] at hall
    rw [hexec]
    exact ⟨_, hall, .inr (conditions_of_two_starts (dataStable_acked _)
      ((stopsLast_stop.append hdata).append (dataStable_acked _)))⟩
  · rw [hexec]
    rcases hes with ⟨js, b, -, -, rfl⟩ | ⟨j1, j2, -, -, rfl⟩
    · rw [List.append_assoc, List.append_assoc] at hran
      exact ⟨_, hran.performed.congr rfl, .inl (conditions_of_one_start (stopsLast_aborted _ b _))⟩
    · rw [List.append_assoc, List.append_assoc] at hran
      exact ⟨_, hran.performed.congr rfl, .inr (conditions_of_two_starts (dataStable_acked _)
        ((stopsLast_timeout _).append (dataStable_sendByte _)))⟩

/-- Settles O35, primitive by primitive, with every way a poll can end. -/
theorem onlyStartAndStopMakeConditions : Obligations.OnlyStartAndStopMakeConditions := by
  intro i s hclean
  have hstable {es : List Event} (h : dataStable false es = true) (hlow : s.pins.sclOut = false) :
      conditions s.pins 0 es = [] := (conditions_of_dataStable (hlow ▸ h) 0).1
  cases i with
  | start =>
    have hp : s.pins = Pins.idle ∨ s.pins.sclOut = false := hclean.imp_left And.left
    exact ⟨_, _, rfl, (start_ran s).performed.congr rfl, conditions_start hp 0 []⟩
  | stop => exact ⟨_, _, rfl, (stop_ran s).performed.congr rfl, conditions_stop s.pins⟩
  | sendbyte v => exact ⟨_, _, rfl, (sendByte_ran v s).performed.congr rfl, hstable (dataStable_sendByte v) hclean⟩
  | waitack =>
    rcases waitAck_cases s with ⟨j, t, -, ht, hran, -⟩ | ⟨t, ht, hran, -⟩
    · have hexec : execState .waitack s = complete t := congrArg endWaitAck ht
      exact ⟨_, _, (exec_eq _ s).trans (congrArg _ hexec), hran.performed.congr rfl,
        .inl ⟨rfl, hstable (dataStable_ack j) hclean⟩⟩
    · have hexec : execState .waitack s = takeFault .busAcknowledgeTimeout t := congrArg endWaitAck ht
      exact ⟨_, _, (exec_eq _ s).trans (congrArg _ hexec), hran.performed.congr rfl,
        .inr ⟨rfl, (stopsLast_timeout _).conditions hclean⟩⟩
  | sendack ack => exact ⟨_, _, rfl, (sendAck_ran ack s).performed.congr rfl, hstable (dataStable_sendAck ack) hclean⟩
  | recvbyte ack =>
    obtain ⟨v, hran, -⟩ := recvByte_cases ack s
    exact ⟨_, _, rfl, hran.performed.congr rfl, hstable (dataStable_recvByte v ack) hclean⟩
  | wrreg reg value =>
    obtain ⟨es, hperf, hconds⟩ := wrreg_conditions reg value hclean.1
    exact ⟨_, es, exec_eq _ s, hperf, hconds⟩
  | rdreg reg =>
    obtain ⟨es, hperf, hconds⟩ := rdreg_conditions reg hclean.1
    exact ⟨_, es, exec_eq _ s, hperf, hconds⟩

end Sys2Proof.Machine
end

section
/-! PROOFS. The six primitives as commands of the host (41_bus_primitives.md rules R70 to R84) and the sequences a host
builds of them (70_reset_and_hazards.md rules R125 to R128).  Each primitive's run is known from its call; what is left is
the pins it leaves, the two ways `WAITACK` ends, and the phase of the frame each command leaves the bus in. -/

namespace Sys2Proof.Machine

/-! ### The pins a trace leaves -/

theorem pinsAfter_highSamples (p : Pins) (j : Nat) : pinsAfter p (highSamples j) = p := by
  induction j with
  | zero => rfl
  | succ j ih => rw [highSamples_succ, pinsAfter_append]; exact ih

theorem pinsAfter_ackTrace (p : Pins) (j : Nat) : pinsAfter p (ackTrace j) = ⟨false, p.sdaOut, .input⟩ := by
  rw [ackTrace, pinsAfter_append, pinsAfter_append, pinsAfter_highSamples]
  rfl

theorem pinsAfter_sendByteTrace (p : Pins) (v : Byte) :
    pinsAfter p (sendByteTrace v) = ⟨false, v.getLsbD 0, .output⟩ := rfl

theorem pinsAfter_recvByteTrace (p : Pins) (v : Byte) (ack : Bit) :
    pinsAfter p (recvByteTrace v ack) = ⟨false, true, .output⟩ := by
  rw [recvByteTrace, pinsAfter_append]
  rfl

/-! ### The primitives without a branch -/

theorem execState_of_exec {i : Instr} {s t : State} (h : exec i s = .next t) : execState i s = t :=
  Host.Outcome.next.inj ((exec_eq i s).symm.trans h)

/-- Settles O17, by the run of `START` and the frame of every command. -/
theorem startMakesItsSixMicroOperations : Obligations.StartMakesItsSixMicroOperations := by
  refine ⟨decode_encode .start, fun s => ?_⟩
  obtain ⟨t, ht, hout, hregs⟩ := eachCommandWritesOnlyItsRegisters .start s
  obtain rfl := execState_of_exec ht
  exact ⟨_, ht, (start_ran s).performed.congr rfl, (start_ran s).pins, complete_ended _, hregs, hout⟩

/-- Settles O18, by the run of `STOP` and the frame of every command. -/
theorem stopLeavesTheEngineIdle : Obligations.StopLeavesTheEngineIdle := by
  refine ⟨decode_encode .stop, fun s => ?_⟩
  obtain ⟨t, ht, hout, hregs⟩ := eachCommandWritesOnlyItsRegisters .stop s
  obtain rfl := execState_of_exec ht
  exact ⟨_, ht, (stop_ran s).performed.congr rfl, ⟨(stop_ran s).pins, rfl⟩, complete_ended _, hregs, hout⟩

/-- Settles O20, by the run of `SENDACK` and the frame of every command. -/
theorem sendackDrivesTheNinthBit : Obligations.SendackDrivesTheNinthBit := by
  intro ack s
  have hword : (if ack then 0x05010000 else 0x05000000) = encode (.sendack ack) := by cases ack <;> rfl
  obtain ⟨t, ht, hout, hregs⟩ := eachCommandWritesOnlyItsRegisters (.sendack ack) s
  obtain rfl := execState_of_exec ht
  exact ⟨_, hword ▸ decode_encode _, ht, (sendAck_ran ack s).performed.congr rfl, (sendAck_ran ack s).pins,
    complete_ended _, hregs, hout⟩

/-- Settles O19: the loop shifts the value out, and its last bit stays on the line. -/
theorem sendbyteClocksOutTheByte : Obligations.SendbyteClocksOutTheByte := by
  intro v s
  have hexec : exec (.sendbyte v) s = .next (complete (sendByte v s)) := rfl
  have hran := sendByte_ran v s
  obtain ⟨hshift, hbit, hpoll, hsample⟩ := sendByte_registers v s
  generalize sendByte v s = u at hexec hran hshift hbit hpoll hsample
  have hpins := hran.pins.trans (pinsAfter_sendByteTrace s.pins v)
  exact ⟨_, decode_encode (.sendbyte v), hexec, hran.performed.congr rfl, hpins, hshift, hbit, complete_ended u, hpoll,
    hran.hold, hran.result, hsample, hran.outsideKept⟩

/-- Settles O21: the loop shifts some byte in, and the command copies `SHIFT` to `RESULT`. -/
theorem recvbyteClocksInAByte : Obligations.RecvbyteClocksInAByte := by
  intro ack s
  have hword : (if ack then 0x06010000 else 0x06000000) = encode (.recvbyte ack) := by cases ack <;> rfl
  have hexec : exec (.recvbyte ack) s = .next (endRecvByte (recvByte ack s)) := rfl
  obtain ⟨byte, hran, hshift, hbit, hpoll, -⟩ := recvByte_cases ack s
  generalize recvByte ack s = u at hexec hran hshift hbit hpoll
  have hpins := hran.pins.trans (pinsAfter_recvByteTrace s.pins byte ack)
  have hresult : (endRecvByte u).result = some ((0 : Byte) ++ byte) := by
    rw [← zextByte_eq, ← hshift]
    rfl
  exact ⟨_, byte, hword ▸ decode_encode _, hexec, hran.performed.congr rfl, hresult, hshift, hbit, hpins,
    complete_ended _, hpoll, hran.hold, hran.outsideKept⟩

/-! ### WAITACK -/

/-- `WAITACK` took `s` to `t` and saw an acknowledge after `j` high samples (R76). -/
structure Acknowledged (s t : State) (j : Nat) : Prop where
  performed : Performed s t (ackTrace j)
  ended : Ended t
  pollcnt : t.pollcnt = j
  pins : t.pins = ⟨false, s.pins.sdaOut, .input⟩

/-- `WAITACK` took `s` to `t` and saw none within the bound: the stop and the fault (R76, R101, R102). -/
structure Unacknowledged (s t : State) : Prop where
  performed : Performed s t (timeoutTrace s.cfg.ackPollBound.val)
  timedOut : TimedOut t
  idle : t.Idle
  pollcnt : t.pollcnt = s.cfg.ackPollBound.val

theorem Acknowledged.err {s t : State} {j : Nat} (h : Acknowledged s t j) : t.err = false := by
  obtain ⟨herr, -, -⟩ := h.ended
  exact herr

theorem Unacknowledged.err {s t : State} (h : Unacknowledged s t) : t.err = true := by
  obtain ⟨herr, -, -⟩ := h.timedOut
  exact herr

/-- The two ways `WAITACK` can end as a command, each with what it says about a scripted slave. -/
theorem waitack_cases (s : State) :
    (∃ j, j < s.cfg.ackPollBound.val ∧ Acknowledged s (execState .waitack s) j ∧
        ∀ o, s.slave = .oracle o → o.acksAt 2 j) ∨
      (Unacknowledged s (execState .waitack s) ∧
        ∀ o, s.slave = .oracle o → o.missesAt 2 s.cfg.ackPollBound.val) := by
  rw [execState]
  rcases waitAck_cases s with ⟨j, u, hj, hu, hran, hpoll, -, -, ho⟩ | ⟨u, hu, hran, hpoll, -, -, ho⟩
  · rw [hu]
    have hpins := hran.pins.trans (pinsAfter_ackTrace s.pins j)
    exact .inl ⟨j, hj, ⟨hran.performed.congr rfl, complete_ended u, hpoll, hpins⟩, ho⟩
  · rw [hu]
    have hpins : u.pins = Pins.idle := hran.pins_of_timeoutTrace (es := [])
    exact .inr ⟨⟨hran.performed.congr rfl, takeFault_timedOut u, ⟨hpins, rfl⟩, hpoll⟩, ho⟩

/-- What `WAITACK` leaves alone, however it ends (R27). -/
theorem waitack_frame (s : State) : (execState .waitack s).shift = s.shift ∧ (execState .waitack s).bitcnt = s.bitcnt ∧
    (execState .waitack s).hold = s.hold ∧ (execState .waitack s).result = s.result ∧
    OutsideKept s (execState .waitack s) := by
  obtain ⟨hshift, hbit, hhold, hresult⟩ := waitack_keeps s
  exact ⟨hshift, hbit, hhold, hresult, execState_outsideKept .waitack s⟩

/-- Settles O23, by the two ways `WAITACK` can end. -/
theorem waitackAcknowledgesOrTimesOut : Obligations.WaitackAcknowledgesOrTimesOut := by
  refine ⟨decode_encode .waitack, fun s => ⟨_, exec_eq _ s, ?_, waitack_frame s⟩⟩
  rcases waitack_cases s with ⟨j, hj, hack, -⟩ | ⟨hmiss, -⟩
  · exact .inl ⟨j, hj, hack.performed, hack.ended, hack.pollcnt, hack.pins⟩
  · exact .inr ⟨hmiss.performed, hmiss.timedOut, hmiss.idle, hmiss.pollcnt⟩

/-- Settles O24: the slave's contributions fix the number of high samples and exclude the timeout. -/
theorem waitackSeesTheAcknowledge : Obligations.WaitackSeesTheAcknowledge := by
  intro s o j hs hj hacks
  rcases waitack_cases s with ⟨i, -, hack, ho⟩ | ⟨-, ho⟩
  · obtain rfl := Oracle.acksAt_unique (ho o hs) hacks
    exact ⟨_, exec_eq _ s, hack.performed, hack.ended, hack.pollcnt, hack.pins, waitack_frame s⟩
  · exact absurd (ho o hs) (Oracle.not_missesAt hacks hj)

/-- Settles O25: the slave's contributions exclude an acknowledge. -/
theorem waitackTakesTheTimeout : Obligations.WaitackTakesTheTimeout := by
  intro s o hs hmisses
  rcases waitack_cases s with ⟨j, hj, -, ho⟩ | ⟨hmiss, -⟩
  · exact absurd hmisses (Oracle.not_missesAt (ho o hs) hj)
  · exact ⟨_, exec_eq _ s, hmiss.performed, hmiss.timedOut, hmiss.idle, hmiss.pollcnt, waitack_frame s⟩

/-- The number of micro-operations of `WAITACK` (R84). -/
theorem waitack_length (s : State) :
    ((execState .waitack s).err = false ∧ (execState .waitack s).pollcnt < s.cfg.ackPollBound.val ∧
        (execState .waitack s).trace.length = s.trace.length + (2 * (execState .waitack s).pollcnt + 4)) ∨
      ((execState .waitack s).err = true ∧
        (execState .waitack s).trace.length = s.trace.length + (2 * s.cfg.ackPollBound.val + 8)) := by
  rcases waitack_cases s with ⟨j, hj, hack, -⟩ | ⟨hmiss, -⟩
  · rw [hack.pollcnt, hack.performed.length, ackTrace_length]
    exact .inl ⟨hack.err, hj, rfl⟩
  · rw [hmiss.performed.length, timeoutTrace_length]
    exact .inr ⟨hmiss.err, rfl⟩

/-- Settles O26: the trace grows by the trace performed. -/
theorem stepCountsOfThePrimitives : Obligations.StepCountsOfThePrimitives := by
  intro s value ack
  obtain ⟨byte, hrecv, -⟩ := recvByte_cases ack s
  exact ⟨⟨_, exec_eq _ s, (start_ran s).performed.length⟩, ⟨_, exec_eq _ s, (stop_ran s).performed.length⟩,
    ⟨_, exec_eq _ s, (sendByte_ran value s).performed.length⟩, ⟨_, exec_eq _ s, (sendAck_ran ack s).performed.length⟩,
    ⟨_, exec_eq _ s, hrecv.performed.length⟩, ⟨_, exec_eq _ s, waitack_length s⟩⟩

/-! ### Sequences of commands -/

/-- The bus in a phase of the host's frame: idle with no frame open, else the clock low (R82, R127). -/
def BusIn : FramePhase → State → Prop
  | .idle, s => s.Idle
  | .started, s | .sent _, s | .acked _, s | .received _ _, s => s.pins.sclOut = false

theorem execState_start_low (s : State) : (execState .start s).pins.sclOut = false :=
  congrArg Pins.sclOut (start_ran s).pins

theorem execState_stop_idle (s : State) : (execState .stop s).Idle := ⟨(stop_ran s).pins, rfl⟩

theorem execState_sendbyte_low (v : Byte) (s : State) : (execState (.sendbyte v) s).pins.sclOut = false := by
  obtain ⟨t, -, ht, -, hpins, -⟩ := sendbyteClocksOutTheByte v s
  rw [execState_of_exec ht, hpins]

theorem execState_recvbyte_low (ack : Bit) (s : State) : (execState (.recvbyte ack) s).pins.sclOut = false := by
  obtain ⟨t, _, -, ht, -, -, -, -, hpins, -⟩ := recvbyteClocksInAByte ack s
  rw [execState_of_exec ht, hpins]

theorem execState_waitack_low {s : State} (herr : (execState .waitack s).err = false) :
    (execState .waitack s).pins.sclOut = false := by
  rcases waitack_cases s with ⟨j, -, hack, -⟩ | ⟨hmiss, -⟩
  · rw [hack.pins]
  · exact absurd (hmiss.err.symm.trans herr) (by decide)

theorem execState_wrreg_idle (reg : RegAddr) (value : Half) (s : State) : (execState (.wrreg reg value) s).Idle := by
  obtain ⟨t, _, ht, -, -, hidle, -⟩ := wrregSucceedsOrAborts s reg value
  rwa [execState_of_exec ht]

theorem execState_rdreg_idle (reg : RegAddr) (s : State) : (execState (.rdreg reg) s).Idle := by
  obtain ⟨t, ht, -, hidle, -⟩ := rdregReturnsDataOrTheSentinel s reg
  rwa [execState_of_exec ht]

/-- Whatever command ends with `ERR = 1`, its `STOP` has been made (R89, R102). -/
theorem execState_idle_of_err {i : Instr} {s : State} (herr : (execState i s).err = true) : (execState i s).Idle := by
  cases i with
  | waitack =>
    rcases waitack_cases s with ⟨j, -, hack, -⟩ | ⟨hmiss, -⟩
    · exact absurd (hack.err.symm.trans herr) (by decide)
    · exact hmiss.idle
  | wrreg reg value => exact execState_wrreg_idle reg value s
  | rdreg reg => exact execState_rdreg_idle reg s
  | start | stop | sendbyte _ | sendack _ | recvbyte _ => cases herr

/-- A move of the automaton: the command is entered clean, and without an error it leaves the bus in the next phase.  The
cases are the rows of `FramePhase.next`, in their order. -/
theorem busIn_next {cfg : Config} {ph ph' : FramePhase} {i : Instr} {s : State} (h : ph.next cfg i = some ph')
    (hbus : BusIn ph s) :
    cleanEntry i s ∧ ((execState i s).err = false → BusIn ph' (execState i s)) := by
  unfold FramePhase.next at h
  split at h
  · cases h; exact ⟨.inl hbus, fun _ => execState_start_low s⟩
  · cases h; exact ⟨hbus, fun _ => execState_wrreg_idle _ _ s⟩
  · cases h; exact ⟨hbus, fun _ => execState_rdreg_idle _ s⟩
  · cases h; exact ⟨hbus, fun _ => execState_sendbyte_low _ s⟩
  · cases h; exact ⟨hbus, execState_waitack_low⟩
  · cases h; exact ⟨hbus, fun _ => execState_sendbyte_low _ s⟩
  · obtain ⟨-, ⟨⟩⟩ := Option.ite_none_right_eq_some.mp h
    exact ⟨hbus, fun _ => execState_recvbyte_low _ s⟩
  · cases h; exact ⟨.inr hbus, fun _ => execState_start_low s⟩
  · cases h; exact ⟨trivial, fun _ => execState_stop_idle s⟩
  · cases h; exact ⟨hbus, fun _ => execState_recvbyte_low _ s⟩
  · obtain ⟨-, ⟨⟩⟩ := Option.ite_none_left_eq_some.mp h
    exact ⟨.inr hbus, fun _ => execState_start_low s⟩
  · obtain ⟨-, ⟨⟩⟩ := Option.ite_none_left_eq_some.mp h
    exact ⟨trivial, fun _ => execState_stop_idle s⟩
  · cases h

theorem after_cons_eq_some {cfg : Config} {ph ph' : FramePhase} {i : Instr} {is : List Instr}
    (h : FramePhase.after cfg ph (i :: is) = some ph') :
    ∃ mid, ph.next cfg i = some mid ∧ FramePhase.after cfg mid is = some ph' := by
  unfold FramePhase.after at h
  split at h
  · next mid hmid => exact ⟨mid, hmid, h⟩
  · cases h

theorem entersClean_cons (i : Instr) (is : List Instr) (s : State) : entersClean (i :: is) s ↔
    cleanEntry i s ∧ ((execState i s).err = false → entersClean is (execState i s)) := by
  rw [entersClean, exec_eq]
  simp only [Host.Outcome.next.injEq, forall_eq']

/-- The host's walk through a sequence keeps to the automaton's walk, from any phase. -/
theorem issueAll_of_after (is : List Instr) {ph : FramePhase} {s : State} (hbus : BusIn ph s)
    (hafter : FramePhase.after s.cfg ph is = some .idle) :
    entersClean is s ∧ ∃ t, issueAll is s = .next t ∧ t.Idle := by
  induction is generalizing ph s with
  | nil => cases hafter; exact ⟨trivial, s, rfl, hbus⟩
  | cons i is ih =>
    obtain ⟨mid, hnext, hrest⟩ := after_cons_eq_some hafter
    obtain ⟨hclean, hstep⟩ := busIn_next hnext hbus
    obtain ⟨hcfg, -, -⟩ := execState_outsideKept i s
    rw [← hcfg] at hrest
    rw [entersClean_cons, issueAll_cons]
    cases herr : (execState i s).err with
    | false =>
      obtain ⟨hcleanRest, hidle⟩ := ih (hstep herr) hrest
      exact ⟨⟨hclean, fun _ => hcleanRest⟩, hidle⟩
    | true => exact ⟨⟨hclean, nofun⟩, _, rfl, execState_idle_of_err herr⟩

/-- Settles O45: a well-formed sequence is a walk of the automaton from `idle` to `idle`. -/
theorem wellFormedSequencesEndIdle : Obligations.WellFormedSequencesEndIdle := fun is _ hidle hwf =>
  issueAll_of_after is (ph := .idle) hidle (beq_iff_eq.mp hwf)

end Sys2Proof.Machine
end

section
/-! PROOFS. The two transactions against a scripted slave (42_register_protocol.md rules R87 to R93,
70_reset_and_hazards.md rules R130 and R134).  The slave's contributions fix which acknowledge is seen and which is missed;
a data line held low gives every acknowledge at once and the value 0, and a line let go after the third acknowledge gives
the sentinel as data. -/

namespace Sys2Proof.Machine

/-! ### Where an acknowledged send is cut off -/

/-- Two lists of counts, each with a missed acknowledge after it, describe the same slave only when they are equal. -/
theorem Oracle.acksFrom_unique {o : Oracle} {bound k : Nat} {is js : List Nat} (hi : o.acksFrom bound k is)
    (hmi : o.missesAt (k + 45 * is.length + 2 * is.sum) bound) (hj : o.acksFrom bound k js)
    (hmj : o.missesAt (k + 45 * js.length + 2 * js.sum) bound) : is = js := by
  rcases Nat.lt_trichotomy is.length js.length with h | h | h
  · exact absurd hmi (Oracle.acksFrom_not_missed hj hi h)
  · have hagree := Oracle.acksFrom_agree hi hj h.le
    rwa [h, List.take_length] at hagree
  · exact absurd hmj (Oracle.acksFrom_not_missed hi hj h)

/-- Against a scripted slave that acknowledges `js.length` bytes and misses the next one, `b`, an acknowledged send ends
with the timeout after `b` (R86, R89). -/
theorem sendAcked_of_missesAt {o : Oracle} {js : List Nat} {b : Byte} (bytes : List Byte) (s : State)
    (hs : s.slave = .oracle o) (hb : bytes[js.length]? = some b) (hjs : o.acksFrom s.cfg.ackPollBound.val 43 js)
    (hmiss : o.missesAt (43 + 45 * js.length + 2 * js.sum) s.cfg.ackPollBound.val) :
    ∃ t, sendAcked bytes s = (t, true) ∧
      Ran s t (ackedTrace (bytes.zip js) ++ sendByteTrace b ++ timeoutTrace s.cfg.ackPollBound.val) := by
  rcases sendAcked_cases bytes s with ⟨is, -, hi, -, -, -, -, ho⟩ | ⟨is, c, t, hc, -, ht, hran, -, -, -, ho⟩
  · have hlt : js.length < is.length := by
      rw [hi]
      exact (List.getElem?_eq_some_iff.mp hb).1
    exact absurd hmiss (Oracle.acksFrom_not_missed (ho o hs) hjs hlt)
  · obtain ⟨hacks, hmiss'⟩ := ho o hs
    obtain rfl := Oracle.acksFrom_unique hacks hmiss' hjs hmiss
    obtain rfl := Option.some.inj (hc.symm.trans hb)
    exact ⟨t, ht, hran⟩

/-! ### A frame: the start, then acknowledged bytes -/

/-- The first acknowledge of a frame is sampled 49 micro-operations after its start begins (R84). -/
theorem frame_of_acksFrom {o : Oracle} {js : List Nat} (bytes : List Byte) (s : State) (hs : s.slave = .oracle o)
    (hlen : js.length = bytes.length) (hjs : o.acksFrom s.cfg.ackPollBound.val 49 js) :
    ∃ t, sendAcked bytes (start s) = (t, false) ∧ Ran s t (startTrace ++ ackedTrace (bytes.zip js)) ∧
      (bytes ≠ [] → t.shift = 0 ∧ t.bitcnt = 0 ∧ some t.pollcnt = js.getLast?) := by
  have hstart := start_ran s
  have hacks : (o.after startTrace.length).acksFrom (start s).cfg.ackPollBound.val 43 js :=
    Oracle.acksFrom_after.mpr hjs
  obtain ⟨t, ht, hran, hreg⟩ := sendAcked_of_acksFrom bytes (start s) (hstart.slave o hs) hlen hacks
  exact ⟨t, ht, hstart.trans hran, hreg⟩

theorem frame_of_missesAt {o : Oracle} {js : List Nat} {b : Byte} (bytes : List Byte) (s : State)
    (hs : s.slave = .oracle o) (hb : bytes[js.length]? = some b) (hjs : o.acksFrom s.cfg.ackPollBound.val 49 js)
    (hmiss : o.missesAt (49 + 45 * js.length + 2 * js.sum) s.cfg.ackPollBound.val) :
    ∃ t, sendAcked bytes (start s) = (t, true) ∧ Ran s t (abortedTrace bytes js b s.cfg.ackPollBound.val) := by
  have hstart := start_ran s
  have hacks : (o.after startTrace.length).acksFrom (start s).cfg.ackPollBound.val 43 js :=
    Oracle.acksFrom_after.mpr hjs
  have hplace : startTrace.length + (43 + 45 * js.length + 2 * js.sum) = 49 + 45 * js.length + 2 * js.sum := by
    rw [show startTrace.length = 6 from rfl]
    omega
  have hmiss' : (o.after startTrace.length).missesAt (43 + 45 * js.length + 2 * js.sum)
      (start s).cfg.ackPollBound.val := by
    rwa [Oracle.missesAt_after, hplace]
  obtain ⟨t, ht, hran⟩ := sendAcked_of_missesAt bytes (start s) (hstart.slave o hs) hb hacks hmiss'
  have hall := hstart.trans hran
  rw [← List.append_assoc, ← List.append_assoc] at hall
  exact ⟨t, ht, hall⟩

/-! ### WRREG -/

/-- Settles O28: the slave's contributions carry the frame to its end, and the `STOP` leaves the pins idle. -/
theorem wrregCompletesWhenAcknowledged : Obligations.WrregCompletesWhenAcknowledged := by
  intro s o reg value j1 j2 j3 j4 hs hjs
  obtain ⟨t, ht, hran, hreg⟩ := frame_of_acksFrom (writeBytes s.cfg reg value) s hs rfl hjs
  obtain ⟨hshift, hbit, hpoll⟩ := hreg (List.cons_ne_nil _ _)
  have hexec : execState (.wrreg reg value) s = complete (stop t) := by simp only [execState, ht, endWrite]
  have hall := hran.trans (stop_ran t)
  exact ⟨complete (stop t), (exec_eq _ s).trans (congrArg _ hexec), hall.performed.congr rfl, complete_ended _,
    ⟨hall.pins_of_stopTrace, rfl⟩, hall.result, hall.hold, Option.some.inj hpoll, hshift, hbit, hall.outsideKept⟩

/-- Settles O30: the slave's contributions cut the frame off at the byte `b`, whose `WAITACK` makes the one stop. -/
theorem wrregAbortsAtTheMissingAcknowledge : Obligations.WrregAbortsAtTheMissingAcknowledge := by
  intro s o reg value js b hs hb hjs hmiss
  obtain ⟨t, ht, hran⟩ := frame_of_missesAt (writeBytes s.cfg reg value) s hs hb hjs hmiss
  have hexec : execState (.wrreg reg value) s = takeFault .busAcknowledgeTimeout t := by
    simp only [execState, ht, endWrite]
  exact ⟨takeFault .busAcknowledgeTimeout t, (exec_eq _ s).trans (congrArg _ hexec), hran.performed.congr rfl,
    takeFault_timedOut t, ⟨hran.pins_of_timeoutTrace, rfl⟩, hran.result⟩

/-! ### RDREG -/

theorem pointerTrace_length (cfg : Config) (reg : RegAddr) (j1 j2 : Nat) :
    (pointerTrace cfg reg j1 j2).length = 96 + 2 * (j1 + j2) := by
  simp [pointerTrace, ackedTrace, startTrace]
  omega

/-- Against a scripted slave that acknowledges the pointer phase and misses the read address, `RDREG` is aborted there
(R88, R89). -/
theorem execState_rdreg_of_missesAt {o : Oracle} {s : State} {j1 j2 : Nat} (reg : RegAddr) (hs : s.slave = .oracle o)
    (h12 : o.acksFrom s.cfg.ackPollBound.val 49 [j1, j2])
    (hmiss : o.missesAt (145 + 2 * (j1 + j2)) s.cfg.ackPollBound.val) :
    ∃ u, execState (.rdreg reg) s = abortRead u ∧
      Ran s u (readAbortedTrace s.cfg reg j1 j2 s.cfg.ackPollBound.val) := by
  obtain ⟨t, ht, hptr, -⟩ := frame_of_acksFrom [writeAddress s.cfg, reg] s hs rfl h12
  change Ran s t (pointerTrace s.cfg reg j1 j2) at hptr
  have hplace : (pointerTrace s.cfg reg j1 j2).length + 49 = 145 + 2 * (j1 + j2) := by
    rw [pointerTrace_length]
    omega
  have hmiss' : (o.after (pointerTrace s.cfg reg j1 j2).length).missesAt 49 t.cfg.ackPollBound.val := by
    rwa [Oracle.missesAt_after, hplace, hptr.cfg]
  obtain ⟨u, hu, hread⟩ := frame_of_missesAt (js := []) [readAddress t.cfg] t (hptr.slave o hs) rfl trivial hmiss'
  rw [hptr.cfg] at hread
  refine ⟨u, by simp only [execState, ht, endPointer, readPhase, hu], ?_⟩
  have hall := hptr.trans hread
  simpa [readAbortedTrace, abortedTrace, ackedTrace] using hall

/-- Settles O33: the read is aborted at the read address, and the trace grows by the trace performed. -/
theorem rdregAbortsAtTheReadAddress : Obligations.RdregAbortsAtTheReadAddress := by
  intro s o reg j1 j2 hs h12 hmiss
  obtain ⟨u, hexec, hran⟩ := execState_rdreg_of_missesAt reg hs h12 hmiss
  obtain ⟨hresult, -, htimed, hpins, hperf⟩ := abortRead_fields hran
  refine ⟨abortRead u, (exec_eq _ s).trans (congrArg _ hexec), hresult, htimed, ⟨hpins, rfl⟩, ?_⟩
  rw [← readAbortedTrace] at hperf
  have hlen : (readAbortedTrace s.cfg reg j1 j2 s.cfg.ackPollBound.val).length =
      151 + 2 * (j1 + j2) + 2 * s.cfg.ackPollBound.val := by
    simp [readAbortedTrace, pointerTrace_length, startTrace]
    omega
  rw [hperf.length, hlen]

/-! ### A line that acknowledges at once -/

/-- A slave whose contributions at the eight samples are the bits of `v` puts the byte `v` on the line. -/
theorem Oracle.byteAt_eq {o : Oracle} {k : Nat} {v : Byte}
    (h : ∀ m, m < 8 → o.upcoming (k + 5 * m) = v.getLsbD (7 - m)) : o.byteAt k = v := by
  refine BitVec.eq_of_getLsbD_eq fun i hi => ?_
  have hm : 7 - i < 8 := by omega
  have hi' : 7 - (7 - i) = i := by omega
  have hbit := (o.byteAt_getLsbD k hm).trans (h (7 - i) hm)
  rwa [hi'] at hbit

/-- A contribution of 0 at the first sample is an acknowledge after no high sample. -/
theorem Oracle.acksAt_zero {o : Oracle} {k : Nat} (h : o.upcoming k = false) : o.acksAt k 0 :=
  ⟨fun i hi => absurd hi i.not_lt_zero, h⟩

/-- Against a slave that holds the line low at the first sample of each of the three acknowledges, `RDREG` ends without
error after the 249 micro-operations of a read with no poll repeated (R84, R88). -/
theorem rdreg_of_acknowledged_at_once {o : Oracle} {s : State} {hi lo : Byte} (reg : RegAddr) (hs : s.slave = .oracle o)
    (h1 : o.upcoming 49 = false) (h2 : o.upcoming 94 = false) (h3 : o.upcoming 145 = false)
    (hhi : o.byteAt 150 = hi) (hlo : o.byteAt 198 = lo) :
    ∃ t, exec (.rdreg reg) s = .next t ∧ t.result = some (hi ++ lo) ∧
      Performed s t (readTrace s.cfg reg 0 0 0 hi lo) ∧ Ended t := by
  have hbound : 0 < s.cfg.ackPollBound.val := s.cfg.ackPollBound.property
  have h12 : o.acksFrom s.cfg.ackPollBound.val 49 [0, 0] :=
    ⟨hbound, Oracle.acksAt_zero h1, hbound, Oracle.acksAt_zero h2, trivial⟩
  have h3' : o.acksFrom s.cfg.ackPollBound.val 145 [0] := ⟨hbound, Oracle.acksAt_zero h3, trivial⟩
  obtain ⟨t, ht, hresult, hperf, hended, -⟩ := rdregReturnsTheSlavesBytes s o reg 0 0 0 hs h12 h3'
  subst hhi hlo
  exact ⟨t, ht, hresult, hperf, hended⟩

theorem readTrace_length (cfg : Config) (reg : RegAddr) (hi lo : Byte) :
    (readTrace cfg reg 0 0 0 hi lo).length = 249 := by
  simp [readTrace, pointerTrace_length, ackedTrace, startTrace, stopTrace]

/-! ### A data line held low -/

/-- While a scripted slave holds its contribution at 0, the data wire is low, whatever the master does (R14). -/
theorem MicroRun.sda_low {s t : State} {new : List Entry} (h : MicroRun s t new) {o : Oracle} (hs : s.slave = .oracle o)
    (hlow : ∀ k, k < new.length → o.upcoming k = false) : ∀ e ∈ new, e.wire.sda = false := by
  induction h generalizing o with
  | done => nofun
  | keep hkept _ ih => exact ih (hkept.slave.trans hs) hlow
  | @op s t new op _ ih =>
    have hslave : (emit op s).slave = .oracle o.draw := by rw [emit_slave, hs]; rfl
    have hlevel : (emit op s).slave.level = false := by
      rw [hslave]
      exact o.level_draw.trans (hlow 0 (Nat.succ_pos _))
    have hrest := ih hslave fun k hk => (o.upcoming_draw k).trans (hlow (k + 1) (Nat.succ_lt_succ hk))
    have hwire : (entryOf op s).wire.sda = ((op.drive s.pins).master && (emit op s).slave.level) := rfl
    rw [hlevel, Bool.and_false] at hwire
    exact List.forall_mem_cons.mpr ⟨hwire, hrest⟩

/-- Settles O34: a line held low acknowledges at once and gives two zero bytes; under it the wire is low throughout. -/
theorem stuckLineReadsZeroWithoutError : Obligations.StuckLineReadsZeroWithoutError := by
  intro s o reg hs hlow
  have hbyte : ∀ k, k < 214 → o.byteAt k = 0 := fun k hk =>
    Oracle.byteAt_eq fun m hm => (hlow _ (by omega)).trans (by simp)
  obtain ⟨t, ht, hresult, hperf, hended⟩ := rdreg_of_acknowledged_at_once reg hs (hlow 49 (by decide))
    (hlow 94 (by decide)) (hlow 145 (by decide)) (hbyte 150 (by decide)) (hbyte 198 (by decide))
  obtain ⟨new, hrun⟩ := execState_microRun (.rdreg reg) s
  rw [execState_of_exec ht] at hrun
  have hlen : new.length = 249 := by
    rw [← new.length_map, hrun.events_eq hperf, readTrace_length]
  have hwires := hrun.sda_low hs (by rwa [hlen])
  exact ⟨t, new.map Entry.wire, ht, hended, hresult, ⟨new, hrun.trace, rfl⟩, (new.length_map _).trans hlen,
    List.forall_mem_map.mpr hwires⟩

/-! ### The sentinel as data -/

/-- A slave that holds the line low for `low` micro-operations and then lets it go for `high` more. -/
def Oracle.releasedAfter (low high : Nat) : Oracle := ⟨true, List.replicate low false ++ List.replicate high true, 0⟩

theorem Oracle.upcoming_releasedAfter {low high k : Nat} (hk : k < low + high) :
    (releasedAfter low high).upcoming k = decide (low ≤ k) := by
  rcases Nat.lt_or_ge k low with h | h
  · simp [Oracle.upcoming, releasedAfter, List.getElem?_append, h]
  · have hright : k - low < high := by omega
    simp [Oracle.upcoming, releasedAfter, List.getElem?_append, h, h.not_gt, hright]

/-- Refutes O51: from reset, with a slave that acknowledges three times and then lets the line go, a read of register 0
ends with `ERR = 0` and `RESULT = 0xFFFF` (R92, R134). -/
theorem not_readWithoutErrorIsNeverTheSentinel : ¬ Obligations.ReadWithoutErrorIsNeverTheSentinel := by
  intro h
  have hack : ∀ k, k < 146 → (Oracle.releasedAfter 146 103).upcoming k = false := fun k hk => by
    rw [Oracle.upcoming_releasedAfter (by omega)]
    exact decide_eq_false (by omega)
  have hbyte : ∀ k, 146 ≤ k → k < 214 → (Oracle.releasedAfter 146 103).byteAt k = 0xFF := fun k hk hk' =>
    Oracle.byteAt_eq fun m hm => by
      rw [Oracle.upcoming_releasedAfter (by omega), decide_eq_true (by omega)]
      decide +revert
  obtain ⟨t, ht, hresult, -, herr, -⟩ :=
    rdreg_of_acknowledged_at_once (s := { State.reset with slave := .oracle (.releasedAfter 146 103) }) 0x00 rfl
      (hack 49 (by decide)) (hack 94 (by decide)) (hack 145 (by decide)) (hbyte 150 (by decide) (by decide))
      (hbyte 198 (by decide) (by decide))
  exact h _ t 0x00 ht herr hresult

end Sys2Proof.Machine
end

section
/-! PROOFS. `STATUS` at the end of a command (60_exceptions.md rules R96, R98 and R102): what a word that matches no row
does, by either way of writing `CMD`, and the two ways each command can end. -/

namespace Sys2Proof.Machine

/-! ### A word that matches no row -/

theorem decode_eq_error_of_unselected {w : CmdWord} (h : ∀ r ∈ opcodeTable, r.selects w = false) :
    ∃ e, decode w = .error e := by
  obtain ⟨⟨hselects, -⟩, -⟩ := decodeAcceptsExactlyTheTable w
  cases hw : decode w with
  | error e => exact ⟨e, rfl⟩
  | ok i =>
    obtain ⟨r, hr, hsel⟩ := hselects ⟨i, hw⟩
    exact absurd ((h r hr).symm.trans hsel) (by decide)

theorem runCommand_of_unselected {w : CmdWord} (h : ∀ r ∈ opcodeTable, r.selects w = false) (s : State) :
    runCommand w s = .next (illegalCommand s) := by
  obtain ⟨e, he⟩ := decode_eq_error_of_unselected h
  simp only [runCommand, he]

theorem issueCommand_of_unselected {w : CmdWord} (h : ∀ r ∈ opcodeTable, r.selects w = false) (s : State) :
    issueCommand w s = illegalCommand s := by
  obtain ⟨e, he⟩ := decode_eq_error_of_unselected h
  simp only [issueCommand, he]

/-- With no command in progress, clearing `SEQ` changes nothing: only the access taken off, `ERR` and `CAUSE` differ. -/
theorem illegalCommand_setPending {s : State} (hq : s.seq = none) (rest : List HostOp) :
    illegalCommand (s.setPending rest) = { s with pending := rest, err := true, cause := 2 } := by
  cases s
  cases hq
  rfl

/-- Settles O8: the word does not decode, so either way of writing it takes the fault IllegalCommand at once. -/
theorem illegalWordTakesIllegalCommand : Obligations.IllegalWordTakesIllegalCommand := by
  intro s w rest hq hp hw
  rw [← illegalCommand_setPending hq rest]
  rcases hp with hp | hp
  · exact (step_of_access hq hp).trans (runCommand_of_unselected hw _)
  · exact (step_of_access hq hp).trans (congrArg _ (issueCommand_of_unselected hw _))

/-! ### The two ways a command ends -/

/-- The two ways a command that waits for an acknowledge can take `s` to `t`: normally, or with the fault, its `STOP` made,
every sample taken and `RESULT` at `onMiss` (R95, R98, R102). -/
def EndedOrMissed (s t : State) (onMiss : Option Half) : Prop :=
  Ended t ∨ (TimedOut t ∧ t.Idle ∧ t.pollcnt = s.cfg.ackPollBound.val ∧ t.result = onMiss)

theorem waitack_endedOrMissed (s : State) : EndedOrMissed s (execState .waitack s) s.result := by
  obtain ⟨-, -, -, hresult, -⟩ := waitack_frame s
  rcases waitack_cases s with ⟨j, -, hack, -⟩ | ⟨hmiss, -⟩
  · exact .inl hack.ended
  · exact .inr ⟨hmiss.timedOut, hmiss.idle, hmiss.pollcnt, hresult⟩

theorem wrreg_endedOrMissed (reg : RegAddr) (value : Half) (s : State) :
    EndedOrMissed s (execState (.wrreg reg value) s) s.result := by
  obtain ⟨t, js, ht, -, hways, hidle, hresult, -⟩ := wrregSucceedsOrAborts s reg value
  rw [execState_of_exec ht]
  rcases hways with ⟨-, -, hended, -⟩ | ⟨b, -, -, -, htimed, hpoll⟩
  · exact .inl hended
  · exact .inr ⟨htimed, hidle, hpoll, hresult⟩

/-- Whichever of its acknowledges `RDREG` misses, it writes the sentinel (R89). -/
theorem rdreg_endedOrMissed (reg : RegAddr) (s : State) :
    EndedOrMissed s (execState (.rdreg reg) s) (some 0xFFFF) := by
  rcases rdreg_cases reg s with ⟨j1, j2, j3, u, -, -, -, hexec, -⟩ | ⟨es, u, hexec, hran, -, -, hpoll, -⟩
  · rw [hexec]
    exact .inl (complete_ended _)
  · obtain ⟨hresult, -, htimed, hpins, -⟩ := abortRead_fields hran
    rw [hexec]
    exact .inr ⟨htimed, ⟨hpins, rfl⟩, hpoll, hresult⟩

/-- Settles O37: a word that is no command takes IllegalCommand; the three commands that wait for an acknowledge end in one
of two ways, and the other five end normally, whatever `STATUS` was before. -/
theorem statusAfterEveryCommand : Obligations.StatusAfterEveryCommand := by
  refine ⟨fun w s hw => ⟨illegalCommand s, runCommand_of_unselected hw s, rfl, rfl⟩,
    fun i s => ⟨execState i s, exec_eq i s, ?_⟩⟩
  cases i with
  | waitack => exact waitack_endedOrMissed s
  | wrreg reg value => exact wrreg_endedOrMissed reg value s
  | rdreg reg => exact rdreg_endedOrMissed reg s
  | start | stop | sendbyte _ | sendack _ | recvbyte _ => exact .inl (complete_ended _)

end Sys2Proof.Machine
end

section
/-! PROOFS. The host's side of reset and boot and the durations (70_reset_and_hazards.md rules R115, R121 and R138).  A
trace's duration is the sum of its pieces' durations, so each primitive's is read off its trace; the boot sequence is one
equation, as neither of its two commands stops. -/

namespace Sys2Proof.Machine

/-! ### The durations of the traces (R138) -/

theorem duration_append (cfg : Config) (es fs : List Event) :
    duration cfg (es ++ fs) = duration cfg es + duration cfg fs := by
  induction es with
  | nil => exact (Nat.zero_add _).symm
  | cons e es ih => simp only [List.cons_append, duration, ih, Nat.add_assoc]

theorem duration_startTrace (cfg : Config) : duration cfg startTrace = cfg.tStart.toNat := by
  simp only [startTrace, duration, delayMicros, Nat.zero_add, Nat.add_zero]

theorem duration_stopTrace (cfg : Config) : duration cfg stopTrace = cfg.tStop.toNat := by
  simp only [stopTrace, duration, delayMicros, Nat.zero_add, Nat.add_zero]

theorem duration_sendAckTrace (cfg : Config) (ack : Bit) :
    duration cfg (sendAckTrace ack) = cfg.tSu.toNat + cfg.tHigh.toNat := by
  simp only [sendAckTrace, duration, delayMicros, Nat.zero_add, Nat.add_zero]

theorem duration_sentBit (cfg : Config) (b : Bit) : duration cfg (sentBit b) = cfg.tSu.toNat + cfg.tHigh.toNat := by
  simp only [sentBit, duration, delayMicros, Nat.zero_add, Nat.add_zero]

theorem duration_receivedBit (cfg : Config) (b : Bit) :
    duration cfg (receivedBit b) = cfg.tSu.toNat + cfg.tHigh.toNat := by
  simp only [receivedBit, duration, delayMicros, Nat.zero_add, Nat.add_zero]

/-- A bit takes as long whatever its level is, so a run of bits takes its length times as long. -/
theorem duration_flatMap {α : Type} (cfg : Config) {f : α → List Event} {d : Nat} (h : ∀ a, duration cfg (f a) = d)
    (as : List α) : duration cfg (as.flatMap f) = as.length * d := by
  induction as with
  | nil => exact (Nat.zero_mul d).symm
  | cons a as ih => rw [List.flatMap_cons, duration_append, h, ih, List.length_cons, Nat.succ_mul, Nat.add_comm]

theorem duration_sendByteTrace (cfg : Config) (v : Byte) :
    duration cfg (sendByteTrace v) = 8 * (cfg.tSu.toNat + cfg.tHigh.toNat) := by
  rw [sendByteTrace, duration, duration_flatMap cfg fun i => duration_sentBit cfg (v.getLsbD (7 - i)),
    List.length_range, Nat.zero_add]

/-- The eight bits received and the ninth bit sent. -/
theorem duration_recvByteTrace (cfg : Config) (v : Byte) (ack : Bit) :
    duration cfg (recvByteTrace v ack) = 9 * (cfg.tSu.toNat + cfg.tHigh.toNat) := by
  rw [recvByteTrace, duration_append, duration, duration_flatMap cfg fun i => duration_receivedBit cfg (v.getLsbD (7 - i)),
    List.length_range, duration_sendAckTrace, Nat.zero_add, Nat.succ_mul 8]

theorem duration_highSamples (cfg : Config) (j : Nat) : duration cfg (highSamples j) = j * cfg.tPoll.toNat := by
  induction j with
  | zero => exact (Nat.zero_mul _).symm
  | succ j ih =>
    rw [highSamples_succ, duration_append, ih]
    simp only [duration, delayMicros, Nat.zero_add, Nat.add_zero]
    rw [Nat.succ_mul, Nat.add_comm]

theorem duration_ackTrace (cfg : Config) (j : Nat) : duration cfg (ackTrace j) = j * cfg.tPoll.toNat := by
  rw [ackTrace, duration_append, duration_append, duration_highSamples]
  simp only [duration, Nat.zero_add, Nat.add_zero]

theorem duration_timeoutTrace (cfg : Config) (n : Nat) :
    duration cfg (timeoutTrace n) = n * cfg.tPoll.toNat + cfg.tStop.toNat := by
  rw [timeoutTrace, duration_append, duration_append, duration_highSamples, duration_stopTrace]
  simp only [duration, Nat.zero_add]

/-- The duration of `WAITACK`, for each of the two ways it can end. -/
theorem waitack_duration (s : State) : ∃ es, Performed s (execState .waitack s) es ∧
    (((execState .waitack s).err = false ∧
        duration s.cfg es = (execState .waitack s).pollcnt * s.cfg.tPoll.toNat) ∨
      ((execState .waitack s).err = true ∧
        duration s.cfg es = s.cfg.ackPollBound.val * s.cfg.tPoll.toNat + s.cfg.tStop.toNat)) := by
  rcases waitack_cases s with ⟨j, -, hack, -⟩ | ⟨hmiss, -⟩
  · rw [hack.pollcnt]
    exact ⟨_, hack.performed, .inl ⟨hack.err, duration_ackTrace s.cfg j⟩⟩
  · exact ⟨_, hmiss.performed, .inr ⟨hmiss.err, duration_timeoutTrace s.cfg _⟩⟩

/-- Settles O27: the delays of the trace each primitive performs. -/
theorem durationsOfThePrimitives : Obligations.DurationsOfThePrimitives := by
  intro s value ack
  obtain ⟨byte, hrecv, -⟩ := recvByte_cases ack s
  obtain ⟨es, hwait, hdur⟩ := waitack_duration s
  exact ⟨⟨_, _, exec_eq _ s, (start_ran s).performed.congr rfl, duration_startTrace s.cfg⟩,
    ⟨_, _, exec_eq _ s, (stop_ran s).performed.congr rfl, duration_stopTrace s.cfg⟩,
    ⟨_, _, exec_eq _ s, (sendByte_ran value s).performed.congr rfl, duration_sendByteTrace s.cfg value⟩,
    ⟨_, _, exec_eq _ s, (sendAck_ran ack s).performed.congr rfl, duration_sendAckTrace s.cfg ack⟩,
    ⟨_, _, exec_eq _ s, hrecv.performed.congr rfl, duration_recvByteTrace s.cfg byte ack⟩,
    ⟨_, es, exec_eq _ s, hwait, hdur⟩⟩

/-! ### The engine at rest (R115) -/

theorem step_of_rest {s : State} (hq : s.seq = none) (hp : s.pending = []) : step s = .next s := by
  simp only [step, move, hp, hq]

/-- Settles O11: nothing is in progress and nothing is asked of the engine. -/
theorem engineWaitsForTheHost : Obligations.EngineWaitsForTheHost := fun _ hq hp => step_of_rest hq hp

/-! ### The boot sequence (R121) -/

/-- The boot sequence that stops at its write: an acknowledge is missing, and it reports failure. -/
theorem bootSensor_of_err {word : Half} {s : State} (herr : (execState (.wrreg 0x01 word) s).err = true) :
    bootSensor word s = .next (execState (.wrreg 0x01 word) s, false) :=
  if_pos herr

/-- The boot sequence whose write succeeds: it reports whether the read-back equals the word. -/
theorem bootSensor_of_written {word : Half} {s : State} (herr : (execState (.wrreg 0x01 word) s).err = false) :
    bootSensor word s = .next (execState (.rdreg 0x01) (execState (.wrreg 0x01 word) s),
      (execState (.rdreg 0x01) (execState (.wrreg 0x01 word) s)).result == some word) :=
  if_neg (Bool.eq_false_iff.mp herr)

/-- Settles O43: failure is reported when the write is not acknowledged, else the comparison of the read-back. -/
theorem bootSequenceReportsTheReadBack : Obligations.BootSequenceReportsTheReadBack := by
  intro word s t ok hboot
  cases herr : (execState (.wrreg 0x01 word) s).err with
  | true =>
    rw [bootSensor_of_err herr] at hboot
    cases hboot
    refine ⟨fun h => Bool.noConfusion h, fun ⟨u, hwrite, hu, _⟩ => ?_⟩
    rw [← execState_of_exec hwrite, herr] at hu
    exact hu.symm
  | false =>
    rw [bootSensor_of_written herr] at hboot
    cases hboot
    refine ⟨fun h => ⟨_, exec_eq _ s, herr, exec_eq _ _, eq_of_beq h⟩, fun ⟨_, _, _, _, hresult⟩ => ?_⟩
    exact beq_iff_eq.mpr hresult

end Sys2Proof.Machine
end
